-- ==== Sys2Proof/Word.lean ====
section
/-! DEFINITION. The types of the values the machine works on: bytes, numbers, complex samples, timestamps. No operation stands here:
arithmetic is in `Machine/Scalar.lean` and `Machine/Numerics.lean`, and `Machine/Reals.lean` says what real number a number is. -/

namespace Sys2Proof

/-- One byte: an element of BLKD (10_state.md R46) or of an instruction word. -/
abbrev Byte := BitVec 8

/-- The spec's type `Num`: the carrier of the numerics record (00_scope.md R10), whose reference instance is the real numbers. A real
number as plain data: it is written down as it was made. Rationals and pi are exact, a polynomial in pi has one form, and nothing
is rounded. DESIGN CHOICE (log 1), safe. -/
inductive Scalar where
  /-- the polynomial in pi with these rational coefficients, the constant first, the last not 0 -/
  | poly (coeffs : List Rat)
  /-- a real number of which no more is known than that it lies from `lo` to `hi` -/
  | named (n : Nat) (lo hi : Rat)
  /-- a sum -/
  | sum (a b : Scalar)
  /-- a difference -/
  | diff (a b : Scalar)
  /-- a product -/
  | prod (a b : Scalar)
  /-- a quotient -/
  | quot (a b : Scalar)
  /-- the angle of a complex number (00_scope.md R14, `arg`) -/
  | angle (re im : Scalar)
deriving DecidableEq, Repr, Inhabited

/-- The number 0. -/
abbrev Scalar.zero : Scalar := .poly []

/-- The number 1. -/
abbrev Scalar.one : Scalar := .poly [1]

/-- The constant pi of the numerics record (00_scope.md R10). -/
abbrev Scalar.pi : Scalar := .poly [0, 1]

/-- -pi. -/
abbrev Scalar.negPi : Scalar := .poly [0, -1]

/-- The constant 2 pi of the numerics record (00_scope.md R10). -/
abbrev Scalar.twoPi : Scalar := .poly [0, 2]

/-- A complex Num (10_state.md R45, R47). -/
structure Cplx where
  re : Scalar
  im : Scalar
deriving DecidableEq, Repr, Inhabited

/-- The reset value of an element of INBUF (10_state.md R45). -/
abbrev Cplx.zero : Cplx := ⟨.zero, .zero⟩

/-- The type of timestamps (10_state.md R44, R52). DESIGN CHOICE (log 14), safe: the core copies them and never computes
with them. -/
abbrev Time := Nat

end Sys2Proof
end

