-- ==== Sys2Proof/Machine/Reals.lean ====
section
/-! DEFINITION. The real number that a number stands for (00_scope.md R10: the reference instance of `Num` is the real numbers). The
order and the integer part of numbers (`Machine/Scalar.lean`) are defined in terms of it, and statements are made in terms of it. -/

namespace Sys2Proof

/-- The value of a named real number: any real number at all (log 1). -/
noncomputable opaque Config.namedReal : Nat → ℝ

/-- The quotient by zero: any real number at all (log 5). -/
noncomputable opaque Config.quotientByZero : ℝ → ℝ

/-- The value at pi of a list of coefficients. -/
noncomputable def Poly.toReal : List Rat → ℝ
  | [] => 0
  | c :: cs => (c : ℝ) + Real.pi * Poly.toReal cs

/-- The real number that a number stands for. -/
noncomputable def Scalar.toReal : Scalar → ℝ
  | .poly p => Poly.toReal p
  | .named n lo hi => max (lo : ℝ) (min (hi : ℝ) (Config.namedReal n))
  | .sum a b => a.toReal + b.toReal
  | .diff a b => a.toReal - b.toReal
  | .prod a b => a.toReal * b.toReal
  | .quot a b => if b.toReal = 0 then Config.quotientByZero a.toReal else a.toReal / b.toReal
  | .angle re im => Complex.arg ⟨re.toReal, im.toReal⟩

/-- The complex number that a complex Num stands for. -/
noncomputable def Cplx.toComplex (z : Cplx) : ℂ := ⟨z.re.toReal, z.im.toReal⟩

/-- `round` on the real numbers: the nearest integer, ties away from zero (00_scope.md R14, D5). -/
noncomputable def roundReal (x : ℝ) : ℤ := if x < 0 then -⌊1 / 2 - x⌋ else ⌊x + 1 / 2⌋

end Sys2Proof
end

