-- ==== Sys2Proof/Machine/Scalar.lean ====
section
/-! DEFINITION. Exact arithmetic on numbers (00_scope.md R10, R14): the reference instance of the numerics record. Sums, differences,
products, quotients and angles are exact, and the order and the integer part are those of the real numbers. Rational enclosures let
them be evaluated; where no enclosure settles a comparison it still is that of the real numbers, which no algorithm finds (log 3). -/

namespace Sys2Proof

/-! ### Polynomials in pi -/

/-- A list of coefficients without its trailing zeros. -/
def Poly.trim : List Rat → List Rat
  | [] => []
  | c :: cs =>
    match Poly.trim cs with
    | [] => if c = 0 then [] else [c]
    | d :: ds => c :: d :: ds

/-- The sum of two coefficient lists. -/
def Poly.add : List Rat → List Rat → List Rat
  | [], q => q
  | p, [] => p
  | a :: p, b :: q => (a + b) :: Poly.add p q

/-- A multiple of a coefficient list. -/
def Poly.scale (c : Rat) (p : List Rat) : List Rat := p.map fun a => c * a

/-- The product of two coefficient lists. -/
def Poly.mul : List Rat → List Rat → List Rat
  | [], _ => []
  | a :: p, q => Poly.add (Poly.scale a q) (0 :: Poly.mul p q)

/-- The number that `p` is of times `q`, if it is a multiple of `q`. -/
def Poly.ratio (p q : List Rat) : Option Rat :=
  match q.getLast? with
  | none => none
  | some d =>
    let c := if p.length = q.length then p.getLastD 0 / d else 0
    if p = Poly.trim (Poly.scale c q) then some c else none

/-! ### The exact operations -/

/-- A rational number. -/
def Scalar.rat (q : Rat) : Scalar := .poly (Poly.trim [q])

/-- The rational number that a number is written as, if it is. -/
def Scalar.rational? : Scalar → Option Rat
  | .poly [] => some 0
  | .poly [q] => some q
  | _ => none

/-- `a + b`. -/
def Scalar.add : Scalar → Scalar → Scalar
  | .poly p, .poly q => .poly (Poly.trim (Poly.add p q))
  | a, b => .sum a b

/-- `a - b`. -/
def Scalar.sub : Scalar → Scalar → Scalar
  | .poly p, .poly q => .poly (Poly.trim (Poly.add p (Poly.scale (-1) q)))
  | a, b => .diff a b

/-- `a * b`. -/
def Scalar.mul : Scalar → Scalar → Scalar
  | .poly p, .poly q => .poly (Poly.trim (Poly.mul p q))
  | a, b => .prod a b

/-- The quotient of two polynomials in pi, `q` without trailing zeros: again one where one is a multiple of the other or the divisor
is rational. The quotient by 0 stays as it is written (log 5). -/
def Poly.div (p q : List Rat) : Scalar :=
  match Poly.ratio p q with
  | some c => .rat c
  | none =>
    match q with
    | [d] => .poly (Poly.trim (Poly.scale (1 / d) p))
    | _ => .quot (.poly p) (.poly q)

/-- `a / b`. What the quotient by 0 stands for is open (log 5). -/
def Scalar.div : Scalar → Scalar → Scalar
  | .poly p, .poly q => Poly.div p (Poly.trim q)
  | a, b => .quot a b

/-- The angle of a complex number with rational parts: in its simplest form on the axes and the diagonals. `arg(0) = 0`
(00_scope.md R14, D4) and the negative real axis has the angle pi (40_sample_filter.md R124 (b)). -/
def Scalar.rationalAngle (x y : Rat) : Scalar :=
  if y = 0 then (if x < 0 then .pi else .zero)
  else if x = 0 then (if 0 < y then .poly [0, 1 / 2] else .poly [0, -1 / 2])
  else if x = y then (if 0 < x then .poly [0, 1 / 4] else .poly [0, -3 / 4])
  else if x = -y then (if 0 < y then .poly [0, 3 / 4] else .poly [0, -1 / 4])
  else .angle (.rat x) (.rat y)

/-- `arg(z)`: the angle of z in (-pi, pi] (00_scope.md R14). -/
def Scalar.arg (z : Cplx) : Scalar :=
  match z.re.rational?, z.im.rational? with
  | some x, some y => Scalar.rationalAngle x y
  | _, _ => .angle z.re z.im

/-! ### Rational enclosures -/

/-- A closed interval with rational ends. -/
structure Ival where
  lo : Rat
  hi : Rat
deriving DecidableEq, Repr, Inhabited

/-- One point. -/
def Ival.point (q : Rat) : Ival := ⟨q, q⟩

/-- The interval of the sums. -/
def Ival.add (x y : Ival) : Ival := ⟨x.lo + y.lo, x.hi + y.hi⟩

/-- The interval of the differences. -/
def Ival.sub (x y : Ival) : Ival := ⟨x.lo - y.hi, x.hi - y.lo⟩

/-- The interval of the products. -/
def Ival.mul (x y : Ival) : Ival :=
  ⟨min (min (x.lo * y.lo) (x.lo * y.hi)) (min (x.hi * y.lo) (x.hi * y.hi)),
   max (max (x.lo * y.lo) (x.lo * y.hi)) (max (x.hi * y.lo) (x.hi * y.hi))⟩

/-- The interval of the reciprocals, of an interval without 0. -/
def Ival.inv (x : Ival) : Option Ival := if 0 < x.lo ∨ x.hi < 0 then some ⟨1 / x.hi, 1 / x.lo⟩ else none

/-- The interval widened to ends that are multiples of 2^-80. -/
def Ival.coarsen (x : Ival) : Ival := ⟨(x.lo * 2 ^ 80).floor / 2 ^ 80, -((-x.hi * 2 ^ 80).floor / 2 ^ 80)⟩

/-- Twenty digits of pi. -/
def Ival.pi : Ival := ⟨314159265358979323846 / 10 ^ 20, 314159265358979323847 / 10 ^ 20⟩

/-- The first `n` terms of the series of the arc tangent. -/
def atanSum (u : Rat) : Nat → Rat
  | 0 => 0
  | n + 1 => atanSum u n + (-1) ^ n * u ^ (2 * n + 1) / (2 * n + 1)

/-- An enclosure of the arc tangent from 26 terms of its series. -/
def Ival.atanSeries (u : Rat) : Ival :=
  let e := |u| ^ 53 / 53
  Ival.coarsen ⟨atanSum u 26 - e, atanSum u 26 + e⟩

/-- An enclosure of the arc tangent of a number that is not negative. -/
def Ival.atanPos (t : Rat) : Ival :=
  if t ≤ 2 / 5 then Ival.atanSeries t
  else if t < 5 / 2 then Ival.add (Ival.mul (Ival.point (1 / 4)) Ival.pi) (Ival.atanSeries ((t - 1) / (t + 1)))
  else Ival.sub (Ival.mul (Ival.point (1 / 2)) Ival.pi) (Ival.atanSeries (1 / t))

/-- An enclosure of the arc tangent. -/
def Ival.atan (t : Rat) : Ival := if t < 0 then Ival.sub (Ival.point 0) (Ival.atanPos (-t)) else Ival.atanPos t

/-- An enclosure of the angle of a complex number with rational parts. -/
def Ival.angle (x y : Rat) : Ival :=
  if y = 0 then (if x < 0 then Ival.pi else Ival.point 0)
  else if 0 < y then Ival.sub (Ival.mul (Ival.point (1 / 2)) Ival.pi) (Ival.atan (x / y))
  else Ival.sub (Ival.mul (Ival.point (-1 / 2)) Ival.pi) (Ival.atan (x / y))

/-- An operation on the enclosures that there are. -/
def Ival.both (f : Ival → Ival → Ival) : Option Ival → Option Ival → Option Ival
  | some x, some y => some (f x y)
  | _, _ => none

/-- An enclosure of the value of a polynomial in pi. -/
def Ival.poly : List Rat → Ival
  | [] => Ival.point 0
  | c :: cs => Ival.add (Ival.point c) (Ival.mul Ival.pi (Ival.poly cs))

/-- A rational enclosure of a number, where there is one. -/
def Scalar.enclose : Scalar → Option Ival
  | .poly p => some (Ival.poly p)
  | .named _ lo hi => some ⟨lo, max lo hi⟩
  | .sum a b => Ival.both Ival.add a.enclose b.enclose
  | .diff a b => Ival.both Ival.sub a.enclose b.enclose
  | .prod a b => Ival.both Ival.mul a.enclose b.enclose
  | .quot a b => Ival.both Ival.mul a.enclose (b.enclose.bind Ival.inv)
  | .angle re im =>
    match re.rational?, im.rational? with
    | some x, some y => some (Ival.angle x y)
    | _, _ => some ⟨-Ival.pi.hi, Ival.pi.hi⟩

/-- The enclosures show that `a < b`. -/
def Scalar.surelyBelow (a b : Scalar) : Bool :=
  match a.enclose, b.enclose with
  | some x, some y => decide (x.hi < y.lo)
  | _, _ => false

/-- The enclosures show that `a ≤ b`. -/
def Scalar.surelyAtMost (a b : Scalar) : Bool :=
  match a.enclose, b.enclose with
  | some x, some y => decide (x.hi ≤ y.lo)
  | _, _ => false

/-! ### The order -/

/-- The one value with a property, for facts about real numbers that no algorithm decides (log 3). Its value is fixed by its type: it has
the property, and it is the only one that has. Compiled code searches for it without end. -/
def theOnly {α : Type} (p : α → Prop) (h : Nonempty { x : α // p x ∧ ∀ y, p y → y = x }) :
    { x : α // p x ∧ ∀ y, p y → y = x } := theOnly p h
partial_fixpoint

/-- Whether a proposition is true. -/
def truthOf (p : Prop) : Bool :=
  (theOnly (fun r => r = true ↔ p) (by classical exact ⟨decide p, by simp, fun y h => by simp [← h]⟩)).val

/-- `a < b`, as real numbers (00_scope.md R10). The enclosures, or `a` and `b` being written alike, only let it be evaluated
(`Scalar.lt_iff` in Laws/Scalar.lean). -/
def Scalar.lt (a b : Scalar) : Bool :=
  if a.surelyBelow b then true
  else if b.surelyAtMost a then false
  else if a = b then false
  else truthOf (a.toReal < b.toReal)

/-- The largest integer that is not above a number, as a real number. -/
def Scalar.realFloor (a : Scalar) : Int :=
  (theOnly (fun n : Int => n = ⌊a.toReal⌋) ⟨_, rfl, fun _ h => h⟩).val

/-- The largest integer that is not above a number. The enclosure only lets it be evaluated (`Scalar.floor_eq` in Laws/Scalar.lean). -/
def Scalar.floor (a : Scalar) : Int :=
  match a.enclose with
  | some x => if x.lo.floor = x.hi.floor then x.lo.floor else a.realFloor
  | none => a.realFloor

/-- `round(a)`: the nearest integer, ties away from zero (00_scope.md R14, D5). -/
def Scalar.round (a : Scalar) : Int :=
  if Scalar.lt a .zero then -(Scalar.sub (.rat (1 / 2)) a).floor else (Scalar.add a (.rat (1 / 2))).floor

end Sys2Proof
end

