-- ==== Sys2Proof/Config.lean ====
section
/-! DEFINITION. What the platform fixes before RESET: the parameters, tables and numerics record of 00_scope.md R7 to R10,
and the free values of the model (constants without a body, so that no proof can see what they are). -/

namespace Sys2Proof

/-! ### The constants the source fixes (00_scope.md R7) -/

/-- OVS: filtered samples per symbol. -/
abbrev ovs : Nat := 8
/-- HDR_BITS: header bits fed to the FEC decoder. -/
abbrev hdrBits : Nat := 25
/-- MINLEN: minimum block length in bits. -/
abbrev minLen : Nat := 104
/-- ROWBITS: data bits of a full block row. -/
abbrev rowBits : Nat := 1992
/-- MAXROW: maximum row count. -/
abbrev maxRow : Nat := 65
/-- NCOL: columns of the block matrices. -/
abbrev nCol : Nat := 255
/-- C_PAD: first overhead column. -/
abbrev cPad : Nat := 249
/-- LOCK_THR: lock threshold on the previous fit error. -/
abbrev lockThr : Scalar := .rat 4
/-- SENT: fit-error sentinel. -/
abbrev sentinel : Scalar := .rat 500
/-- HDR_CONF: minimum header path metric. -/
abbrev hdrConf : Scalar := .rat (1 / 25)
/-- QSCALE and QOFF: scale and offset of the quantiser. -/
abbrev qScale : Scalar := .rat 128

/-! ### The numerics record (00_scope.md R10) -/

/-- The arithmetic of a numerics record: exact, or that of a number format, of which no source says anything. -/
inductive Arith where
  /-- exact arithmetic on the real numbers: the spec's reference instance -/
  | exact
  /-- a format of the hardware's own: its operations are uninterpreted (log 4) -/
  | format (id : Nat)
deriving DecidableEq, Repr, Inhabited

/-- The four arithmetic operations of the numerics record. -/
inductive NumOp where
  | add | sub | mul | div
deriving DecidableEq, Repr

/-- The two comparisons of the numerics record. -/
inductive NumRel where
  | lt | gt
deriving DecidableEq, Repr

/-- The numerics record. Its operations are in `Machine/Numerics.lean`; its constants (pi, 2 pi, 0.5, 1, 4, 500, 0.04, 128) are exact
whatever the arithmetic is, as 00_scope.md R7 has them, and an operation of a format that rounds its operands rounds them
there (log 2). -/
structure Numerics where
  /-- exact arithmetic, or a format -/
  arith : Arith := .exact
deriving DecidableEq, Repr

/-! ### The configuration record (00_scope.md R8, R9) -/

/-- How CLKINIT and OFFSEL are given (41_sync.md R150): the spec's default formulas, or functions of the platform's. -/
inductive SplitRule where
  | default
  | custom (id : Nat)
deriving DecidableEq, Repr, Inhabited

/-- How FRNORM is given (00_scope.md R8): its default, the sum of the squares of the abscissas (41_sync.md R145), or a number of the
platform's. -/
inductive NormRule where
  | default
  | custom (v : Scalar)
deriving DecidableEq, Repr, Inhabited

/-- The parameters and constant tables, as plain data. -/
structure ConfigData where
  /-- NTAP: taps per filter variant, capacity of INBUF -/
  ntap : Nat
  /-- NOFF: number of filter variants -/
  noff : Nat
  /-- HDEPTH: history depth in symbols -/
  hdepth : Nat
  /-- L: template length -/
  l : Nat
  /-- FRNORM: normalisation of the slope sum -/
  frnorm : NormRule := .default
  /-- SEED: descrambler seed -/
  seed : BitVec 16
  /-- CLKINIT and OFFSEL -/
  split : SplitRule := .default
  /-- the numerics record -/
  num : Numerics := { }
  /-- MFLT: one row of NTAP complex taps for each variant -/
  mflt : List (List Cplx)
  /-- SW: the preamble phase template -/
  sw : List Scalar
  /-- GRAY: three tables of 256 soft bits -/
  gray : List (List Scalar)
deriving DecidableEq, Repr

/-- FRNORM is positive: the default is, since L is at least 2. -/
def NormRule.positive : NormRule → Bool
  | .default => true
  | .custom v => Scalar.lt .zero v

/-- The constraints of 00_scope.md R8: on the structural parameters. -/
def ConfigData.paramsValid (c : ConfigData) : Bool :=
  decide (1 ≤ c.ntap) && decide (c.noff % 2 = 1) && decide (2 ≤ c.l) && decide (c.l ≤ c.hdepth) && c.frnorm.positive

/-- The shapes of the tables (00_scope.md R9, 10_state.md R47 to R49). -/
def ConfigData.shapesValid (c : ConfigData) : Bool :=
  decide (c.mflt.length = c.noff) && c.mflt.all (fun row => decide (row.length = c.ntap))
    && decide (c.sw.length = c.l)
    && decide (c.gray.length = 3) && c.gray.all (fun t => decide (t.length = 256))

/-- Every GRAY entry lies in the closed interval [0, 1] (00_scope.md R9, D3). -/
def ConfigData.grayValid (c : ConfigData) : Bool :=
  c.gray.all (fun t => t.all (fun v => !Scalar.lt v .zero && !Scalar.lt .one v))

/-- All the constraints a configuration must meet (00_scope.md R8, R9; U13). -/
def ConfigData.valid (c : ConfigData) : Bool :=
  c.paramsValid && c.shapesValid && c.grayValid

/-- The smallest configuration that meets the constraints. It only shows that one exists: no machine of the model is said
to have it. -/
def ConfigData.smallest : ConfigData where
  ntap := 1
  noff := 1
  hdepth := 2
  l := 2
  seed := 0
  mflt := [[⟨.one, .zero⟩]]
  sw := [.zero, .zero]
  gray := List.replicate 3 (List.replicate 256 .zero)

/-- The configuration record (00_scope.md R8, R9; 70_reset_and_hazards.md R261): plain data with the proof that it meets the
constraints, so that a configuration which violates them (D3, U13: refuse) cannot be given to the machine. -/
structure Config where
  data : ConfigData := ConfigData.smallest
  ok : data.valid = true := by decide +kernel
deriving DecidableEq, Repr, Inhabited

namespace Config

/-- NTAP -/
abbrev ntap (c : Config) : Nat := c.data.ntap
/-- NOFF -/
abbrev noff (c : Config) : Nat := c.data.noff
/-- L -/
abbrev l (c : Config) : Nat := c.data.l
/-- PHLEN = HDEPTH * OVS, the capacity of the phase history (00_scope.md R8) -/
abbrev phlen (c : Config) : Nat := c.data.hdepth * ovs
/-- SEED -/
abbrev seed (c : Config) : BitVec 16 := c.data.seed
/-- the numerics record -/
abbrev num (c : Config) : Numerics := c.data.num

/-! ### Free values: constants without a body -/

/-- The configuration the machine has been given. DESIGN CHOICE (log 6): no source gives the parameters and tables, so the
model says nothing of it but that it meets the constraints. -/
opaque installed : Config

/-- The angle a number format gives to a sample off the real axis (log 4). -/
opaque formatArg (format : Nat) : Scalar → Scalar → Scalar

/-- The result a number format gives to an operation (log 4). -/
opaque formatOp (format : Nat) : NumOp → Scalar → Scalar → Scalar

/-- The sum a number format gives to terms, in whatever order it takes them (log 4). -/
opaque formatSum (format : Nat) : List Scalar → Scalar

/-- The answer a number format gives to a comparison (log 4). -/
opaque formatRel (format : Nat) : NumRel → Scalar → Scalar → Bool

/-- The integer a number format rounds a number to (log 4). -/
opaque formatRound (format : Nat) : Scalar → Int

/-- CLKINIT of the platform, constrained to be below OVS (00_scope.md R8; log 7). -/
opaque clkInit (id : Nat) : Scalar → Fin 8

/-- OFFSEL of the platform, before its reduction to 0..NOFF-1 (00_scope.md R8; log 7). -/
opaque offSel (id : Nat) : Scalar → Nat

/-- FECDEC: the answer of the external FEC decoder to the pairs pushed since its reset (60_exceptions.md R246; log 8). -/
opaque fecDec : List (Scalar × BitVec 5) → Scalar × BitVec 32

end Config

end Sys2Proof
end

