-- ==== Sys2Proof/Machine/Numerics.lean ====
section
/-! DEFINITION. The operations of the numerics record (00_scope.md R10, R14). With exact arithmetic they are those of the real numbers
(`Machine/Scalar.lean`); with a format all of them, comparisons and `round` too, are uninterpreted (log 4). At the end, how the
operations read the parameters and tables. -/

namespace Sys2Proof

/-- `a + b` of the numerics record. -/
def Numerics.add (n : Numerics) (a b : Scalar) : Scalar :=
  match n.arith with
  | .exact => Scalar.add a b
  | .format k => Config.formatOp k .add a b

/-- `a - b` of the numerics record. -/
def Numerics.sub (n : Numerics) (a b : Scalar) : Scalar :=
  match n.arith with
  | .exact => Scalar.sub a b
  | .format k => Config.formatOp k .sub a b

/-- `a * b` of the numerics record. -/
def Numerics.mul (n : Numerics) (a b : Scalar) : Scalar :=
  match n.arith with
  | .exact => Scalar.mul a b
  | .format k => Config.formatOp k .mul a b

/-- `a / b` of the numerics record. -/
def Numerics.div (n : Numerics) (a b : Scalar) : Scalar :=
  match n.arith with
  | .exact => Scalar.div a b
  | .format k => Config.formatOp k .div a b

/-- `a < b` of the numerics record. -/
def Numerics.lt (n : Numerics) (a b : Scalar) : Bool :=
  match n.arith with
  | .exact => Scalar.lt a b
  | .format k => Config.formatRel k .lt a b

/-- `a > b` of the numerics record. -/
def Numerics.gt (n : Numerics) (a b : Scalar) : Bool :=
  match n.arith with
  | .exact => Scalar.lt b a
  | .format k => Config.formatRel k .gt a b

/-- `round(a)` of the numerics record: the nearest integer, ties away from zero (00_scope.md R14, D5). -/
def Numerics.round (n : Numerics) (a : Scalar) : Int :=
  match n.arith with
  | .exact => Scalar.round a
  | .format k => Config.formatRound k a

/-- The sum of a list of terms. -/
def Numerics.sum (n : Numerics) (l : List Scalar) : Scalar :=
  match n.arith with
  | .exact => l.foldl Scalar.add .zero
  | .format k => Config.formatSum k l

/-- The complex product, no conjugate taken (40_sample_filter.md R123). -/
def Numerics.cmul (n : Numerics) (a b : Cplx) : Cplx :=
  ⟨n.sub (n.mul a.re b.re) (n.mul a.im b.im), n.add (n.mul a.re b.im) (n.mul a.im b.re)⟩

/-- The sum of a list of complex terms. -/
def Numerics.csum (n : Numerics) (l : List Cplx) : Cplx := ⟨n.sum (l.map Cplx.re), n.sum (l.map Cplx.im)⟩

/-- Whether a number is 0, or neither below nor above it as the record compares. -/
def Numerics.isZero (n : Numerics) (a : Scalar) : Bool := decide (a = .zero) || (!n.lt a .zero && !n.gt a .zero)

/-- The angle a format gives, a free value in (-pi, pi] as the format compares (log 4): 0 on the positive real axis and at 0, pi on the
negative one, as 00_scope.md R14 and 40_sample_filter.md R124 fix them. -/
def Numerics.argFormat (n : Numerics) (k : Nat) (z : Cplx) : Scalar :=
  if n.isZero z.im then (if !n.isZero z.re && n.lt z.re .zero then .pi else .zero)
  else
    let v := Config.formatArg k z.re z.im
    if n.gt v .negPi && !n.gt v .pi then v else .zero

/-- `arg(z)`: the angle of z in (-pi, pi], with `arg(0) = 0` (00_scope.md R14, D4); the negative real axis has the angle pi,
never -pi (40_sample_filter.md R124 (b)). -/
def Numerics.arg (n : Numerics) (z : Cplx) : Scalar :=
  match n.arith with
  | .exact => Scalar.arg z
  | .format k => n.argFormat k z

/-- `wrap(a)`: `a - 2 pi` if `a > pi`, `a + 2 pi` if `a <= -pi`, else a (00_scope.md R14). -/
def Numerics.wrap (n : Numerics) (a : Scalar) : Scalar :=
  if n.gt a .pi then n.sub a .twoPi
  else if !n.gt a .negPi then n.add a .twoPi
  else a

/-- `clamp(n, lo, hi)` is `min(max(n, lo), hi)` (00_scope.md R14). -/
def clampInt (v lo hi : Int) : Int := min (max v lo) hi

/-! ### The parameters and tables as the operations read them -/

/-- The abscissa of point `k` of a line fit over `l` points: `k - (l - 1)/2`, exact for even `l` too (41_sync.md R145). -/
def abscissaOf (l k : Nat) : Rat := (k : Rat) - ((l : Rat) - 1) / 2

/-- The default of FRNORM: the sum of the squares of the abscissas (00_scope.md R8, 41_sync.md R145). -/
def frnormDefault (l : Nat) : Rat := ((List.range l).map fun k => abscissaOf l k * abscissaOf l k).sum

/-- FRNORM (00_scope.md R8). -/
def Config.frnorm (c : Config) : Scalar :=
  match c.data.frnorm with
  | .default => .rat (frnormDefault c.l)
  | .custom v => v

/-- `MFLT[o][i]` (10_state.md R47). -/
def Config.tap (c : Config) (o i : Nat) : Cplx := (c.data.mflt.getD o []).getD i Cplx.zero

/-- `GRAY[t][j]` (10_state.md R49). -/
def Config.gray (c : Config) (t j : Nat) : Scalar := (c.data.gray.getD t []).getD j .zero

end Sys2Proof
end

