-- ==== Sys2Proof/Syntax.lean ====
section
/-! DEFINITION. The instructions: the 38 micro-operations of the operation map (30_encoding.md R98) and the 5 composites of
R107, one constructor each, in the order of spec/opcode_table.json. An operation has no argument: its operands are registers,
memories and the temporaries that the operations before it in the step have left (00_scope.md R15, R16; log 9). -/

namespace Sys2Proof

inductive Instr where
  /-- RESET: bring the context to its initial value (70_reset_and_hazards.md R260) -/
  | reset
  /-- SPUSH: store the input sample (40_sample_filter.md R121) -/
  | spush
  /-- DTICK: decimation by 2 (40_sample_filter.md R122) -/
  | dtick
  /-- MFILT: one filtered sample from the last NTAP inputs (40_sample_filter.md R123) -/
  | mfilt
  /-- PHASE: angle of the filtered sample, appended to the phase history (40_sample_filter.md R124) -/
  | phase
  /-- SY.SAMPLE: take L history entries one symbol apart (41_sync.md R141) -/
  | sySample
  /-- SY.RESID: subtract the template (41_sync.md R142) -/
  | syResid
  /-- SY.UNWRAP: remove 2 pi jumps between consecutive residuals (41_sync.md R143) -/
  | syUnwrap
  /-- SY.DC: remove the mean (41_sync.md R144) -/
  | syDc
  /-- SY.FIT: slope of the least-squares line (41_sync.md R145) -/
  | syFit
  /-- SY.ERR: residual sum of squares (41_sync.md R146) -/
  | syErr
  /-- SY.PEAK: has a local minimum of the fit error just passed? (41_sync.md R147) -/
  | syPeak
  /-- SY.ACQ: declare acquisition (41_sync.md R148) -/
  | syAcq
  /-- SY.INTERP: parabolic interpolation of the minimum (41_sync.md R149) -/
  | syInterp
  /-- SY.SPLIT: symbol-clock phase and filter variant (41_sync.md R150) -/
  | sySplit
  /-- SY.SHIFT: no acquisition, age the trackers (41_sync.md R151) -/
  | syShift
  /-- SCLK: count filter ticks, demodulate once per symbol (42_demod.md R170) -/
  | sclk
  /-- DM.DIFF: phase difference to the previous symbol (42_demod.md R172) -/
  | dmDiff
  /-- DM.CORR: remove the carrier offset (42_demod.md R173) -/
  | dmCorr
  /-- DM.QUANT: quantise to a table index (42_demod.md R174) -/
  | dmQuant
  /-- DM.GRAY: look up three soft bits (42_demod.md R175) -/
  | dmGray
  /-- DESCR: advance the shift register, conditionally invert the soft bit (42_demod.md R177) -/
  | descr
  /-- BITDROP: discard a bit that arrives while IDLE (42_demod.md R179) -/
  | bitdrop
  /-- HDRBIT: push one soft bit to the FEC decoder (43_header.md R190) -/
  | hdrbit
  /-- HDRFIN: finalise the decoder and validate the header (43_header.md R191) -/
  | hdrfin
  /-- HD.CONF: confidence check (43_header.md R192) -/
  | hdConf
  /-- HD.LEN: extract the block length (43_header.md R193) -/
  | hdLen
  /-- HD.SHORT: minimum length check (43_header.md R194) -/
  | hdShort
  /-- HD.GEOM: rows and last-row byte count (43_header.md R195) -/
  | hdGeom
  /-- HD.LONG: maximum size check (43_header.md R196) -/
  | hdLong
  /-- HD.ACCEPT: enter DATA (43_header.md R197) -/
  | hdAccept
  /-- DATABIT: take one soft bit into the byte being assembled (44_block.md R210) -/
  | databit
  /-- BSTORE: store the finished byte and its confidence (44_block.md R211) -/
  | bstore
  /-- BADV: advance the row and column indices (44_block.md R212) -/
  | badv
  /-- BDONE: completion test (44_block.md R213) -/
  | bdone
  /-- DISPATCH: hand the block to the frame decoder, return to IDLE (44_block.md R214) -/
  | dispatch
  /-- DM.UPD: retain the phase for the next symbol (42_demod.md R176) -/
  | dmUpd
  /-- TOIDLE: re-enter IDLE (60_exceptions.md R238) -/
  | toidle
  /-- STEP: the effect of one SAMPLE (40_sample_filter.md R120) -/
  | step
  /-- FDISP: choose between sync acquisition and the symbol clock (40_sample_filter.md R125) -/
  | fdisp
  /-- SYNC: one run of sync acquisition (41_sync.md R140) -/
  | sync
  /-- DEMOD: one symbol to three soft bits (42_demod.md R171) -/
  | demod
  /-- PUTBIT: descramble one soft bit and hand it to the state machine (42_demod.md R180) -/
  | putbit
deriving DecidableEq, Repr

/-- An instruction word as it is written: the control vector CV in the low six bits of the first byte (30_encoding.md R97) and
the row number of the operation map in the second byte (log 10). -/
structure OpWord where
  cv : Byte
  row : Byte
deriving DecidableEq, Repr

end Sys2Proof
end

