-- ==== Sys2Proof/Machine/OperationMap.lean ====
section
/-! DEFINITION. The operation map of 30_encoding.md R98 and R107: for each operation the mask and match its control vector must
meet, and its row number. `cv` is the control vector in bits 5 to 0 of a byte (R97: rst, lastbit, stick, ftick, st). -/

namespace Sys2Proof

/-- The mask of the operation's row (30_encoding.md R98; R107 for the composites). -/
def Instr.cvMask : Instr → Byte
  | .reset => 0x20   -- 1xxxxx
  | .spush => 0x20   -- 0xxxxx
  | .dtick => 0x20   -- 0xxxxx
  | .mfilt => 0x24   -- 0xx1xx
  | .phase => 0x24   -- 0xx1xx
  | .sySample => 0x27   -- 0xx100
  | .syResid => 0x27   -- 0xx100
  | .syUnwrap => 0x27   -- 0xx100
  | .syDc => 0x27   -- 0xx100
  | .syFit => 0x27   -- 0xx100
  | .syErr => 0x27   -- 0xx100
  | .syPeak => 0x27   -- 0xx100
  | .syAcq => 0x27   -- 0xx100
  | .syInterp => 0x27   -- 0xx100
  | .sySplit => 0x27   -- 0xx100
  | .syShift => 0x27   -- 0xx100
  | .sclk => 0x26   -- 0xx11x
  | .dmDiff => 0x2e   -- 0x111x
  | .dmCorr => 0x2e   -- 0x111x
  | .dmQuant => 0x2e   -- 0x111x
  | .dmGray => 0x2e   -- 0x111x
  | .descr => 0x2c   -- 0x11xx
  | .bitdrop => 0x2f   -- 0x1100
  | .hdrbit => 0x2f   -- 0x1110
  | .hdrfin => 0x3f   -- 011110
  | .hdConf => 0x3f   -- 011110
  | .hdLen => 0x3f   -- 011110
  | .hdShort => 0x3f   -- 011110
  | .hdGeom => 0x3f   -- 011110
  | .hdLong => 0x3f   -- 011110
  | .hdAccept => 0x3f   -- 011110
  | .databit => 0x2f   -- 0x1111
  | .bstore => 0x3f   -- 011111
  | .badv => 0x3f   -- 011111
  | .bdone => 0x3f   -- 011111
  | .dispatch => 0x3f   -- 011111
  | .dmUpd => 0x2e   -- 0x111x
  | .toidle => 0x3e   -- 01111x
  | .step => 0x20   -- 0xxxxx
  | .fdisp => 0x24   -- 0xx1xx
  | .sync => 0x27   -- 0xx100
  | .demod => 0x2e   -- 0x111x
  | .putbit => 0x2c   -- 0x11xx

/-- The match of the operation's row (30_encoding.md R98; R107 for the composites). -/
def Instr.cvMatch : Instr → Byte
  | .reset => 0x20
  | .spush => 0x00
  | .dtick => 0x00
  | .mfilt => 0x04
  | .phase => 0x04
  | .sySample => 0x04
  | .syResid => 0x04
  | .syUnwrap => 0x04
  | .syDc => 0x04
  | .syFit => 0x04
  | .syErr => 0x04
  | .syPeak => 0x04
  | .syAcq => 0x04
  | .syInterp => 0x04
  | .sySplit => 0x04
  | .syShift => 0x04
  | .sclk => 0x06
  | .dmDiff => 0x0e
  | .dmCorr => 0x0e
  | .dmQuant => 0x0e
  | .dmGray => 0x0e
  | .descr => 0x0c
  | .bitdrop => 0x0c
  | .hdrbit => 0x0e
  | .hdrfin => 0x1e
  | .hdConf => 0x1e
  | .hdLen => 0x1e
  | .hdShort => 0x1e
  | .hdGeom => 0x1e
  | .hdLong => 0x1e
  | .hdAccept => 0x1e
  | .databit => 0x0f
  | .bstore => 0x1f
  | .badv => 0x1f
  | .bdone => 0x1f
  | .dispatch => 0x1f
  | .dmUpd => 0x0e
  | .toidle => 0x1e
  | .step => 0x00
  | .fdisp => 0x04
  | .sync => 0x04
  | .demod => 0x0e
  | .putbit => 0x0c

/-- The number of the operation's row in the operation map; the composites follow the 38 rows (30_encoding.md R98, R107). -/
def Instr.rowNumber : Instr → Nat
  | .reset => 1
  | .spush => 2
  | .dtick => 3
  | .mfilt => 4
  | .phase => 5
  | .sySample => 6
  | .syResid => 7
  | .syUnwrap => 8
  | .syDc => 9
  | .syFit => 10
  | .syErr => 11
  | .syPeak => 12
  | .syAcq => 13
  | .syInterp => 14
  | .sySplit => 15
  | .syShift => 16
  | .sclk => 17
  | .dmDiff => 18
  | .dmCorr => 19
  | .dmQuant => 20
  | .dmGray => 21
  | .descr => 22
  | .bitdrop => 23
  | .hdrbit => 24
  | .hdrfin => 25
  | .hdConf => 26
  | .hdLen => 27
  | .hdShort => 28
  | .hdGeom => 29
  | .hdLong => 30
  | .hdAccept => 31
  | .databit => 32
  | .bstore => 33
  | .badv => 34
  | .bdone => 35
  | .dispatch => 36
  | .dmUpd => 37
  | .toidle => 38
  | .step => 39
  | .fdisp => 40
  | .sync => 41
  | .demod => 42
  | .putbit => 43

/-- The 38 rows of the operation map, in table order, which is the order the operations of one step run in (30_encoding.md
R98). -/
def mapRows : List Instr :=
  [.reset, .spush, .dtick, .mfilt, .phase, .sySample, .syResid, .syUnwrap, .syDc, .syFit, .syErr, .syPeak, .syAcq,
   .syInterp, .sySplit, .syShift, .sclk, .dmDiff, .dmCorr, .dmQuant, .dmGray, .descr, .bitdrop, .hdrbit, .hdrfin,
   .hdConf, .hdLen, .hdShort, .hdGeom, .hdLong, .hdAccept, .databit, .bstore, .badv, .bdone, .dispatch, .dmUpd, .toidle]

/-- The five composites (30_encoding.md R107), which have no row of their own. -/
def compositeRows : List Instr := [.step, .fdisp, .sync, .demod, .putbit]

/-- The instruction of a row number, from 1. -/
def rowInstr (n : Nat) : Option Instr :=
  if n = 0 then none else (mapRows ++ compositeRows)[n - 1]?

/-- `(CV and mask) = match` (30_encoding.md R98), the condition on the control vector alone. -/
def Instr.selectedBy (i : Instr) (cv : Byte) : Bool := cv &&& i.cvMask == i.cvMatch

/-- How many bits of the control vector the operation's pattern fixes. -/
def Instr.fixedBits (i : Instr) : Nat := (List.range 8).countP (fun k => i.cvMask.getLsbD k)

/-- Of the rows that a control vector selects, the one whose pattern fixes the most bits, the first of them in table order:
what a word that names no row stands for (DESIGN CHOICE, log 10, safe). -/
def mostSpecific (cv : Byte) : Instr :=
  mapRows.foldl
    (fun best i => if i.selectedBy cv && (!best.selectedBy cv || decide (best.fixedBits < i.fixedBits)) then i else best)
    .spush

end Sys2Proof
end

