-- ==== Sys2Proof/WellFormed.lean ====
section
/-! DEFINITION. Well-formedness of what is written down for the machine: instruction words and instructions. (The checks of a
configuration are in `Config.lean`, since a configuration carries the proof that they hold; the check of a sample is made where
it is accepted, `Machine/Fetch.lean`.) -/

namespace Sys2Proof

/-- The two bits above CV[5] are clear: CV has 6 bits (30_encoding.md R97). -/
def OpWord.cvInRange (w : OpWord) : Bool := !w.cv.getLsbD 6 && !w.cv.getLsbD 7

/-- The field `st` of the control vector is one of the three state codes: 0b01 is reserved and a model that can express it must
refuse it (30_encoding.md R97, R104 (a); U5). -/
def OpWord.stateKnown (w : OpWord) : Bool := !(w.cv.getLsbD 0 && !w.cv.getLsbD 1)

/-- The second byte names a row of the operation map (30_encoding.md R98, R107). -/
def OpWord.rowKnown (w : OpWord) : Bool := (rowInstr w.row.toNat).isSome

/-- The control vector meets the mask and match of the row named (30_encoding.md R98). -/
def OpWord.cvMatches (w : OpWord) : Bool :=
  match rowInstr w.row.toNat with
  | some i => i.selectedBy w.cv
  | none => false

/-- A word that names its row is well formed: the four checks together. -/
def OpWord.wf (w : OpWord) : Bool := w.cvInRange && w.stateKnown && w.rowKnown && w.cvMatches

/-- An instruction is well formed when the word made of its row's match and its row number is. -/
def Instr.wf (i : Instr) : Bool := OpWord.wf ⟨i.cvMatch, BitVec.ofNat 8 i.rowNumber⟩

end Sys2Proof
end

