-- ==== Sys2Proof/Decode.lean ====
section
/-! DEFINITION. The decoder and the encoder of instruction words. A word is two bytes: the control vector CV of
30_encoding.md R97 in bits 5 to 0 of the first byte, and the row number of the operation map (R98, R107) in the second. The
second byte is the model's own (DESIGN CHOICE, log 10): several rows have the same mask and match, so the CV alone does not
name one of them. A second byte of 0 leaves the row open, and the word then stands for the most specific row its CV selects. -/

namespace Sys2Proof

/-- Why bytes are no instruction word: the reasons the decoder rejects by. -/
inductive DecodeError where
  /-- fewer than two bytes are left -/
  | truncated
  /-- a bit above CV[5] is set in the first byte (30_encoding.md R97: CV has 6 bits) -/
  | reservedCvBits
  /-- the field `st` is the reserved state code 0b01 (30_encoding.md R104 (a)) -/
  | reservedState
  /-- the second byte names no row of the operation map -/
  | noSuchRow
  /-- the CV does not match the pattern of the row that the second byte names (30_encoding.md R98) -/
  | cvMismatch
deriving DecidableEq, Repr

/-- The instruction the word `w` stands for (30_encoding.md R98; log 10). -/
def decodeWord (w : OpWord) : Except DecodeError Instr :=
  if !w.cvInRange then .error .reservedCvBits
  else if !w.stateKnown then .error .reservedState
  else if w.row = 0 then .ok (mostSpecific w.cv)
  else match rowInstr w.row.toNat with
    | none => .error .noSuchRow
    | some i => if i.selectedBy w.cv then .ok i else .error .cvMismatch

/-- Decode the first instruction word of a list of bytes, total on any bytes: the instruction and the bytes after it, or the
reason there is none. -/
def decode : List Byte → Except DecodeError (Instr × List Byte)
  | b0 :: b1 :: rest =>
    match decodeWord ⟨b0, b1⟩ with
    | .ok i => .ok (i, rest)
    | .error e => .error e
  | _ => .error .truncated

/-- The bytes of a word, first byte first. -/
def OpWord.bytes (w : OpWord) : List Byte := [w.cv, w.row]

/-- The canonical word of an instruction: the `match` of its row and its row number. -/
def Instr.word (i : Instr) : OpWord := ⟨i.cvMatch, BitVec.ofNat 8 i.rowNumber⟩

/-- The bytes of an instruction's canonical word. -/
def encode (i : Instr) : List Byte := i.word.bytes

/-- The operations that a control vector selects, in table order, before their data conditions (30_encoding.md R98). -/
def selected (cv : Byte) : List Instr := mapRows.filter (fun i => i.selectedBy cv)

/-- The instruction the decoder reads from an instruction whose bits are `w`, numbered as spec/opcode_table.json numbers
them; every bit from `nbits` up is 0. -/
def decodeTableWord (nbits w : Nat) : Option Instr :=
  let v := w % 2 ^ nbits
  match decode [BitVec.ofNat 8 v, BitVec.ofNat 8 (v / 256)] with
  | .ok (i, _) => some i
  | .error _ => none

end Sys2Proof
end

