-- ==== Sys2Proof/Machine/State.lean ====
section
/-! DEFINITION. The state of one VDLM2-CORE instance (10_state.md R20) as plain data, what passes its boundary
(30_encoding.md R90), and the machine right after reset (70_reset_and_hazards.md R260). -/

namespace Sys2Proof.Machine

/-! ### Memories -/

/-- A read-write memory: (index, element) pairs with strictly rising indices, none of them equal to the element that an
unlisted index reads as (20_memory.md R60, R67: the unit of addressing is one element). -/
abbrev Memory (α : Type) := List (Nat × α)

/-! ### The mode register -/

/-- The three named values of `state` (10_state.md R31). The reserved code 0b01 cannot be expressed (30_encoding.md R104 (a)). -/
inductive Mode where
  | idle
  | header
  | data
deriving DecidableEq, Repr, Inhabited

/-- The code of a mode (30_encoding.md R96): bit 1 is "locked", bit 0 is "data phase". -/
def Mode.code : Mode → BitVec 2
  | .idle => 0b00
  | .header => 0b10
  | .data => 0b11

/-! ### Outputs (30_encoding.md R90, R92 to R95) -/

/-- The EVENT output (30_encoding.md R95). Code 0 is the absence of an event; code 7 is reserved and cannot be expressed. -/
inductive Event where
  /-- code 1: `of`, `clk`, `off`, `df` -/
  | acq (fractionalOffset : Scalar) (clk : BitVec 4) (off : Nat) (df : Scalar)
  /-- code 2: `len`, `nbrow`, `nbbyte` -/
  | hdrOk (len : BitVec 17) (nbrow : BitVec 7) (nbbyte : BitVec 8)
  /-- code 3 -/
  | blockDone
  /-- code 4: `vp` (60_exceptions.md R231) -/
  | failConf (vp : Scalar)
  /-- code 5: `len` (60_exceptions.md R232) -/
  | failShort (len : BitVec 17)
  /-- code 6: `len` and the computed row count (60_exceptions.md R233) -/
  | failLong (len : BitVec 17) (rows : BitVec 7)
deriving DecidableEq, Repr

/-- The 3-bit event code (30_encoding.md R95). -/
def Event.code : Event → BitVec 3
  | .acq .. => 1
  | .hdrOk .. => 2
  | .blockDone => 3
  | .failConf .. => 4
  | .failShort .. => 5
  | .failLong .. => 6

/-- An output transaction (30_encoding.md R90). -/
inductive Output where
  /-- FEC_RESET (R92) -/
  | fecReset
  /-- FEC_PUSH: soft bit and index (R92) -/
  | fecPush (v : Scalar) (index : BitVec 5)
  /-- FEC_FIN with its response (R93) -/
  | fecFin (vp : Scalar) (decodedBits : BitVec 32)
  /-- BLOCK: `nbrow`, `nbbyte`, the contents of BLKD and BLKP at that instant, `tstamp` (R94; D24) -/
  | block (nbrow : BitVec 7) (nbbyte : BitVec 8) (data : Memory Byte) (conf : Memory Scalar) (tstamp : Time)
  /-- EVENT (R95) -/
  | event (e : Event)
deriving DecidableEq, Repr

/-! ### Inputs (30_encoding.md R90, R106) -/

/-- A number as it arrives from outside: finite, or not (60_exceptions.md R249; 30_encoding.md R104 (d), (e)). -/
inductive PortNum where
  | finite (v : Scalar)
  | nonFinite
deriving DecidableEq, Repr, Inhabited

/-- A line of stimulus (30_encoding.md R90, R106, R107): what the outside world can do to the machine between two steps. -/
inductive Stimulus where
  /-- the RESET transaction -/
  | reset
  /-- the SAMPLE transaction (R91) -/
  | sample (re im : PortNum) (now : Time)
  /-- `FEC -> vp bits`: fixes what the next FEC_FIN returns (R106) -/
  | fec (vp : PortNum) (bits : BitVec 32)
  /-- `PUTBIT v`: injects one raw soft bit, a model-level entry (R107) -/
  | putbit (v : Scalar)
  /-- one operation, injected by its instruction word: a model-level entry (log 10, 11) -/
  | op (w : OpWord)
deriving DecidableEq, Repr

/-! ### The temporaries of a step -/

/-- What one operation of a step hands to the next: the local names of the rules' pseudocode, not architectural state
(10_state.md R50; DESIGN CHOICE log 9). -/
structure Wires where
  /-- `x` of SAMPLE -/
  x : Cplx := Cplx.zero
  /-- `now` of SAMPLE -/
  now : Time := 0
  /-- result of DTICK -/
  tick : BitVec 1 := 0
  /-- `S`, result of MFILT -/
  filtered : Cplx := Cplx.zero
  /-- `P`, result of PHASE -/
  phase : Scalar := .zero
  /-- `w`, the slot PHASE wrote -/
  slot : Nat := 0
  /-- `h`, result of SY.SAMPLE -/
  h : List Scalar := []
  /-- `c`, result of SY.RESID -/
  c : List Scalar := []
  /-- `r`, result of SY.UNWRAP -/
  r : List Scalar := []
  /-- `z`, result of SY.DC -/
  z : List Scalar := []
  /-- result of SY.PEAK -/
  peak : Bool := false
  /-- `of`, result of SY.INTERP -/
  fracOff : Scalar := .zero
  /-- `D0`, result of DM.DIFF -/
  d0 : Scalar := .zero
  /-- `D`, result of DM.CORR -/
  d : Scalar := .zero
  /-- `idx`, result of DM.QUANT -/
  idx : BitVec 8 := 0
  /-- `s0`, result of DM.GRAY -/
  s0 : Scalar := .zero
  /-- `s1`, result of DM.GRAY -/
  s1 : Scalar := .zero
  /-- `s2`, result of DM.GRAY -/
  s2 : Scalar := .zero
  /-- `SV`, the raw soft bit given to PUTBIT and DESCR -/
  sv : Scalar := .zero
  /-- `V`, result of DESCR -/
  v : Scalar := .zero
  /-- `vp` of the FEC_FIN response -/
  vp : Scalar := .zero
  /-- `decoded_bits` of the FEC_FIN response -/
  decodedBits : BitVec 32 := 0
  /-- `len`, result of HD.LEN -/
  len : BitVec 17 := 0
  /-- `nr`, result of HD.GEOM -/
  nr : BitVec 7 := 0
  /-- `nb`, result of HD.GEOM -/
  nb : BitVec 8 := 0
  /-- result of the check that ran last (HD.CONF, HD.SHORT, HD.LONG) -/
  ok : Bool := false
  /-- result of BDONE -/
  done : Bool := false
deriving DecidableEq, Repr

/-- The temporaries between steps: none of them carries anything. -/
def Wires.none : Wires := { }

/-! ### The state -/

/-- The state: the eight numeric registers, the fourteen control registers and the four read-write memories of 10_state.md
R20, and, as the model's own fields, the configuration, the outside agents and the boundary. -/
structure State where
  /-- R21 -/
  err : Scalar
  /-- R22 -/
  perr : Scalar
  /-- R23 -/
  p2err : Scalar
  /-- R24 -/
  fr : Scalar
  /-- R25 -/
  pfr : Scalar
  /-- R26 -/
  df : Scalar
  /-- R27 -/
  prevph : Scalar
  /-- R28 -/
  pr : Scalar
  /-- R31 -/
  state : Mode
  /-- R32 -/
  dec : BitVec 1
  /-- R33 -/
  ink : Nat
  /-- R34 -/
  phidx : Nat
  /-- R35 -/
  clk : BitVec 4
  /-- R36 -/
  off : Nat
  /-- R37 -/
  scr : BitVec 16
  /-- R38 -/
  nbits : BitVec 5
  /-- R39 -/
  bits : BitVec 8
  /-- R40 -/
  row : BitVec 7
  /-- R41 -/
  col : BitVec 8
  /-- R42 -/
  nbrow : BitVec 7
  /-- R43 -/
  nbbyte : BitVec 8
  /-- R44 -/
  tstamp : Time
  /-- INBUF, R45 -/
  inbuf : Memory Cplx
  /-- PH, R45 -/
  ph : Memory Scalar
  /-- BLKD, R46, at index row * 255 + col -/
  blkd : List Host.Cell
  /-- BLKP, R46, at index row * 255 + col -/
  blkp : Memory Scalar
  /-- MODEL: the configuration record (00_scope.md R8, R9), which nothing writes (log 6) -/
  cfg : Config
  /-- MODEL: the FEC decoder's decode window (R51; log 8) -/
  fecWin : List (Scalar × BitVec 5)
  /-- MODEL: the answer fixed for the next FEC_FIN (30_encoding.md R106; log 8) -/
  fecNext : Option (Scalar × BitVec 32)
  /-- MODEL: the stimulus that waits (log 11) -/
  inq : List Stimulus
  /-- MODEL: the outputs of the last step, in order (log 12) -/
  out : List Output
  /-- MODEL: the temporaries of a step (log 9) -/
  wires : Wires
deriving DecidableEq, Repr

/-- What stops the machine with a fault: an access to a place that no memory has. No run from reset makes one (20_memory.md
R64, R65; 44_block.md R216), and both are safe. -/
inductive Fault where
  /-- BSTORE at a cell outside the 65 x 255 matrices (20_memory.md R64). Raised by BSTORE and what runs it. Safe. -/
  | blockCellOutside (row : BitVec 7) (col : BitVec 8)
  /-- MFILT with `off` outside 0..NOFF-1, a row that MFLT does not have (20_memory.md R65). Raised by MFILT and what runs it.
  Safe. -/
  | filterVariantOutside (off : Nat)
deriving DecidableEq, Repr

/-- What the machine refuses. -/
inductive Refusal where
  /-- The instruction has no meaning yet. Raised by exec's arms only. Safe. -/
  | notModelled (mnemonic : String)
  /-- A SAMPLE with a non-finite part, to which the spec gives no meaning (60_exceptions.md R249, U1; log 15). Raised where it is
  accepted. Safe. -/
  | nonFiniteSample
  /-- An FEC answer whose path metric is not finite (30_encoding.md R104 (e), U3; log 15). Raised where a line fixes the
  answer. Safe. -/
  | nonFiniteMetric
  /-- An injected word that stands for no instruction (log 10). Raised where the word is fetched. Safe. -/
  | badWord (e : DecodeError)
deriving DecidableEq, Repr

/-- The machine right after reset (70_reset_and_hazards.md R260; the register rules of 10_state.md). `tstamp` has no reset value
in the spec: DESIGN CHOICE (log 13), unsafe. The configuration is whatever has been installed (log 6). -/
def State.reset : State where
  err := .zero
  perr := sentinel
  p2err := sentinel
  fr := .zero
  pfr := .zero
  df := .zero
  prevph := .zero
  pr := .one
  state := .idle
  dec := 0
  ink := 0
  phidx := 0
  clk := 0
  off := 0
  scr := 0
  nbits := 0
  bits := 0
  row := 0
  col := 0
  nbrow := 0
  nbbyte := 0
  tstamp := 0
  inbuf := []
  ph := []
  blkd := []
  blkp := []
  cfg := Config.installed
  fecWin := []
  fecNext := none
  inq := []
  out := []
  wires := Wires.none

end Sys2Proof.Machine
end

