-- ==== Sys2Proof/Machine/Ops.lean ====
section
/-! DEFINITION. The named operations that the meanings share: reading and writing a memory, running one operation after another,
emitting an output, the calls of the FEC decoder, raising a failure and returning to IDLE. -/

namespace Sys2Proof.Machine

/-! ### Memories (20_memory.md R60, R61) -/

/-- Element `a` of a memory whose unlisted elements are `d`. -/
def Memory.read {α : Type} (d : α) : Memory α → Nat → α
  | [], _ => d
  | (b, v) :: m, a => if a = b then v else Memory.read d m a

/-- The memory with element `a` set to `v`, in the canonical form: writing `d` leaves no entry. -/
def Memory.write {α : Type} [DecidableEq α] (d : α) : Memory α → Nat → α → Memory α
  | [], a, v => if v = d then [] else [(a, v)]
  | (b, u) :: m, a, v =>
    if a < b then (if v = d then (b, u) :: m else (a, v) :: (b, u) :: m)
    else if a = b then (if v = d then m else (a, v) :: m)
    else (b, u) :: Memory.write d m a v

/-- Every index of the memory is at least `lo`, the indices rise strictly, and no entry is `d`. -/
def Memory.wfFrom {α : Type} [DecidableEq α] (d : α) : Nat → Memory α → Bool
  | _, [] => true
  | lo, (b, v) :: m => decide (lo ≤ b) && decide (v ≠ d) && Memory.wfFrom d (b + 1) m

/-- The canonical form. -/
def Memory.wf {α : Type} [DecidableEq α] (d : α) (m : Memory α) : Bool := Memory.wfFrom d 0 m

/-- An index expression of a ring buffer, reduced modulo the capacity (20_memory.md R61). -/
def ringIndex (capacity i : Nat) : Nat := i % capacity

/-- Element `i` of INBUF (20_memory.md R61, R62). -/
def inbufAt (s : State) (i : Nat) : Cplx := Memory.read Cplx.zero s.inbuf (ringIndex s.cfg.ntap i)

/-- Element `i` of PH (20_memory.md R61, R63). -/
def phAt (s : State) (i : Nat) : Scalar := Memory.read .zero s.ph (ringIndex s.cfg.phlen i)

/-- The index of cell (row, col) in the lists that hold BLKD and BLKP (20_memory.md R64). -/
def cellIndex (row col : Nat) : Nat := row * nCol + col

/-- `BLKD[row][col]`. -/
def blkdAt (s : State) (row col : Nat) : Byte := Memory.read 0 s.blkd (cellIndex row col)

/-- `BLKP[row][col]`. -/
def blkpAt (s : State) (row col : Nat) : Scalar := Memory.read .zero s.blkp (cellIndex row col)

/-! ### Running operations in order (00_scope.md R14: a write takes effect at once) -/

/-- What a meaning answers. -/
abbrev Res := Host.Outcome State Fault Refusal

/-- Run `f` on the next state, if there is one. -/
def Res.andThen (r : Res) (f : State → Res) : Res :=
  match r with
  | .next s => f s
  | .fault e => .fault e
  | .refused e => .refused e

/-! ### Outputs (00_scope.md R14, `emit`) -/

/-- Emit an output transaction. -/
def emit (o : Output) (s : State) : State := { s with out := s.out ++ [o] }

/-! ### The FEC decoder (60_exceptions.md R246) -/

/-- FEC_RESET: the decoder starts a new window. -/
def fecReset (s : State) : State := emit .fecReset { s with fecWin := [] }

/-- FEC_PUSH: the pair goes into the window. -/
def fecPush (v : Scalar) (index : BitVec 5) (s : State) : State :=
  emit (.fecPush v index) { s with fecWin := s.fecWin ++ [(v, index)] }

/-- The answer the decoder gives now: the one a stimulus line has fixed, or FECDEC of the window (log 8). -/
def fecAnswer (s : State) : Scalar × BitVec 32 :=
  match s.fecNext with
  | some a => a
  | none => Config.fecDec s.fecWin

/-- FEC_FIN: the request and its response, which is used up. -/
def fecFinalize (s : State) : State :=
  emit (.fecFin (fecAnswer s).1 (fecAnswer s).2)
    { s with
      fecNext := none
      wires := { s.wires with vp := (fecAnswer s).1, decodedBits := (fecAnswer s).2 } }

/-! ### Failures (60_exceptions.md): the analogue of taking an exception -/

/-- TOIDLE: the one way back to IDLE (60_exceptions.md R238). Nothing else changes, and nothing is saved (R239). -/
def toIdle (s : State) : State := { s with state := .idle, off := 0 }

/-- `raise F(info)`: emit the EVENT, then TOIDLE (60_exceptions.md R236). There is no return: IDLE is the normal state (R240). -/
def raiseFailure (e : Event) (s : State) : State := toIdle (emit (.event e) s)

end Sys2Proof.Machine
end

