-- ==== Sys2Proof/Machine/Operands.lean ====
section
/-! DEFINITION. Operand assembly (30_encoding.md R99 to R103) and the element addresses of 20_memory.md. -/

namespace Sys2Proof.Machine

/-- `rev17(w)`: bit i of the result is bit 16 - i of w (00_scope.md R13). -/
def rev17 (w : BitVec 17) : BitVec 17 := w.reverse

/-- The length field: `rev17(decoded_bits[21:5])` (30_encoding.md R99). -/
def lengthField (decodedBits : BitVec 32) : BitVec 17 := rev17 ((decodedBits >>> 5).setWidth 17)

/-- The row count of a block of `len` bits (43_header.md R195). -/
def geomRows (len : BitVec 17) : BitVec 7 := BitVec.ofNat 7 (len.toNat / rowBits + 1)

/-- The byte count of the last row of a block of `len` bits (43_header.md R195). -/
def geomBytes (len : BitVec 17) : BitVec 8 := BitVec.ofNat 8 ((len.toNat % rowBits + 7) / 8)

/-- The gray-table index: `clamp(round(128 D / pi + 128), 0, 255)` (30_encoding.md R100). -/
def grayIndex (n : Numerics) (d : Scalar) : BitVec 8 :=
  BitVec.ofInt 8 (clampInt (n.round (n.add (n.div (n.mul qScale d) .pi) qScale)) 0 255)

/-- The element of INBUF that tap `i` meets: `(ink + i) mod NTAP` (20_memory.md R62). -/
def eaInbuf (s : State) (i : Nat) : Nat := ringIndex s.cfg.ntap (s.ink + i)

/-- The element of PH that is sample `k` of the sync window: `(w + OVS + k OVS) mod PHLEN` (20_memory.md R63). -/
def eaPh (c : Config) (slot k : Nat) : Nat := ringIndex c.phlen (slot + ovs + k * ovs)

/-- The abscissa of the line fit: `x[k] = k - (L - 1)/2`, an exact number in every numerics record (41_sync.md R145, D11). -/
def abscissa (c : Config) (k : Nat) : Scalar := .rat (abscissaOf c.l k)

/-- `round(of / 2)`, the integer part of the default split (41_sync.md R150). -/
def splitRound (c : Config) (fracOff : Scalar) : Int := c.num.round (c.num.div fracOff (.rat 2))

/-- CLKINIT(of), below OVS (00_scope.md R8, 41_sync.md R150). Where the default formula would leave 0..7, which it does only
outside the range of `of` at an acquisition (R152), the value is free (log 7). -/
def clkInit (c : Config) (fracOff : Scalar) : BitVec 4 :=
  match c.data.split with
  | .default =>
    if 0 ≤ splitRound c fracOff ∧ splitRound c fracOff < ovs then BitVec.ofInt 4 (splitRound c fracOff)
    else BitVec.ofNat 4 (Config.clkInit 0 fracOff)
  | .custom k => BitVec.ofNat 4 (Config.clkInit k fracOff)

/-- OFFSEL(of), in 0..NOFF-1 (00_scope.md R8, 41_sync.md R150). -/
def offSel (c : Config) (fracOff : Scalar) : Nat :=
  match c.data.split with
  | .default =>
    let fraction := c.num.sub (c.num.div fracOff (.rat 2)) (.rat (splitRound c fracOff))
    let scaled := c.num.round (c.num.mul fraction (.rat (c.noff - 1 : Nat)))
    (clampInt (scaled + ((c.noff - 1) / 2 : Nat)) 0 (c.noff - 1 : Nat)).toNat
  | .custom k => Config.offSel k fracOff % c.noff

/-- The feedback bit of the descrambler: `scr[0] xor scr[14]` (30_encoding.md R103). -/
def feedback (scr : BitVec 16) : Bool := scr.getLsbD 0 ^^ scr.getLsbD 14

/-- The next descrambler word: `(scr[14:0], fb)` (30_encoding.md R103). -/
def scrNext (scr : BitVec 16) : BitVec 16 := scr.extractLsb' 0 15 ++ BitVec.ofBool (feedback scr)

/-- The byte with bit `p` set: position p is the bit of weight 2^p (30_encoding.md R102, 44_block.md R210). -/
def setBit (bits : BitVec 8) (p : BitVec 5) : BitVec 8 := bits ||| (1#8 <<< p.toNat)

end Sys2Proof.Machine
end

