-- ==== Sys2Proof/Machine/Flags.lean ====
section
/-! DEFINITION. The hardware has no flag register (10_state.md R29): every comparison is consumed by the operation that makes it.
These are the comparisons, and the control vector that is computed from the state and not stored (30_encoding.md R97). -/

namespace Sys2Proof.Machine

/-- SY.PEAK: `perr < 4.0 and err > perr`, both strict (41_sync.md R147). -/
def peakTest (n : Numerics) (perr err : Scalar) : Bool := n.lt perr lockThr && n.gt err perr

/-- HD.CONF: `vp < 0.04`, strict (43_header.md R192). -/
def confTooLow (n : Numerics) (vp : Scalar) : Bool := n.lt vp hdrConf

/-- HD.SHORT: `len < 104` (43_header.md R194). -/
def lenTooShort (len : BitVec 17) : Bool := decide (len.toNat < minLen)

/-- HD.LONG: `nr > 65` (43_header.md R196). -/
def rowsTooMany (nr : BitVec 7) : Bool := decide (maxRow < nr.toNat)

/-- DATABIT: `V > 0.5`, strict (44_block.md R210). -/
def hardOne (n : Numerics) (v : Scalar) : Bool := n.gt v (.rat (1 / 2))

/-- The row test of BADV: the column is finished (44_block.md R212). `row` is the row after the increment, `col` the column
before the advance. `row = nbrow - 1` is compared as `row + 1 = nbrow` (log 17). -/
def columnFinished (nbrow : BitVec 7) (nbbyte : BitVec 8) (row : BitVec 7) (col : BitVec 8) : Bool :=
  decide (row = nbrow)
    || (decide (nbbyte ≤ col) && decide (col.toNat < cPad) && decide (row.toNat + 1 = nbrow.toNat))

/-- BDONE: the completion test, on the indices BADV left (44_block.md R213). -/
def blockComplete (nbrow : BitVec 7) (nbbyte : BitVec 8) (row : BitVec 7) (col : BitVec 8) : Bool :=
  decide (col.toNat = nCol)
    || (decide (row.toNat + 1 = nbrow.toNat)
      && ((decide (nbbyte.toNat < 30) && decide (col.toNat = 251))
        || (decide (nbbyte.toNat < 68) && decide (col.toNat = 253))))

/-! ### The control vector (30_encoding.md R97) -/

/-- CV from its five fields, in bits 5 to 0 of a byte. -/
def controlVector (rst lastbit stick ftick : Bool) (st : Mode) : Byte :=
  0#2 ++ BitVec.ofBool rst ++ BitVec.ofBool lastbit ++ BitVec.ofBool stick ++ BitVec.ofBool ftick ++ st.code

/-- `ftick` of a SAMPLE: 1 if `dec` = 1 on entry to the step. -/
def filterTick (s : State) : Bool := decide (s.dec = 1)

/-- `stick` of a SAMPLE: a filter tick, not idle, and `clk + 1 = OVS`. -/
def symbolTick (s : State) : Bool := filterTick s && s.state.code.getLsbD 1 && decide (s.clk.toNat + 1 = ovs)

/-- `lastbit`, evaluated just before a bit is counted: the 25th header bit or the 8th bit of a data byte. -/
def lastBit (s : State) : Bool :=
  match s.state with
  | .idle => false
  | .header => decide (s.nbits = 24)
  | .data => decide (s.nbits = 7)

/-- The control vector of the step-level operations of a SAMPLE. -/
def stepCv (s : State) : Byte := controlVector false false (symbolTick s) (filterTick s) s.state

/-- The control vector of the bit-level operations, at the moment a bit is handled. -/
def bitCv (s : State) : Byte := controlVector false (lastBit s) true true s.state

/-- The control vector of a RESET: `rst`, and `st` is `state` as the transaction finds it. R97 gives the moment of `st` for the
step-level and the bit-level operations only: that of a RESET is the model's (DESIGN CHOICE, log 21, safe). -/
def resetCv (s : State) : Byte := controlVector true false false false s.state

end Sys2Proof.Machine
end

