-- ==== Sys2Proof/Machine/Control.lean ====
section
/-! DEFINITION. RESET (70_reset_and_hazards.md R260) and TOIDLE (60_exceptions.md R238). -/

namespace Sys2Proof.Machine

/-- RESET (R260): every register but `tstamp` and every read-write memory. It emits nothing, and it does not touch the tables and
parameters (R261) nor what stands outside the core (log 18). -/
def execReset (s : State) : Res :=
  .next { s with
    state := .idle
    perr := sentinel
    p2err := sentinel
    err := .zero
    fr := .zero
    pfr := .zero
    df := .zero
    prevph := .zero
    pr := .one
    dec := 0
    ink := 0
    phidx := 0
    clk := 0
    off := 0
    scr := 0
    nbits := 0
    bits := 0
    row := 0
    col := 0
    nbrow := 0
    nbbyte := 0
    inbuf := []
    ph := []
    blkd := []
    blkp := [] }

/-- TOIDLE (R238): the one operation by which the core re-enters IDLE. -/
def execToidle (s : State) : Res := .next (toIdle s)

end Sys2Proof.Machine
end

