-- ==== Sys2Proof/Machine/Block.lean ====
section
/-! DEFINITION. 44_block.md: the byte assembly, the addressing of the block buffer, its completion and its dispatch. -/

namespace Sys2Proof.Machine

/-- BSTORE (R211): store the byte and its confidence, clear the accumulators. A cell outside the matrices is a fault (20_memory.md
R64; log 16). -/
def execBstore (s : State) : Res :=
  if s.row.toNat < maxRow ∧ s.col.toNat < nCol then
    .next { s with
      blkd := Memory.write 0 s.blkd (cellIndex s.row.toNat s.col.toNat) s.bits
      blkp := Memory.write .zero s.blkp (cellIndex s.row.toNat s.col.toNat) s.pr
      nbits := 0
      bits := 0
      pr := .one }
  else .fault (.blockCellOutside s.row s.col)

/-- The column after `col`: the next one, or 249 when a one-row block reaches `nbbyte` (R212). -/
def nextCol (nbrow : BitVec 7) (nbbyte col : BitVec 8) : BitVec 8 :=
  if nbrow = 1 ∧ col + 1 = nbbyte then 249 else col + 1

/-- The row and column that follow (row, col) in a block of geometry (nbrow, nbbyte) (R212). -/
def advance (nbrow : BitVec 7) (nbbyte : BitVec 8) (row : BitVec 7) (col : BitVec 8) : BitVec 7 × BitVec 8 :=
  if columnFinished nbrow nbbyte (row + 1) col then (0, nextCol nbrow nbbyte col) else (row + 1, col)

/-- BADV (R212): advance the row and column indices. -/
def execBadv (s : State) : Res :=
  .next { s with
    row := (advance s.nbrow s.nbbyte s.row s.col).1
    col := (advance s.nbrow s.nbbyte s.row s.col).2 }

/-- BDONE (R213): completion test. -/
def execBdone (s : State) : Res :=
  .next { s with wires := { s.wires with done := blockComplete s.nbrow s.nbbyte s.row s.col } }

/-- DISPATCH (R214): hand the block to the frame decoder, return to IDLE. -/
def execDispatch (s : State) : Res :=
  .next (toIdle (emit (.event .blockDone) (emit (.block s.nbrow s.nbbyte s.blkd s.blkp s.tstamp) s)))

/-- The bit and its confidence taken into the byte, and the bit counted (R210). -/
def takeBit (s : State) : State :=
  if hardOne s.cfg.num s.wires.v then
    { s with bits := setBit s.bits s.nbits, pr := s.cfg.num.mul s.pr s.wires.v, nbits := s.nbits + 1 }
  else { s with pr := s.cfg.num.mul s.pr (s.cfg.num.sub .one s.wires.v), nbits := s.nbits + 1 }

/-- DATABIT (R210): take one soft bit into the byte being assembled, and finish the byte on the eighth. -/
def execDatabit (s : State) : Res :=
  let t := takeBit s
  if t.nbits.toNat = 8 then
    (((execBstore t).andThen execBadv).andThen execBdone).andThen fun t =>
      if t.wires.done then execDispatch t else .next t
  else .next t

end Sys2Proof.Machine
end

