-- ==== Sys2Proof/Machine/Header.lean ====
section
/-! DEFINITION. 43_header.md: the bit feed of the FEC decoder, the validation of its answer, the block geometry. -/

namespace Sys2Proof.Machine

/-- Leave the result of a check for HDRFIN. -/
def setOk (b : Bool) (s : State) : State := { s with wires := { s.wires with ok := b } }

/-- A check of the header: raise the failure and answer fail, or answer ok (R192, R194, R196). -/
def check (fails : Bool) (e : Event) (s : State) : State :=
  if fails then setOk false (raiseFailure e s) else setOk true s

/-- HD.CONF (R192): `vp < 0.04` raises FAIL_CONF. -/
def execHdConf (s : State) : Res :=
  .next (check (confTooLow s.cfg.num s.wires.vp) (.failConf s.wires.vp) s)

/-- HD.LEN (R193): extract the block length. -/
def execHdLen (s : State) : Res :=
  .next { s with wires := { s.wires with len := lengthField s.wires.decodedBits } }

/-- HD.SHORT (R194): `len < 104` raises FAIL_SHORT. -/
def execHdShort (s : State) : Res :=
  .next (check (lenTooShort s.wires.len) (.failShort s.wires.len) s)

/-- HD.GEOM (R195): rows and last-row byte count. -/
def execHdGeom (s : State) : Res :=
  .next { s with wires := { s.wires with nr := geomRows s.wires.len, nb := geomBytes s.wires.len } }

/-- HD.LONG (R196): `nr > 65` raises FAIL_LONG. -/
def execHdLong (s : State) : Res :=
  .next (check (rowsTooMany s.wires.nr) (.failLong s.wires.len s.wires.nr) s)

/-- HD.ACCEPT (R197): enter DATA. -/
def execHdAccept (s : State) : Res :=
  .next (emit (.event (.hdrOk s.wires.len s.wires.nr s.wires.nb))
    { s with
      nbrow := s.wires.nr
      nbbyte := s.wires.nb
      state := .data
      row := 0
      col := 0
      nbits := 0
      bits := 0
      pr := .one })

/-- HDRFIN (R191): finalise the decoder and validate the header. The first check that fails ends it. -/
def execHdrfin (s : State) : Res :=
  (execHdConf (fecFinalize s)).andThen fun t =>
    if !t.wires.ok then .next t
    else ((execHdLen t).andThen execHdShort).andThen fun t =>
      if !t.wires.ok then .next t
      else ((execHdGeom t).andThen execHdLong).andThen fun t =>
        if !t.wires.ok then .next t else execHdAccept t

/-- HDRBIT (R190): push one soft bit with its index, count it, and finish the header on the 25th. -/
def execHdrbit (s : State) : Res :=
  let t := fecPush s.wires.v s.nbits s
  let t := { t with nbits := s.nbits + 1 }
  if t.nbits.toNat = hdrBits then execHdrfin t else .next t

end Sys2Proof.Machine
end

