-- ==== Sys2Proof/Machine/Demod.lean ====
section
/-! DEFINITION. 42_demod.md: the symbol clock, the differential phase detector, the gray demapper, the descrambler and the delivery
of bits to the state machine. -/

namespace Sys2Proof.Machine

/-- DM.DIFF (R172): `D0 <- wrap(P - prevph)`. -/
def execDmDiff (s : State) : Res :=
  .next { s with wires := { s.wires with d0 := s.cfg.num.wrap (s.cfg.num.sub s.wires.phase s.prevph) } }

/-- DM.CORR (R173): `D <- D0 - df`, not wrapped again. -/
def execDmCorr (s : State) : Res :=
  .next { s with wires := { s.wires with d := s.cfg.num.sub s.wires.d0 s.df } }

/-- DM.QUANT (R174). -/
def execDmQuant (s : State) : Res :=
  .next { s with wires := { s.wires with idx := grayIndex s.cfg.num s.wires.d } }

/-- DM.GRAY (R175): the three tables at one index. -/
def execDmGray (s : State) : Res :=
  .next { s with wires := { s.wires with
    s0 := s.cfg.gray 0 s.wires.idx.toNat
    s1 := s.cfg.gray 1 s.wires.idx.toNat
    s2 := s.cfg.gray 2 s.wires.idx.toNat } }

/-- DM.UPD (R176): the uncorrected phase is retained. -/
def execDmUpd (s : State) : Res := .next { s with prevph := s.wires.phase }

/-- DESCR (R177): the feedback bit is taken before the shift and inverts the soft bit. -/
def execDescr (s : State) : Res :=
  .next { s with
    scr := scrNext s.scr
    wires := { s.wires with v := if feedback s.scr then s.cfg.num.sub .one s.wires.sv else s.wires.sv } }

/-- BITDROP (R179): nothing. -/
def execBitdrop (s : State) : Res := .next s

/-- PUTBIT (R180): descramble the raw soft bit and hand it to the state machine. -/
def execPutbit (s : State) : Res :=
  (execDescr s).andThen fun t =>
    match t.state with
    | .idle => execBitdrop t
    | .header => execHdrbit t
    | .data => execDatabit t

/-- The state with `sv` as the raw soft bit for PUTBIT. -/
def withRawBit (sv : Scalar) (s : State) : State := { s with wires := { s.wires with sv := sv } }

/-- The three soft bits of a symbol, in table order (R171; 20_memory.md R66 (b)). -/
def putSymbol (s : State) : Res :=
  ((execPutbit (withRawBit s.wires.s0 s)).andThen fun t => execPutbit (withRawBit s.wires.s1 t)).andThen fun t =>
    execPutbit (withRawBit s.wires.s2 t)

/-- DEMOD (R171): one symbol to three soft bits. -/
def execDemod (s : State) : Res :=
  (((((execDmDiff s).andThen execDmCorr).andThen execDmQuant).andThen execDmGray).andThen putSymbol).andThen execDmUpd

/-- SCLK (R170): count filter ticks, demodulate when the count reaches OVS. -/
def execSclk (s : State) : Res :=
  if (s.clk + 1).toNat = ovs then execDemod { s with clk := 0 } else .next { s with clk := s.clk + 1 }

end Sys2Proof.Machine
end

