-- ==== Sys2Proof/Machine/SampleFilter.lean ====
section
/-! DEFINITION. 40_sample_filter.md: the sample buffer, the decimation, the matched filter bank, the phase tracker. (The composites
STEP and FDISP are in `Machine/Schedule.lean`.) -/

namespace Sys2Proof.Machine

/-- SPUSH (R121): store the input sample, then advance. -/
def execSpush (s : State) : Res :=
  .next { s with
    inbuf := Memory.write Cplx.zero s.inbuf (ringIndex s.cfg.ntap s.ink) s.wires.x
    ink := (s.ink + 1) % s.cfg.ntap }

/-- DTICK (R122): the tick is the old `dec`, which toggles. -/
def execDtick (s : State) : Res :=
  .next { s with dec := s.dec ^^^ 1, wires := { s.wires with tick := s.dec } }

/-- The terms of the filter sum, oldest sample first (R123, R62). -/
def filterTerms (s : State) : List Cplx :=
  (List.range s.cfg.ntap).map fun i =>
    s.cfg.num.cmul (Memory.read Cplx.zero s.inbuf (eaInbuf s i)) (s.cfg.tap s.off i)

/-- MFILT (R123): the inner product of the window with the taps of variant `off`. A variant that MFLT does not have is a fault
(20_memory.md R65; log 16). -/
def execMfilt (s : State) : Res :=
  if s.off < s.cfg.noff then
    .next { s with wires := { s.wires with filtered := s.cfg.num.csum (filterTerms s) } }
  else .fault (.filterVariantOutside s.off)

/-- PHASE (R124): the angle of the filtered sample, written at `phidx`, which then advances. -/
def execPhase (s : State) : Res :=
  let p := s.cfg.num.arg s.wires.filtered
  .next { s with
    ph := Memory.write .zero s.ph (ringIndex s.cfg.phlen s.phidx) p
    phidx := (s.phidx + 1) % s.cfg.phlen
    wires := { s.wires with phase := p, slot := ringIndex s.cfg.phlen s.phidx } }

end Sys2Proof.Machine
end

