-- ==== Sys2Proof/Machine/Sync.lean ====
section
/-! DEFINITION. 41_sync.md: the preamble correlator, the phase unwrapper, the line fit, the peak interpolation and what follows an
acquisition or its absence. The vectors h, c, r, z are temporaries of one step. -/

namespace Sys2Proof.Machine

/-- SY.SAMPLE (R141): `h[k] <- PH[(w + OVS + k OVS) mod PHLEN]`. -/
def execSySample (s : State) : Res :=
  .next { s with wires := { s.wires with
    h := (List.range s.cfg.l).map fun k => Memory.read .zero s.ph (eaPh s.cfg s.wires.slot k) } }

/-- SY.RESID (R142): `c[k] <- h[k] - SW[k]`. -/
def execSyResid (s : State) : Res :=
  .next { s with wires := { s.wires with c := List.zipWith s.cfg.num.sub s.wires.h s.cfg.data.sw } }

/-- The running correction after the raw difference `d` (R143): both comparisons are strict. -/
def unwrapStep (n : Numerics) (u d : Scalar) : Scalar :=
  if n.gt d .pi then n.sub u .twoPi
  else if n.lt d .negPi then n.add u .twoPi
  else u

/-- The unwrapped residuals after the raw residual `prev`, with the running correction `u` (R143). -/
def unwrapFrom (n : Numerics) (u prev : Scalar) : List Scalar → List Scalar
  | [] => []
  | c :: cs =>
    let u' := unwrapStep n u (n.sub c prev)
    n.add c u' :: unwrapFrom n u' c cs

/-- The unwrapped residuals: the first passes unchanged, the correction starts at 0 (R143, D37). -/
def unwrap (n : Numerics) : List Scalar → List Scalar
  | [] => []
  | c :: cs => c :: unwrapFrom n .zero c cs

/-- SY.UNWRAP (R143): remove 2 pi jumps between consecutive residuals. -/
def execSyUnwrap (s : State) : Res :=
  .next { s with wires := { s.wires with r := unwrap s.cfg.num s.wires.c } }

/-- The mean of the unwrapped residuals (R144). -/
def meanOf (c : Config) (r : List Scalar) : Scalar := c.num.div (c.num.sum r) (.rat c.l)

/-- SY.DC (R144): subtract the mean from every residual. -/
def execSyDc (s : State) : Res :=
  .next { s with wires := { s.wires with
    z := s.wires.r.map fun v => s.cfg.num.sub v (meanOf s.cfg s.wires.r) } }

/-- The slope of the line fit (R145): `(sum of z[k] x[k]) / FRNORM`. -/
def fitSlope (c : Config) (z : List Scalar) : Scalar :=
  c.num.div (c.num.sum (z.mapIdx fun k v => c.num.mul v (abscissa c k))) c.frnorm

/-- SY.FIT (R145). -/
def execSyFit (s : State) : Res := .next { s with fr := fitSlope s.cfg s.wires.z }

/-- The deviation of residual `k` from the line of slope `fr` (R146). -/
def deviation (c : Config) (fr : Scalar) (k : Nat) (v : Scalar) : Scalar := c.num.sub v (c.num.mul (abscissa c k) fr)

/-- The residual sum of squares (R146): `sum of (z[k] - x[k] fr)^2`. -/
def fitError (c : Config) (fr : Scalar) (z : List Scalar) : Scalar :=
  c.num.sum (z.mapIdx fun k v => c.num.mul (deviation c fr k v) (deviation c fr k v))

/-- SY.ERR (R146). -/
def execSyErr (s : State) : Res := .next { s with err := fitError s.cfg s.fr s.wires.z }

/-- SY.PEAK (R147). -/
def execSyPeak (s : State) : Res :=
  .next { s with wires := { s.wires with peak := peakTest s.cfg.num s.perr s.err } }

/-- The interpolated position of the minimum (R149): `(p2err - 4 perr + 3 err) / (p2err - 2 perr + err)`. -/
def interpolate (n : Numerics) (p2err perr err : Scalar) : Scalar :=
  n.div (n.add (n.sub p2err (n.mul (.rat 4) perr)) (n.mul (.rat 3) err))
    (n.add (n.sub p2err (n.mul (.rat 2) perr)) err)

/-- SY.INTERP (R149). -/
def execSyInterp (s : State) : Res :=
  .next { s with wires := { s.wires with fracOff := interpolate s.cfg.num s.p2err s.perr s.err } }

/-- SY.SPLIT (R150): the symbol-clock phase and the filter variant from `of`. -/
def execSySplit (s : State) : Res :=
  .next { s with clk := clkInit s.cfg s.wires.fracOff, off := offSel s.cfg s.wires.fracOff }

/-- The writes of SY.ACQ before its call of SY.INTERP (R148). -/
def acquireFirst (s : State) : State :=
  { fecReset { s with
      tstamp := s.wires.now
      state := .header
      nbits := 0
      col := 0
      scr := s.cfg.seed } with
    df := s.pfr }

/-- The writes of SY.ACQ after SY.SPLIT: the sentinels and the EVENT (R148). -/
def acquireLast (s : State) : State :=
  emit (.event (.acq s.wires.fracOff s.clk s.off s.df)) { s with perr := sentinel, p2err := sentinel }

/-- SY.ACQ (R148): declare acquisition. It runs SY.INTERP and SY.SPLIT. -/
def execSyAcq (s : State) : Res :=
  ((execSyInterp (acquireFirst s)).andThen execSySplit).andThen fun t => .next (acquireLast t)

/-- SY.SHIFT (R151): no acquisition, age the trackers. -/
def execSyShift (s : State) : Res :=
  .next { s with p2err := s.perr, perr := s.err, pfr := s.fr, prevph := s.wires.phase }

/-- SYNC (R140): one run of sync acquisition. -/
def execSync (s : State) : Res :=
  ((((((execSySample s).andThen execSyResid).andThen execSyUnwrap).andThen execSyDc).andThen execSyFit).andThen
    execSyErr).andThen fun t => (execSyPeak t).andThen fun t =>
      if t.wires.peak then execSyAcq t else execSyShift t

end Sys2Proof.Machine
end

