-- ==== Sys2Proof/Machine/Schedule.lean ====
section
/-! DEFINITION. The composites of 40_sample_filter.md: the per-sample step and the dispatch of a filtered sample. -/

namespace Sys2Proof.Machine

/-- FDISP (R125): sync acquisition while idle, the symbol clock otherwise. The test is made once. -/
def execFdisp (s : State) : Res :=
  match s.state with
  | .idle => execSync s
  | .header => execSclk s
  | .data => execSclk s

/-- STEP (R120): the effect of one SAMPLE transaction, whose sample and time stand on the wires. -/
def execStep (s : State) : Res :=
  ((execSpush s).andThen execDtick).andThen fun t =>
    if t.wires.tick = 0 then .next t
    else ((execMfilt t).andThen execPhase).andThen execFdisp

end Sys2Proof.Machine
end

