-- ==== Sys2Proof/Machine/Dispatch.lean ====
section
/-! DEFINITION. The meaning of every instruction: one arm per constructor of Instr, one direct call each. -/

namespace Sys2Proof.Machine

def exec (i : Instr) (s : State) : Host.Outcome State Fault Refusal :=
  match i with
  | .reset => Sys2Proof.Machine.execReset s
  | .spush => Sys2Proof.Machine.execSpush s
  | .dtick => Sys2Proof.Machine.execDtick s
  | .mfilt => Sys2Proof.Machine.execMfilt s
  | .phase => Sys2Proof.Machine.execPhase s
  | .sySample => Sys2Proof.Machine.execSySample s
  | .syResid => Sys2Proof.Machine.execSyResid s
  | .syUnwrap => Sys2Proof.Machine.execSyUnwrap s
  | .syDc => Sys2Proof.Machine.execSyDc s
  | .syFit => Sys2Proof.Machine.execSyFit s
  | .syErr => Sys2Proof.Machine.execSyErr s
  | .syPeak => Sys2Proof.Machine.execSyPeak s
  | .syAcq => Sys2Proof.Machine.execSyAcq s
  | .syInterp => Sys2Proof.Machine.execSyInterp s
  | .sySplit => Sys2Proof.Machine.execSySplit s
  | .syShift => Sys2Proof.Machine.execSyShift s
  | .sclk => Sys2Proof.Machine.execSclk s
  | .dmDiff => Sys2Proof.Machine.execDmDiff s
  | .dmCorr => Sys2Proof.Machine.execDmCorr s
  | .dmQuant => Sys2Proof.Machine.execDmQuant s
  | .dmGray => Sys2Proof.Machine.execDmGray s
  | .descr => Sys2Proof.Machine.execDescr s
  | .bitdrop => Sys2Proof.Machine.execBitdrop s
  | .hdrbit => Sys2Proof.Machine.execHdrbit s
  | .hdrfin => Sys2Proof.Machine.execHdrfin s
  | .hdConf => Sys2Proof.Machine.execHdConf s
  | .hdLen => Sys2Proof.Machine.execHdLen s
  | .hdShort => Sys2Proof.Machine.execHdShort s
  | .hdGeom => Sys2Proof.Machine.execHdGeom s
  | .hdLong => Sys2Proof.Machine.execHdLong s
  | .hdAccept => Sys2Proof.Machine.execHdAccept s
  | .databit => Sys2Proof.Machine.execDatabit s
  | .bstore => Sys2Proof.Machine.execBstore s
  | .badv => Sys2Proof.Machine.execBadv s
  | .bdone => Sys2Proof.Machine.execBdone s
  | .dispatch => Sys2Proof.Machine.execDispatch s
  | .dmUpd => Sys2Proof.Machine.execDmUpd s
  | .toidle => Sys2Proof.Machine.execToidle s
  | .step => Sys2Proof.Machine.execStep s
  | .fdisp => Sys2Proof.Machine.execFdisp s
  | .sync => Sys2Proof.Machine.execSync s
  | .demod => Sys2Proof.Machine.execDemod s
  | .putbit => Sys2Proof.Machine.execPutbit s

end Sys2Proof.Machine
end

