-- ==== Sys2Proof/Machine/Fetch.lean ====
section
/-! DEFINITION. How a line of stimulus becomes an instruction: the bytes of its word, the operands put on the wires before it and
the wires cleared after it (30_encoding.md R90, R91, R106, R107; log 9, 10, 11). -/

namespace Sys2Proof.Machine

/-- What the next line of stimulus asks for. -/
inductive Fetched where
  /-- run the instruction of these bytes on this state -/
  | word (bytes : List Byte) (s : State)
  /-- no instruction: the line only changed the state -/
  | line (s : State)
  /-- the line is refused -/
  | reject (r : Refusal)
deriving DecidableEq, Repr

/-- The state between steps: the temporaries of a step are gone (10_state.md R50; log 9). -/
def clearWires (s : State) : State := { s with wires := Wires.none }

/-- The state with a sample and its time on the wires (30_encoding.md R91). -/
def withSample (x : Cplx) (now : Time) (s : State) : State := { s with wires := { Wires.none with x := x, now := now } }

/-- The instruction bytes and operands of a line of stimulus. The control vector of a SAMPLE and of a bit is computed from the
state (30_encoding.md R97); the row number is that of RESET, STEP or PUTBIT. -/
def fetchLine (line : Stimulus) (s : State) : Fetched :=
  match line with
  | .reset => .word (OpWord.bytes ⟨resetCv s, BitVec.ofNat 8 Instr.reset.rowNumber⟩) s
  | .sample (.finite re) (.finite im) now =>
    .word (OpWord.bytes ⟨stepCv s, BitVec.ofNat 8 Instr.step.rowNumber⟩) (withSample ⟨re, im⟩ now s)
  | .sample _ _ _ => .reject .nonFiniteSample
  | .fec (.finite vp) bits => .line { s with fecNext := some (vp, bits) }
  | .fec .nonFinite _ => .reject .nonFiniteMetric
  | .putbit v => .word (OpWord.bytes ⟨bitCv s, BitVec.ofNat 8 Instr.putbit.rowNumber⟩)
      { s with wires := { Wires.none with sv := v } }
  | .op w => .word w.bytes s

/-- Whether the wires are cleared after the line: after every transaction and after PUTBIT, but not after an injected single
operation, whose results stay for the next one (log 9). -/
def Stimulus.clears : Stimulus → Bool
  | .op _ => false
  | _ => true

/-- What the step does to the state after the instruction has run. -/
def settle (line : Stimulus) (s : State) : State := if line.clears then clearWires s else s

/-- The state with its first line of stimulus taken off, and the outputs of the last step gone (log 11, 12). -/
def takeLine (rest : List Stimulus) (s : State) : State := { s with inq := rest, out := [] }

/-- An instruction word put at the head of the stimulus. -/
def pushWord (w : OpWord) (s : State) : State := { s with inq := .op w :: s.inq }

end Sys2Proof.Machine
end

