-- ==== Sys2Proof/Machine/Step.lean ====
section
/-! DEFINITION. One step of the machine: the whole effect of the next line of stimulus (00_scope.md R12, R18; 20_memory.md R68).
With no line waiting the core holds its state (60_exceptions.md R234 (d), R248). -/

namespace Sys2Proof.Machine

/-- Decode the bytes, run the instruction, and settle. -/
def runWord (line : Stimulus) (bytes : List Byte) (s : State) : Host.Outcome State Fault Refusal :=
  match decode bytes with
  | .error e => .refused (.badWord e)
  | .ok (i, _) => Res.andThen (exec i s) fun t => .next (settle line t)

/-- One step. -/
def step (s : State) : Host.Outcome State Fault Refusal :=
  match s.inq with
  | [] => .next { s with out := [] }
  | line :: rest =>
    match fetchLine line (takeLine rest s) with
    | .word bytes t => runWord line bytes t
    | .line t => .next t
    | .reject r => .refused r

/-- The state with the instruction of the bits `w` (the bits from `nbits` up are 0) where step fetches its next instruction: at
the head of the stimulus. -/
def State.withFetchWord (s : State) (nbits w : Nat) : State :=
  pushWord ⟨BitVec.ofNat 8 (w % 2 ^ nbits), BitVec.ofNat 8 (w % 2 ^ nbits / 256)⟩ s

end Sys2Proof.Machine
end

