-- ==== Sys2Proof/Safety.lean ====
section
/-! DEFINITION. What counts as a safe state, in the terms claims use: the invariants the spec states or derives for a run from
reset, the stimulus the hardware itself can receive, and the geometry of a block. -/

namespace Sys2Proof.Machine

/-! ### Invariants -/

/-- The four memories are in canonical form and list no index outside their capacity (20_memory.md R60). -/
def MemoriesOk (s : State) : Prop :=
  Memory.wf Cplx.zero s.inbuf = true ∧ Memory.wf .zero s.ph = true ∧ Memory.wf 0 s.blkd = true ∧
  Memory.wf .zero s.blkp = true ∧
  (∀ e ∈ s.inbuf, e.1 < s.cfg.ntap) ∧ (∀ e ∈ s.ph, e.1 < s.cfg.phlen) ∧
  (∀ e ∈ s.blkd, e.1 < maxRow * nCol) ∧ (∀ e ∈ s.blkp, e.1 < maxRow * nCol)

/-- The indices and the symbol clock hold legal values (10_state.md R33 to R36), and the filter variant is 0 while idle. -/
def IndicesOk (s : State) : Prop :=
  s.ink < s.cfg.ntap ∧ s.phidx < s.cfg.phlen ∧ s.off < s.cfg.noff ∧ s.clk.toNat < ovs ∧ (s.state = .idle → s.off = 0)

/-- The bit counter between steps (10_state.md R38). -/
def BitCountOk (s : State) : Prop :=
  match s.state with
  | .idle => s.nbits.toNat ≤ 25
  | .header => s.nbits.toNat < 25
  | .data => s.nbits.toNat < 8

/-- The geometry HD.ACCEPT can write (43_header.md R199). -/
def geometryAccepted (nbrow : BitVec 7) (nbbyte : BitVec 8) : Prop :=
  1 ≤ nbrow.toNat ∧ nbrow.toNat ≤ 65 ∧ nbbyte.toNat ≤ 249 ∧ (nbrow.toNat = 1 → 13 ≤ nbbyte.toNat)

/-- In DATA the geometry is an accepted one and the next cell is inside the matrices (44_block.md R216). -/
def BlockOk (s : State) : Prop :=
  s.state = .data → geometryAccepted s.nbrow s.nbbyte ∧ s.row.toNat < s.nbrow.toNat ∧ s.col.toNat ≤ 254

/-- The row and column counts, once written, keep an accepted geometry (10_state.md R42, R43). -/
def GeometryOk (s : State) : Prop := (s.nbrow = 0 ∧ s.nbbyte = 0) ∨ geometryAccepted s.nbrow s.nbbyte

/-- Outside DATA nothing is being assembled (10_state.md R39, 43_header.md R197). -/
def AccumulatorsOk (s : State) : Prop :=
  (s.state ≠ .data → s.bits = 0 ∧ s.pr = .one) ∧ (s.state = .data → s.bits.toNat < 2 ^ s.nbits.toNat)

/-- A number that the record's `arg` can give: with exact arithmetic a real number in (-pi, pi], with a format 0, pi, or a number in
(-pi, pi] as the format compares (00_scope.md R14; log 4). -/
def phaseOk (n : Numerics) (v : Scalar) : Prop :=
  match n.arith with
  | .exact => -Real.pi < v.toReal ∧ v.toReal ≤ Real.pi
  | .format _ => v = .zero ∨ v = .pi ∨ (n.gt v .negPi = true ∧ n.gt v .pi = false)

/-- Every phase held lies in (-pi, pi] (10_state.md R27, R45). -/
def PhasesOk (s : State) : Prop := phaseOk s.cfg.num s.prevph ∧ ∀ e ∈ s.ph, phaseOk s.cfg.num e.2

/-- With exact arithmetic, a fit error below the lock threshold is not above its predecessor (41_sync.md R152). -/
def TrackersOk (s : State) : Prop :=
  s.cfg.num.arith = .exact → s.perr.toReal < 4 → s.perr.toReal ≤ s.p2err.toReal

/-- While a header is received the decoder's window holds the bits pushed so far, with indices 0, 1, ... in order
(43_header.md R191, 60_exceptions.md R246). -/
def WindowOk (s : State) : Prop :=
  s.state = .header → s.fecWin.map (fun e => e.2.toNat) = List.range s.nbits.toNat

/-- With exact arithmetic, the running confidence of a block in progress is at least 2^-nbits, every confidence stored is at least 2^-8,
and none is above 1 (10_state.md R28, R54; 44_block.md R217). -/
def ConfidencesOk (s : State) : Prop :=
  s.cfg.num.arith = .exact →
    (s.state = .data → (1 / 2) ^ s.nbits.toNat ≤ s.pr.toReal ∧ s.pr.toReal ≤ 1) ∧
    (∀ e ∈ s.blkp, 1 / 256 ≤ e.2.toReal ∧ e.2.toReal ≤ 1)

/-- The invariant of a run: all of the above. -/
structure SafeState (s : State) : Prop where
  memories : MemoriesOk s
  indices : IndicesOk s
  bitCount : BitCountOk s
  block : BlockOk s
  geometry : GeometryOk s
  accumulators : AccumulatorsOk s
  phases : PhasesOk s
  trackers : TrackersOk s
  window : WindowOk s
  confidences : ConfidencesOk s

/-- A line of stimulus that the hardware or its bit-level test entry can receive: not the injection of a single operation, and a
bit only with a soft value in [0, 1]. -/
def Stimulus.hardware : Stimulus → Prop
  | .op _ => False
  | .putbit v => 0 ≤ v.toReal ∧ v.toReal ≤ 1
  | _ => True

/-- A line of stimulus whose numbers are finite (60_exceptions.md R249; 30_encoding.md R104). -/
def Stimulus.finite : Stimulus → Prop
  | .sample re im _ => re ≠ .nonFinite ∧ im ≠ .nonFinite
  | .fec vp _ => vp ≠ .nonFinite
  | _ => True

/-! ### Outputs -/

/-- The events among outputs. -/
def eventsOf (o : List Output) : List Event :=
  o.filterMap fun x => match x with
    | .event e => some e
    | _ => none

/-- The event of a header failure (60_exceptions.md R231 to R233). -/
def Event.isFailure : Event → Bool
  | .failConf _ => true
  | .failShort _ => true
  | .failLong _ _ => true
  | _ => false

/-! ### The geometry of a block (44_block.md R215, R218) -/

/-- `K`: the full overhead columns of the size class (R215). -/
def overheadCols (nbbyte : Nat) : Nat := if nbbyte < 30 then 2 else if nbbyte < 68 then 4 else 6

/-- `N(R, B)`: the number of bytes of a block (R215). -/
def blockBytes (rows nbbyte : Nat) : Nat :=
  249 * (rows - 1) + nbbyte + overheadCols nbbyte * rows + (if overheadCols nbbyte < 6 then rows - 1 else 0)

/-- `W(R, B)`: whether a block stores to the cell (r, c) (R218). -/
def writtenCell (rows nbbyte r c : Nat) : Prop :=
  (c < nbbyte ∧ r < rows) ∨
  (nbbyte ≤ c ∧ c < 249 ∧ r + 1 < rows) ∨
  (249 ≤ c ∧ c < 249 + overheadCols nbbyte ∧ r < rows) ∨
  (overheadCols nbbyte < 6 ∧ c = 249 + overheadCols nbbyte ∧ r + 1 < rows)

/-- The cell that the n-th byte of a block, from 0, is stored to: BADV applied n times from (0, 0) (44_block.md R212). -/
def cellOfByte (nbrow : BitVec 7) (nbbyte : BitVec 8) : Nat → BitVec 7 × BitVec 8
  | 0 => (0, 0)
  | n + 1 => advance nbrow nbbyte (cellOfByte nbrow nbbyte n).1 (cellOfByte nbrow nbbyte n).2

/-- PUTBIT for each raw soft bit of a list, in order (30_encoding.md R107). -/
def runBits : List Scalar → State → Res
  | [], s => .next s
  | v :: vs, s => Res.andThen (exec .putbit (withRawBit v s)) (runBits vs)

/-- The soft bits that DESCR gives for a list of raw soft bits from a descrambler word (42_demod.md R177). -/
def descramble (n : Numerics) (scr : BitVec 16) : List Scalar → List Scalar
  | [] => []
  | v :: vs => (if feedback scr then n.sub .one v else v) :: descramble n (scrNext scr) vs

end Sys2Proof.Machine
end

