-- ==== Sys2Proof/Certificates/Slice0/Obligations.lean ====
section
/-! DEFINITION. The statements for the provers. Each says what an operation or the machine does, in the terms of the rules of
spec/; where a statement holds only of the states that a run can reach, the invariant that rules the others out is a premise, and
`StepKeepsTheInvariant` states that every step keeps it. A number of the machine stands for a real number, `toReal`, in whose terms
the statements about exact arithmetic are made: its comparisons and its roundings are those of the real numbers. -/

open Sys2Proof Sys2Proof.Machine

/-! ### Encoding and control -/

/-- Decoding a well-formed word that names its row gives that row's instruction and the bytes after it, whatever the don't-care
bits of the control vector hold; and whatever a word decodes to is selected by its control vector (30_encoding.md R98), and is
the row named, or for a word that names none a row that fixes the most bits (log 10, the model's choice). -/
def Obligations.DecodeAgreesWithTheOperationMap : Prop :=
  (∀ (i : Instr) (cv : Byte) (rest : List Byte), OpWord.wf ⟨cv, BitVec.ofNat 8 i.rowNumber⟩ = true →
    decode (OpWord.bytes ⟨cv, BitVec.ofNat 8 i.rowNumber⟩ ++ rest) = .ok (i, rest)) ∧
  (∀ (i : Instr) (rest : List Byte), decode (encode i ++ rest) = .ok (i, rest)) ∧
  (∀ (bs rest : List Byte) (i : Instr), decode bs = .ok (i, rest) →
    ∃ cv row : Byte, bs = cv :: row :: rest ∧ i.selectedBy cv = true ∧
      (row.toNat = i.rowNumber ∨
        row = 0 ∧ ∀ j ∈ mapRows, j.selectedBy cv = true → j.fixedBits ≤ i.fixedBits))

/-- Words written out from the patterns of 30_encoding.md R98 and R107 (the row byte is the model's own, log 10) decode to their
operations, and a control vector with the reserved state code 0b01 decodes to none (R104 (a)). -/
def Obligations.WrittenWordsDecode : Prop :=
  decode [0b100000, 1] = .ok (.reset, []) ∧
  decode [0b000000, 2] = .ok (.spush, []) ∧
  decode [0b000100, 4] = .ok (.mfilt, []) ∧
  decode [0b000100, 13] = .ok (.syAcq, []) ∧
  decode [0b000110, 17] = .ok (.sclk, []) ∧
  decode [0b001110, 18] = .ok (.dmDiff, []) ∧
  decode [0b001100, 23] = .ok (.bitdrop, []) ∧
  decode [0b011110, 25] = .ok (.hdrfin, []) ∧
  decode [0b011111, 33] = .ok (.bstore, []) ∧
  decode [0b011110, 38] = .ok (.toidle, []) ∧
  decode [0b000000, 39] = .ok (.step, []) ∧
  decode [0b000001, 2] = .error .reservedState

/-- The control vector computed from the state (30_encoding.md R97) selects the rows of the operation map (R98) exactly under the
conditions of the pseudocode (R120, R125, R140, R170, R180, R190, R210); that of a RESET selects RESET alone, whatever the state
(that its `st` is the state the transaction finds is the model's choice, log 21). -/
def Obligations.OperationMapAgreesWithTheSchedule : Prop :=
  ∀ s : State,
    selected (resetCv s) = [.reset] ∧
    (∀ i ∈ [Instr.spush, .dtick], i.selectedBy (stepCv s) = true) ∧
    (∀ i ∈ [Instr.mfilt, .phase], i.selectedBy (stepCv s) = true ↔ s.dec = 1) ∧
    (∀ i ∈ [Instr.sySample, .syResid, .syUnwrap, .syDc, .syFit, .syErr, .syPeak, .syAcq, .syInterp, .sySplit, .syShift],
      i.selectedBy (stepCv s) = true ↔ s.dec = 1 ∧ s.state = .idle) ∧
    (Instr.sclk.selectedBy (stepCv s) = true ↔ s.dec = 1 ∧ s.state ≠ .idle) ∧
    (∀ i ∈ [Instr.dmDiff, .dmCorr, .dmQuant, .dmGray, .dmUpd],
      i.selectedBy (stepCv s) = true ↔ s.dec = 1 ∧ s.state ≠ .idle ∧ s.clk = 7) ∧
    Instr.descr.selectedBy (bitCv s) = true ∧
    (Instr.bitdrop.selectedBy (bitCv s) = true ↔ s.state = .idle) ∧
    (Instr.hdrbit.selectedBy (bitCv s) = true ↔ s.state = .header) ∧
    (Instr.databit.selectedBy (bitCv s) = true ↔ s.state = .data) ∧
    (∀ i ∈ [Instr.hdrfin, .hdConf, .hdLen, .hdShort, .hdGeom, .hdLong, .hdAccept],
      i.selectedBy (bitCv s) = true ↔ s.state = .header ∧ s.nbits = 24) ∧
    (∀ i ∈ [Instr.bstore, .badv, .bdone, .dispatch],
      i.selectedBy (bitCv s) = true ↔ s.state = .data ∧ s.nbits = 7) ∧
    (Instr.toidle.selectedBy (bitCv s) = true ↔
      (s.state = .header ∧ s.nbits = 24) ∨ (s.state = .data ∧ s.nbits = 7))

/-- A step runs the instruction of the next line of stimulus: a SAMPLE runs STEP, RESET runs RESET, PUTBIT runs PUTBIT, an
injected word runs what it decodes to, and an injected word that decodes to nothing is refused with `badWord` (the model's
choice, log 10). Around it the step takes the line off, clears the outputs of the last step, puts the
line's operands on the wires and clears the wires after a transaction (the model's choice, log 9, 11, 12). With no line waiting
the core holds its state (60_exceptions.md R234 (d), R248). -/
def Obligations.StepRunsTheInstructionOfTheNextLine : Prop :=
  ∀ (s : State) (rest : List Stimulus),
    (∀ (w : OpWord) (i : Instr) (tail : List Byte), s.inq = .op w :: rest → decode w.bytes = .ok (i, tail) →
      step s = exec i { s with inq := rest, out := [] }) ∧
    (∀ (w : OpWord) (e : DecodeError), s.inq = .op w :: rest → decode w.bytes = .error e →
      step s = .refused (.badWord e)) ∧
    (∀ (re im : Scalar) (now : Time), s.inq = .sample (.finite re) (.finite im) now :: rest →
      step s = Res.andThen
        (exec .step { s with inq := rest, out := [], wires := { Wires.none with x := ⟨re, im⟩, now := now } })
        fun t => .next { t with wires := Wires.none }) ∧
    (s.inq = .reset :: rest →
      step s = Res.andThen (exec .reset { s with inq := rest, out := [] }) fun t => .next { t with wires := Wires.none }) ∧
    (∀ v : Scalar, s.inq = .putbit v :: rest →
      step s = Res.andThen (exec .putbit { s with inq := rest, out := [], wires := { Wires.none with sv := v } })
        fun t => .next { t with wires := Wires.none }) ∧
    (∀ (vp : Scalar) (bits : BitVec 32), s.inq = .fec (.finite vp) bits :: rest →
      step s = .next { s with inq := rest, out := [], fecNext := some (vp, bits) }) ∧
    (s.inq = [] → step s = .next { s with out := [] })

/-- What stops a step: a SAMPLE with a non-finite part and a non-finite FEC metric are refused (60_exceptions.md R249, 30_encoding.md
R104); BSTORE outside the matrices and MFILT with a variant that does not exist fault (the model's choice, log 16). -/
def Obligations.StopsOutsideTheContract : Prop :=
  ∀ s : State,
    (∀ (re im : PortNum) (now : Time) (rest : List Stimulus), s.inq = .sample re im now :: rest →
      re = .nonFinite ∨ im = .nonFinite → step s = .refused .nonFiniteSample) ∧
    (∀ (bits : BitVec 32) (rest : List Stimulus), s.inq = .fec .nonFinite bits :: rest →
      step s = .refused .nonFiniteMetric) ∧
    (65 ≤ s.row.toNat ∨ 255 ≤ s.col.toNat → exec .bstore s = .fault (.blockCellOutside s.row s.col)) ∧
    (s.cfg.noff ≤ s.off → exec .mfilt s = .fault (.filterVariantOutside s.off))

/-- RESET: every register but `tstamp` takes its reset value, every read-write memory reads 0, nothing is emitted, and the tables and
parameters do not change. -/
def Obligations.ResetBringsTheInitialContext : Prop :=
  ∀ s : State, ∃ t, exec .reset s = .next t ∧
    t.state = .idle ∧ t.perr = .rat 500 ∧ t.p2err = .rat 500 ∧ t.err = .zero ∧ t.fr = .zero ∧ t.pfr = .zero ∧ t.df = .zero ∧
    t.prevph = .zero ∧ t.pr = .one ∧ t.dec = 0 ∧ t.ink = 0 ∧ t.phidx = 0 ∧ t.clk = 0 ∧ t.off = 0 ∧ t.scr = 0 ∧ t.nbits = 0 ∧ t.bits = 0 ∧
    t.row = 0 ∧ t.col = 0 ∧ t.nbrow = 0 ∧ t.nbbyte = 0 ∧
    (∀ i, inbufAt t i = ⟨.zero, .zero⟩) ∧ (∀ j, phAt t j = .zero) ∧ (∀ r c, blkdAt t r c = 0) ∧
    (∀ r c, blkpAt t r c = .zero) ∧
    t.tstamp = s.tstamp ∧ t.out = s.out ∧ t.cfg = s.cfg

/-- RESET leaves what stands outside the core as it is: the FEC decoder's window and its fixed answer, the stimulus that waits and the
temporaries (the model's choice, log 18); a second RESET changes nothing more; and but for `tstamp` (log 13) and the configuration
the registers and memories are those of the machine right after reset. -/
def Obligations.ResetLeavesTheOutsideAlone : Prop :=
  ∀ s : State, ∃ t, exec .reset s = .next t ∧ exec .reset t = .next t ∧
    t.fecWin = s.fecWin ∧ t.fecNext = s.fecNext ∧ t.inq = s.inq ∧ t.wires = s.wires ∧
    { t with
      tstamp := 0, cfg := Config.installed, fecWin := [], fecNext := none, inq := [], out := [], wires := Wires.none } = { State.reset with tstamp := 0 }

/-! ### Sample buffer, filter, phase tracker -/

/-- SPUSH: the sample goes to element `ink` of INBUF, every other element is as before, `ink` advances modulo NTAP, and nothing
else changes. -/
def Obligations.SpushStoresTheSampleAndAdvances : Prop :=
  ∀ s : State, Memory.wf Cplx.zero s.inbuf = true → ∃ t, exec .spush s = .next t ∧
    (∀ i, Memory.read Cplx.zero t.inbuf i =
      if i = s.ink % s.cfg.ntap then s.wires.x else Memory.read Cplx.zero s.inbuf i) ∧
    t.ink = (s.ink + 1) % s.cfg.ntap ∧
    t = { s with inbuf := t.inbuf, ink := t.ink }

/-- DTICK: the tick is the old `dec`, `dec` toggles, and nothing else changes. -/
def Obligations.DtickTogglesTheDecimationPhase : Prop :=
  ∀ s : State, ∃ t, exec .dtick s = .next t ∧
    t.wires.tick = s.dec ∧ (s.dec = 0 → t.dec = 1) ∧ (s.dec = 1 → t.dec = 0) ∧
    t = { s with dec := t.dec, wires := { s.wires with tick := s.dec } }

/-- MFILT: with a variant that exists, S is the sum of the products of the window, oldest sample first, with the taps of the variant; with
exact arithmetic it is the inner product of the complex numbers, no conjugate taken; registers and memories are unchanged. The
sum and the products are those of the numerics record; of a format, the order in which it adds is open and the model fixes none
(log 4). -/
def Obligations.MfiltIsTheInnerProduct : Prop :=
  ∀ s : State, s.off < s.cfg.noff → ∃ t, exec .mfilt s = .next t ∧
    t.wires.filtered = s.cfg.num.csum
      ((List.range s.cfg.ntap).map fun i => s.cfg.num.cmul (inbufAt s (s.ink + i)) (s.cfg.tap s.off i)) ∧
    (s.cfg.num.arith = .exact →
      t.wires.filtered.toComplex = ∑ i ∈ Finset.range s.cfg.ntap,
        (inbufAt s (s.ink + i)).toComplex * (s.cfg.tap s.off i).toComplex) ∧
    t = { s with wires := { s.wires with filtered := t.wires.filtered } }

/-- PHASE: P is the record's `arg` of S, which with exact arithmetic is the angle of the complex number S; it is in (-pi, pi], 0 for S = 0
and pi on the negative real axis; it is written to element `phidx` of PH, which is handed on as w; every other element is as
before, `phidx` advances modulo PHLEN, and nothing else changes. -/
def Obligations.PhaseAppendsTheAngle : Prop :=
  ∀ s : State, Memory.wf .zero s.ph = true → s.phidx < s.cfg.phlen → ∃ t, exec .phase s = .next t ∧
    t.wires.phase = s.cfg.num.arg s.wires.filtered ∧ t.wires.slot = s.phidx ∧
    (s.cfg.num.arith = .exact → t.wires.phase.toReal = Complex.arg s.wires.filtered.toComplex) ∧
    phaseOk s.cfg.num t.wires.phase ∧
    (s.wires.filtered = ⟨.zero, .zero⟩ → t.wires.phase = .zero) ∧
    (s.cfg.num.arith = .exact → s.wires.filtered.im.toReal = 0 → s.wires.filtered.re.toReal < 0 →
      t.wires.phase.toReal = Real.pi) ∧
    (∀ k, s.cfg.num.arith = .format k → s.wires.filtered.im = .zero → s.wires.filtered.re ≠ .zero →
      s.cfg.num.lt s.wires.filtered.re .zero = true → t.wires.phase = .pi) ∧
    (∀ i, Memory.read .zero t.ph i = if i = s.phidx then t.wires.phase else Memory.read .zero s.ph i) ∧
    t.phidx = (s.phidx + 1) % s.cfg.phlen ∧
    t = { s with ph := t.ph, phidx := t.phidx,
                 wires := { s.wires with phase := t.wires.phase, slot := t.wires.slot } }

/-- The angle with exact arithmetic: `arg(z)` is the angle of the complex number z, for every z. On the axes and the diagonals it is
written in its simplest form (the values of 95_test_vectors.md section 3.1), at -3 + 2i it is pi - atan(2/3) (vector F5), it
changes its sign under reflection in the real axis, and it does not depend on the length. -/
def Obligations.AngleOnAxesAndDiagonals : Prop :=
  ∀ c : Config, c.num.arith = .exact →
    (∀ z : Cplx, (c.num.arg z).toReal = Complex.arg z.toComplex) ∧
    (∀ a : Rat, 0 < a →
      c.num.arg ⟨.zero, .zero⟩ = .zero ∧ c.num.arg ⟨.rat a, .zero⟩ = .zero ∧
      c.num.arg ⟨.zero, .rat a⟩ = .poly [0, 1 / 2] ∧ c.num.arg ⟨.rat (-a), .zero⟩ = .pi ∧
      c.num.arg ⟨.zero, .rat (-a)⟩ = .poly [0, -1 / 2] ∧ c.num.arg ⟨.rat a, .rat a⟩ = .poly [0, 1 / 4] ∧
      c.num.arg ⟨.rat (-a), .rat a⟩ = .poly [0, 3 / 4] ∧ c.num.arg ⟨.rat (-a), .rat (-a)⟩ = .poly [0, -3 / 4] ∧
      c.num.arg ⟨.rat a, .rat (-a)⟩ = .poly [0, -1 / 4]) ∧
    (∀ q : Rat, (Scalar.poly [0, q]).toReal = q * Real.pi) ∧
    (c.num.arg ⟨.rat (-3), .rat 2⟩).toReal = Real.pi - Real.arctan (2 / 3) ∧
    (∀ re im : Scalar, im.toReal ≠ 0 →
      (c.num.arg ⟨re, Scalar.sub .zero im⟩).toReal = -(c.num.arg ⟨re, im⟩).toReal) ∧
    (∀ a re im : Scalar, 0 < a.toReal →
      (c.num.arg ⟨Scalar.mul a re, Scalar.mul a im⟩).toReal = (c.num.arg ⟨re, im⟩).toReal)

/-- The numerics record with exact arithmetic is that of the real numbers: its four operations (the quotient by 0 apart, log 5), its two
comparisons, `round` with ties away from zero, and `wrap`, for all numbers, however they are written. -/
def Obligations.ExactArithmeticIsThatOfTheReals : Prop :=
  ∀ n : Numerics, n.arith = .exact → ∀ a b : Scalar,
    (n.add a b).toReal = a.toReal + b.toReal ∧ (n.sub a b).toReal = a.toReal - b.toReal ∧
    (n.mul a b).toReal = a.toReal * b.toReal ∧ (b.toReal ≠ 0 → (n.div a b).toReal = a.toReal / b.toReal) ∧
    (n.lt a b = true ↔ a.toReal < b.toReal) ∧ (n.gt a b = true ↔ a.toReal > b.toReal) ∧
    (|a.toReal - n.round a| ≤ 1 / 2 ∧ (|a.toReal - n.round a| = 1 / 2 → |a.toReal| < |(n.round a : ℝ)|)) ∧
    (a.toReal > Real.pi → (n.wrap a).toReal = a.toReal - 2 * Real.pi) ∧
    (a.toReal ≤ -Real.pi → (n.wrap a).toReal = a.toReal + 2 * Real.pi) ∧
    (-Real.pi < a.toReal → a.toReal ≤ Real.pi → (n.wrap a).toReal = a.toReal)

/-! ### Sync acquisition -/

/-- SY.SAMPLE: h[k] is element (w + OVS + k OVS) mod PHLEN of PH for k = 0..L-1; registers and memories are unchanged. -/
def Obligations.SySampleTakesEvenlySpacedEntries : Prop :=
  ∀ s : State, ∃ t, exec .sySample s = .next t ∧
    t.wires.h.length = s.cfg.l ∧
    (∀ k, k < s.cfg.l → t.wires.h.getD k .zero = phAt s (s.wires.slot + 8 + k * 8)) ∧
    t = { s with wires := { s.wires with h := t.wires.h } }

/-- The L addresses of the sync window are distinct, and when HDEPTH = L the last one is the slot w itself. -/
def Obligations.SyncWindowAddressesAreDistinct : Prop :=
  ∀ (c : Config) (w : Nat),
    (∀ k k', k < c.l → k' < c.l → eaPh c w k = eaPh c w k' → k = k') ∧
    (c.data.hdepth = c.l → w < c.phlen → eaPh c w (c.l - 1) = w)

/-- SY.RESID: c[k] is h[k] - SW[k], not wrapped; registers and memories are unchanged. -/
def Obligations.SyResidSubtractsTheTemplate : Prop :=
  ∀ s : State, s.wires.h.length = s.cfg.l → ∃ t, exec .syResid s = .next t ∧
    t.wires.c.length = s.cfg.l ∧
    (∀ k, k < s.cfg.l →
      t.wires.c.getD k .zero = s.cfg.num.sub (s.wires.h.getD k .zero) (s.cfg.data.sw.getD k .zero)) ∧
    (s.cfg.num.arith = .exact → ∀ k, k < s.cfg.l →
      (t.wires.c.getD k .zero).toReal = (s.wires.h.getD k .zero).toReal - (s.cfg.data.sw.getD k .zero).toReal) ∧
    t = { s with wires := { s.wires with c := t.wires.c } }

/-- SY.UNWRAP: there is a running correction u that starts at 0, drops by 2 pi after a raw difference above pi, rises by 2 pi after
one below -pi, and r[k] is c[k] + u[k], with r[0] = c[0]; pi, -pi and 2 pi are those real numbers, and with exact arithmetic the
comparisons and the sums are those of the real numbers, so that a difference of exactly pi is not corrected; registers and
memories are unchanged. -/
def Obligations.SyUnwrapFollowsTheRunningCorrection : Prop :=
  (Scalar.pi.toReal = Real.pi ∧ Scalar.negPi.toReal = -Real.pi ∧ Scalar.twoPi.toReal = 2 * Real.pi) ∧
  ∀ s : State, ∃ t, exec .syUnwrap s = .next t ∧
    t.wires.r.length = s.wires.c.length ∧
    t.wires.r.getD 0 .zero = s.wires.c.getD 0 .zero ∧
    (∃ u : Nat → Scalar, u 0 = .zero ∧ ∀ k, k + 1 < s.wires.c.length → ∃ d,
      d = s.cfg.num.sub (s.wires.c.getD (k + 1) .zero) (s.wires.c.getD k .zero) ∧
      (s.cfg.num.gt d .pi = true → u (k + 1) = s.cfg.num.sub (u k) .twoPi) ∧
      (s.cfg.num.gt d .pi = false → s.cfg.num.lt d .negPi = true → u (k + 1) = s.cfg.num.add (u k) .twoPi) ∧
      (s.cfg.num.gt d .pi = false → s.cfg.num.lt d .negPi = false → u (k + 1) = u k) ∧
      t.wires.r.getD (k + 1) .zero = s.cfg.num.add (s.wires.c.getD (k + 1) .zero) (u (k + 1))) ∧
    (s.cfg.num.arith = .exact → ∃ u : Nat → ℝ, u 0 = 0 ∧ ∀ k, k + 1 < s.wires.c.length → ∃ d : ℝ,
      d = (s.wires.c.getD (k + 1) .zero).toReal - (s.wires.c.getD k .zero).toReal ∧
      (d > Real.pi → u (k + 1) = u k - 2 * Real.pi) ∧ (d < -Real.pi → u (k + 1) = u k + 2 * Real.pi) ∧
      (-Real.pi ≤ d → d ≤ Real.pi → u (k + 1) = u k) ∧
      (t.wires.r.getD (k + 1) .zero).toReal = (s.wires.c.getD (k + 1) .zero).toReal + u (k + 1)) ∧
    t = { s with wires := { s.wires with r := t.wires.r } }

/-- Unwrap continuity: consecutive unwrapped residuals differ by at most pi exactly where the raw ones differ by at most 3 pi; and
they do everywhere when the phases are in (-pi, pi] and consecutive template entries differ by at most pi. Exact arithmetic. -/
def Obligations.UnwrapIsContinuousBelowThreePi : Prop :=
  ∀ (g : Config), g.num.arith = .exact →
    (∀ (c : List Scalar) (k : Nat), k + 1 < c.length →
      (|((unwrap g.num c).getD (k + 1) .zero).toReal - ((unwrap g.num c).getD k .zero).toReal| ≤ Real.pi ↔
        |(c.getD (k + 1) .zero).toReal - (c.getD k .zero).toReal| ≤ 3 * Real.pi)) ∧
    (∀ h c : List Scalar, h.length = g.l → (∀ v ∈ h, -Real.pi < v.toReal ∧ v.toReal ≤ Real.pi) →
      (∀ k, k + 1 < g.l →
        |(g.data.sw.getD (k + 1) .zero).toReal - (g.data.sw.getD k .zero).toReal| ≤ Real.pi) →
      c = List.zipWith g.num.sub h g.data.sw →
      ∀ k, k + 1 < g.l →
        |((unwrap g.num c).getD (k + 1) .zero).toReal - ((unwrap g.num c).getD k .zero).toReal| ≤ Real.pi)

/-- SY.DC: z[k] is r[k] less the mean of r, the record's sum of r over L; with exact arithmetic it is the mean of the real numbers, and z
sums to 0; registers and memories are unchanged. The exact clauses formalise R144; of a format, the order in which it adds is open
and the model fixes none (log 4). -/
def Obligations.SyDcRemovesTheMean : Prop :=
  ∀ s : State, s.wires.r.length = s.cfg.l → ∃ t, exec .syDc s = .next t ∧
    t.wires.z.length = s.cfg.l ∧
    (∀ k, k < s.cfg.l → t.wires.z.getD k .zero =
      s.cfg.num.sub (s.wires.r.getD k .zero) (s.cfg.num.div (s.cfg.num.sum s.wires.r) (.rat s.cfg.l))) ∧
    (s.cfg.num.arith = .exact →
      (∀ k, k < s.cfg.l → (t.wires.z.getD k .zero).toReal =
        (s.wires.r.getD k .zero).toReal - (∑ j ∈ Finset.range s.cfg.l, (s.wires.r.getD j .zero).toReal) / s.cfg.l) ∧
      ∑ k ∈ Finset.range s.cfg.l, (t.wires.z.getD k .zero).toReal = 0) ∧
    t = { s with wires := { s.wires with z := t.wires.z } }

/-- SY.FIT and SY.ERR: `fr` is the sum of z[k] x[k] over FRNORM and `err` the sum of (z[k] - x[k] fr)^2, with x[k] = k - (L-1)/2, in
exact arithmetic; each writes that register and nothing else. x[k] is exact in every numerics record. FRNORM is positive, and its
default is the sum of the squares of the x[k]. -/
def Obligations.SyFitAndSyErrFormulas : Prop :=
  ∀ s : State,
    (∀ k : Nat, (abscissa s.cfg k).toReal = (k : ℝ) - ((s.cfg.l : ℝ) - 1) / 2) ∧
    0 < s.cfg.frnorm.toReal ∧
    (s.cfg.data.frnorm = .default →
      s.cfg.frnorm.toReal = ∑ k ∈ Finset.range s.cfg.l, ((k : ℝ) - ((s.cfg.l : ℝ) - 1) / 2) ^ 2) ∧
    (∃ t, exec .syFit s = .next t ∧ t = { s with fr := t.fr } ∧
      (s.cfg.num.arith = .exact → t.fr.toReal =
        (∑ k ∈ Finset.range s.wires.z.length, (s.wires.z.getD k .zero).toReal * ((k : ℝ) - ((s.cfg.l : ℝ) - 1) / 2)) /
          s.cfg.frnorm.toReal)) ∧
    (∃ t, exec .syErr s = .next t ∧ t = { s with err := t.err } ∧
      (s.cfg.num.arith = .exact → t.err.toReal =
        ∑ k ∈ Finset.range s.wires.z.length,
          ((s.wires.z.getD k .zero).toReal - ((k : ℝ) - ((s.cfg.l : ℝ) - 1) / 2) * s.fr.toReal) ^ 2))

/-- The line fit is the least-squares line: with exact arithmetic, the default FRNORM and residuals of mean 0, no line a + b x has a
smaller sum of squares than the error SY.FIT and SY.ERR leave; and the error is 0 exactly when the residuals lie on a line. -/
def Obligations.LineFitIsLeastSquares : Prop :=
  ∀ s : State, s.cfg.num.arith = .exact → s.wires.z.length = s.cfg.l →
    ∑ k ∈ Finset.range s.cfg.l, (s.wires.z.getD k .zero).toReal = 0 →
    s.cfg.data.frnorm = .default →
    ∃ t u, exec .syFit s = .next t ∧ exec .syErr t = .next u ∧
      (∀ a b : ℝ, u.err.toReal ≤ ∑ k ∈ Finset.range s.cfg.l,
        ((s.wires.z.getD k .zero).toReal - a - b * ((k : ℝ) - ((s.cfg.l : ℝ) - 1) / 2)) ^ 2) ∧
      (u.err.toReal = 0 ↔ ∃ a b : ℝ, ∀ k, k < s.cfg.l →
        (s.wires.z.getD k .zero).toReal = a + b * ((k : ℝ) - ((s.cfg.l : ℝ) - 1) / 2))

/-- SY.PEAK: true exactly when `perr < 4.0` and `err > perr`, as the numerics record compares, which with exact arithmetic is the order of
the real numbers, so that equal errors are no peak; registers and memories are unchanged. -/
def Obligations.SyPeakTestsForAMinimumJustPassed : Prop :=
  ∀ s : State, ∃ t, exec .syPeak s = .next t ∧
    (t.wires.peak = true ↔ s.cfg.num.lt s.perr (.rat 4) = true ∧ s.cfg.num.gt s.err s.perr = true) ∧
    (s.cfg.num.arith = .exact →
      (t.wires.peak = true ↔ s.perr.toReal < 4 ∧ s.err.toReal > s.perr.toReal)) ∧
    t = { s with wires := { s.wires with peak := t.wires.peak } }

/-- SY.ACQ: everything it writes and emits, and nothing else changes. -/
def Obligations.SyAcqDeclaresAcquisition : Prop :=
  ∀ s : State, ∃ t, exec .syAcq s = .next t ∧
    t.tstamp = s.wires.now ∧ t.state = .header ∧ t.nbits = 0 ∧ t.col = 0 ∧ t.scr = s.cfg.seed ∧ t.df = s.pfr ∧
    t.wires.fracOff = interpolate s.cfg.num s.p2err s.perr s.err ∧
    t.clk = clkInit s.cfg t.wires.fracOff ∧ t.off = offSel s.cfg t.wires.fracOff ∧
    t.perr = .rat 500 ∧ t.p2err = .rat 500 ∧ t.fecWin = [] ∧
    t.out = s.out ++ [.fecReset, .event (.acq t.wires.fracOff t.clk t.off t.df)] ∧
    t = { s with
      tstamp := t.tstamp, state := t.state, nbits := t.nbits, col := t.col, scr := t.scr, df := t.df, clk := t.clk
      off := t.off, perr := t.perr, p2err := t.p2err, fecWin := t.fecWin, out := t.out
      wires := { s.wires with fracOff := t.wires.fracOff } }

/-- SY.INTERP: the interpolation formula, and for an exact parabola with its vertex at x0 the value 2 (2 - x0), in exact arithmetic;
registers and memories are unchanged. -/
def Obligations.SyInterpInterpolatesTheParabola : Prop :=
  ∀ s : State, ∃ t, exec .syInterp s = .next t ∧
    t = { s with wires := { s.wires with fracOff := t.wires.fracOff } } ∧
    (s.cfg.num.arith = .exact →
      (s.p2err.toReal - 2 * s.perr.toReal + s.err.toReal ≠ 0 →
        t.wires.fracOff.toReal = (s.p2err.toReal - 4 * s.perr.toReal + 3 * s.err.toReal) /
          (s.p2err.toReal - 2 * s.perr.toReal + s.err.toReal)) ∧
      (∀ a x0 m : ℝ, a ≠ 0 → s.p2err.toReal = a * (0 - x0) ^ 2 + m → s.perr.toReal = a * (1 - x0) ^ 2 + m →
        s.err.toReal = a * (2 - x0) ^ 2 + m → t.wires.fracOff.toReal = 2 * (2 - x0)))

/-- Whenever SY.PEAK is true of a state whose trackers are ordered, the divisor of SY.INTERP is positive and `of` is in (1, 3], 3
exactly when `p2err = perr`. Exact arithmetic. -/
def Obligations.InterpolationLiesInOneToThree : Prop :=
  ∀ s t : State, s.cfg.num.arith = .exact → TrackersOk s → exec .syPeak s = .next t → t.wires.peak = true → ∃ f : ℝ,
    f = (interpolate s.cfg.num s.p2err s.perr s.err).toReal ∧
    s.p2err.toReal ≥ s.perr.toReal ∧ s.err.toReal > s.perr.toReal ∧
    s.p2err.toReal - 2 * s.perr.toReal + s.err.toReal =
      (s.p2err.toReal - s.perr.toReal) + (s.err.toReal - s.perr.toReal) ∧
    (s.p2err.toReal - s.perr.toReal) + (s.err.toReal - s.perr.toReal) > 0 ∧
    f = ((s.p2err.toReal - s.perr.toReal) + 3 * (s.err.toReal - s.perr.toReal)) /
      ((s.p2err.toReal - s.perr.toReal) + (s.err.toReal - s.perr.toReal)) ∧
    1 < f ∧ f ≤ 3 ∧ (f = 3 ↔ s.p2err.toReal = s.perr.toReal)

/-- SY.SPLIT: `clk` is below OVS and `off` below NOFF under every rule; with the default formulas, exact arithmetic and `of` in
(1, 3], `clk` is 1 below 3 and 2 at 3, and `off` is the scaled and biased fraction, 0 at 3; nothing else changes. -/
def Obligations.SySplitGivesClockAndVariant : Prop :=
  ∀ s : State, ∃ t, exec .sySplit s = .next t ∧
    t.clk.toNat < 8 ∧ t.off < s.cfg.noff ∧
    t = { s with clk := t.clk, off := t.off } ∧
    (s.cfg.data.split = .default → s.cfg.num.arith = .exact →
      1 < s.wires.fracOff.toReal → s.wires.fracOff.toReal ≤ 3 →
      (t.clk.toNat : Int) = roundReal (s.wires.fracOff.toReal / 2) ∧
      (s.wires.fracOff.toReal < 3 → t.clk = 1) ∧ (s.wires.fracOff.toReal = 3 → t.clk = 2) ∧
      (s.wires.fracOff.toReal = 3 → t.off = 0) ∧
      (t.off : Int) = clampInt
        (roundReal ((s.wires.fracOff.toReal / 2 - (roundReal (s.wires.fracOff.toReal / 2) : ℝ)) * ((s.cfg.noff : ℝ) - 1)) +
          ((s.cfg.noff : Int) - 1) / 2) 0 ((s.cfg.noff : Int) - 1))

/-- SY.SHIFT: the trackers age, the phase is remembered, and nothing else changes. -/
def Obligations.SyShiftAgesTheTrackers : Prop :=
  ∀ s : State, ∃ t, exec .syShift s = .next t ∧
    t.p2err = s.perr ∧ t.perr = s.err ∧ t.pfr = s.fr ∧ t.prevph = s.wires.phase ∧
    t = { s with p2err := t.p2err, perr := t.perr, pfr := t.pfr, prevph := t.prevph }

/-- SYNC: the fit of the current window gives `fr` and `err`; if the previous error was below 4.0 and the new one is above it the core
acquires (timestamp, HEADER, counters, seed, `df` from the slope before, sentinels, FEC_RESET and one EVENT), else the trackers
age; with exact arithmetic the two comparisons are those of the real numbers; nothing else changes but the temporaries. -/
def Obligations.SyncAcquiresOrShifts : Prop :=
  ∀ s : State, ∃ t, exec .sync s = .next t ∧
    (∃ r z : List Scalar,
      r = unwrap s.cfg.num (List.zipWith s.cfg.num.sub
        ((List.range s.cfg.l).map fun k => phAt s (s.wires.slot + 8 + k * 8)) s.cfg.data.sw) ∧
      z = r.map (fun v => s.cfg.num.sub v (meanOf s.cfg r)) ∧
      t.fr = fitSlope s.cfg z ∧ t.err = fitError s.cfg t.fr z) ∧
    (s.cfg.num.arith = .exact →
      ((s.cfg.num.lt s.perr (.rat 4) = true ∧ s.cfg.num.gt t.err s.perr = true) ↔
        s.perr.toReal < 4 ∧ t.err.toReal > s.perr.toReal)) ∧
    (s.cfg.num.lt s.perr (.rat 4) = true ∧ s.cfg.num.gt t.err s.perr = true →
      t.tstamp = s.wires.now ∧ t.state = .header ∧ t.nbits = 0 ∧ t.col = 0 ∧ t.scr = s.cfg.seed ∧ t.df = s.pfr ∧
      t.perr = .rat 500 ∧ t.p2err = .rat 500 ∧ t.pfr = s.pfr ∧ t.prevph = s.prevph ∧ t.fecWin = [] ∧
      t.clk = clkInit s.cfg (interpolate s.cfg.num s.p2err s.perr t.err) ∧
      t.off = offSel s.cfg (interpolate s.cfg.num s.p2err s.perr t.err) ∧
      t.out = s.out ++
        [.fecReset, .event (.acq (interpolate s.cfg.num s.p2err s.perr t.err) t.clk t.off t.df)]) ∧
    (¬(s.cfg.num.lt s.perr (.rat 4) = true ∧ s.cfg.num.gt t.err s.perr = true) →
      t.p2err = s.perr ∧ t.perr = t.err ∧ t.pfr = t.fr ∧ t.prevph = s.wires.phase ∧
      t = { s with
        err := t.err, fr := t.fr, p2err := t.p2err, perr := t.perr, pfr := t.pfr, prevph := t.prevph
        wires := t.wires }) ∧
    t = { s with
      err := t.err, perr := t.perr, p2err := t.p2err, fr := t.fr, pfr := t.pfr, df := t.df, prevph := t.prevph
      state := t.state, clk := t.clk, off := t.off, scr := t.scr, nbits := t.nbits, col := t.col, tstamp := t.tstamp
      fecWin := t.fecWin, out := t.out, wires := t.wires }

/-! ### Symbol clock, demapper, descrambler -/

/-- SCLK: below the last count it increments `clk` and changes nothing else; at the last it clears `clk` and runs DEMOD
(42_demod.md R170: "Increment first, compare after", a decision of the spec). -/
def Obligations.SclkCountsOrDemodulates : Prop :=
  ∀ s : State,
    (s.clk.toNat < 7 → ∃ t, exec .sclk s = .next t ∧ t.clk.toNat = s.clk.toNat + 1 ∧ t = { s with clk := t.clk }) ∧
    (s.clk.toNat = 7 → exec .sclk s = exec .demod { s with clk := 0 })

/-- DM.DIFF: the difference of P and `prevph`, wrapped; with exact arithmetic it is the raw difference less one turn above pi, plus one
turn up to -pi, and the raw difference otherwise, and with both phases in (-pi, pi] it is in (-pi, pi]; registers and memories
are unchanged. -/
def Obligations.DmDiffWrapsThePhaseDifference : Prop :=
  ∀ s : State, ∃ t d, exec .dmDiff s = .next t ∧
    t = { s with wires := { s.wires with d0 := t.wires.d0 } } ∧
    d = s.cfg.num.sub s.wires.phase s.prevph ∧
    (s.cfg.num.gt d .pi = true → t.wires.d0 = s.cfg.num.sub d .twoPi) ∧
    (s.cfg.num.gt d .pi = false → s.cfg.num.gt d .negPi = false → t.wires.d0 = s.cfg.num.add d .twoPi) ∧
    (s.cfg.num.gt d .pi = false → s.cfg.num.gt d .negPi = true → t.wires.d0 = d) ∧
    (s.cfg.num.arith = .exact →
      (phaseOk s.cfg.num s.wires.phase → phaseOk s.cfg.num s.prevph →
        -Real.pi < t.wires.d0.toReal ∧ t.wires.d0.toReal ≤ Real.pi) ∧
      (s.wires.phase.toReal - s.prevph.toReal > Real.pi →
        t.wires.d0.toReal = s.wires.phase.toReal - s.prevph.toReal - 2 * Real.pi) ∧
      (s.wires.phase.toReal - s.prevph.toReal ≤ -Real.pi →
        t.wires.d0.toReal = s.wires.phase.toReal - s.prevph.toReal + 2 * Real.pi) ∧
      (-Real.pi < s.wires.phase.toReal - s.prevph.toReal → s.wires.phase.toReal - s.prevph.toReal ≤ Real.pi →
        t.wires.d0.toReal = s.wires.phase.toReal - s.prevph.toReal))

/-- DM.CORR subtracts `df` and does not wrap; DM.UPD retains the uncorrected phase. Neither changes anything else. -/
def Obligations.DmCorrSubtractsAndDmUpdRetains : Prop :=
  ∀ s : State,
    (∃ t, exec .dmCorr s = .next t ∧ t.wires.d = s.cfg.num.sub s.wires.d0 s.df ∧
      (s.cfg.num.arith = .exact → t.wires.d.toReal = s.wires.d0.toReal - s.df.toReal) ∧
      t = { s with wires := { s.wires with d := t.wires.d } }) ∧
    (∃ t, exec .dmUpd s = .next t ∧ t.prevph = s.wires.phase ∧ t = { s with prevph := t.prevph })

/-- DM.QUANT: the index is `round(128 D / pi + 128)` of the record, clamped to 0..255; with exact arithmetic the rounding is to the
nearest integer, ties away from zero, of the real number, and the index is 128 at 0, 255 from 255 pi / 256 on and 0 up to -pi;
registers and memories are unchanged. -/
def Obligations.DmQuantRoundsAndClamps : Prop :=
  (∀ s : State, ∃ t x, exec .dmQuant s = .next t ∧
    t = { s with wires := { s.wires with idx := t.wires.idx } } ∧
    x = s.cfg.num.add (s.cfg.num.div (s.cfg.num.mul (.rat 128) s.wires.d) .pi) (.rat 128) ∧
    (t.wires.idx.toNat : Int) = min (max (s.cfg.num.round x) 0) 255 ∧
    (s.cfg.num.arith = .exact → x.toReal = 128 * s.wires.d.toReal / Real.pi + 128 ∧
      (t.wires.idx.toNat : Int) = min (max (roundReal (128 * s.wires.d.toReal / Real.pi + 128)) 0) 255 ∧
      (s.wires.d.toReal = 0 → t.wires.idx = 128) ∧
      (255 * Real.pi / 256 ≤ s.wires.d.toReal → t.wires.idx = 255) ∧
      (s.wires.d.toReal ≤ -Real.pi → t.wires.idx = 0))) ∧
  (∀ a : ℝ, |a - roundReal a| ≤ 1 / 2 ∧ (|a - roundReal a| = 1 / 2 → |a| < |(roundReal a : ℝ)|))

/-- DM.GRAY: the three soft bits are the entries of GRAY at the index, each in [0, 1]; registers and memories are unchanged. -/
def Obligations.DmGrayLooksUpThreeSoftBits : Prop :=
  ∀ s : State, ∃ t, exec .dmGray s = .next t ∧
    t.wires.s0 = s.cfg.gray 0 s.wires.idx.toNat ∧ t.wires.s1 = s.cfg.gray 1 s.wires.idx.toNat ∧
    t.wires.s2 = s.cfg.gray 2 s.wires.idx.toNat ∧
    (0 ≤ t.wires.s0.toReal ∧ t.wires.s0.toReal ≤ 1) ∧ (0 ≤ t.wires.s1.toReal ∧ t.wires.s1.toReal ≤ 1) ∧
    (0 ≤ t.wires.s2.toReal ∧ t.wires.s2.toReal ≤ 1) ∧
    t = { s with wires := { s.wires with s0 := t.wires.s0, s1 := t.wires.s1, s2 := t.wires.s2 } }

/-- DEMOD: whatever the state, if the next cell of a block in DATA is inside the matrices it completes: it delivers the three soft bits
of the corrected and quantised phase difference to PUTBIT in table order, and then retains the phase; INBUF, PH and the
acquisition registers are unchanged. -/
def Obligations.DemodDeliversThreeBitsAndRetainsThePhase : Prop :=
  ∀ s : State, (s.state = .data → s.row.toNat < 65 ∧ s.col.toNat < 255) →
    ∃ (t u : State) (d : Scalar) (idx : BitVec 8), exec .demod s = .next t ∧
      d = s.cfg.num.sub (s.cfg.num.wrap (s.cfg.num.sub s.wires.phase s.prevph)) s.df ∧
      idx = grayIndex s.cfg.num d ∧
      runBits [s.cfg.gray 0 idx.toNat, s.cfg.gray 1 idx.toNat, s.cfg.gray 2 idx.toNat]
        { s with wires := { s.wires with
            d0 := s.cfg.num.wrap (s.cfg.num.sub s.wires.phase s.prevph), d := d, idx := idx
            s0 := s.cfg.gray 0 idx.toNat, s1 := s.cfg.gray 1 idx.toNat, s2 := s.cfg.gray 2 idx.toNat } } = .next u ∧
      t = { u with prevph := s.wires.phase } ∧
      t.scr = scrNext (scrNext (scrNext s.scr)) ∧
      t.inbuf = s.inbuf ∧ t.ph = s.ph ∧ t.ink = s.ink ∧ t.phidx = s.phidx ∧ t.dec = s.dec ∧ t.clk = s.clk ∧
      t.err = s.err ∧ t.perr = s.perr ∧ t.p2err = s.p2err ∧ t.fr = s.fr ∧ t.pfr = s.pfr ∧ t.df = s.df ∧
      t.tstamp = s.tstamp

/-- DESCR: the feedback bit is scr[0] xor scr[14] before the shift; the word shifts left by one with the feedback bit in bit 0; the
soft bit is inverted when the feedback bit is 1; nothing else changes. -/
def Obligations.DescrShiftsAndConditionallyInverts : Prop :=
  ∀ s : State, ∃ t, exec .descr s = .next t ∧
    t.scr.getLsbD 0 = (s.scr.getLsbD 0 ^^ s.scr.getLsbD 14) ∧
    (∀ i, i < 15 → t.scr.getLsbD (i + 1) = s.scr.getLsbD i) ∧
    ((s.scr.getLsbD 0 ^^ s.scr.getLsbD 14) = true → t.wires.v = s.cfg.num.sub .one s.wires.sv) ∧
    ((s.scr.getLsbD 0 ^^ s.scr.getLsbD 14) = false → t.wires.v = s.wires.sv) ∧
    (s.cfg.num.arith = .exact →
      ((s.scr.getLsbD 0 ^^ s.scr.getLsbD 14) = true → t.wires.v.toReal = 1 - s.wires.sv.toReal) ∧
      (0 ≤ s.wires.sv.toReal → s.wires.sv.toReal ≤ 1 → 0 ≤ t.wires.v.toReal ∧ t.wires.v.toReal ≤ 1)) ∧
    t = { s with scr := t.scr, wires := { s.wires with v := t.wires.v } }

/-- The descrambler is its own inverse with the same seed (exact arithmetic), does not depend on bit 15 of the seed, and passes every
bit through when the low 15 bits are 0. -/
def Obligations.DescramblerIsSelfInverse : Prop :=
  ∀ (n : Numerics) (scr : BitVec 16) (vs : List Scalar),
    (n.arith = .exact → (descramble n scr (descramble n scr vs)).map Scalar.toReal = vs.map Scalar.toReal) ∧
    (∀ scr' : BitVec 16, scr'.extractLsb' 0 15 = scr.extractLsb' 0 15 → descramble n scr' vs = descramble n scr vs) ∧
    (scr.extractLsb' 0 15 = 0 → descramble n scr vs = vs)

/-- While a header is received, the raw soft bits given to PUTBIT reach the FEC decoder descrambled, each with its position, and the
core stays in HEADER up to the 24th. -/
def Obligations.HeaderBitsReachTheDecoderDescrambled : Prop :=
  ∀ (s : State) (vs : List Scalar), s.state = .header → s.nbits.toNat + vs.length ≤ 24 →
    ∃ t, runBits vs s = .next t ∧ t.state = .header ∧ t.nbits.toNat = s.nbits.toNat + vs.length ∧
      t.fecWin = s.fecWin ++ (descramble s.cfg.num s.scr vs).mapIdx
        (fun k v => (v, BitVec.ofNat 5 (s.nbits.toNat + k))) ∧
      t.out = s.out ++ (descramble s.cfg.num s.scr vs).mapIdx
        (fun k v => .fecPush v (BitVec.ofNat 5 (s.nbits.toNat + k))) ∧
      t = { s with nbits := t.nbits, scr := t.scr, fecWin := t.fecWin, out := t.out, wires := t.wires }

/-- BITDROP changes nothing; PUTBIT descrambles the bit and then drops it in IDLE, hands it to HDRBIT in HEADER and to DATABIT in
DATA. -/
def Obligations.PutbitDeliversByState : Prop :=
  ∀ s : State,
    exec .bitdrop s = .next s ∧
    (∃ u, exec .descr s = .next u ∧ u.state = s.state ∧
      (s.state = .idle → exec .putbit s = .next u) ∧
      (s.state = .header → exec .putbit s = exec .hdrbit u) ∧
      (s.state = .data → exec .putbit s = exec .databit u))

/-! ### Header -/

/-- HDRBIT: the bit is pushed with the count before it as its index and counted; before the 25th nothing else changes, on the 25th
HDRFIN runs. -/
def Obligations.HdrbitPushesAndCounts : Prop :=
  ∀ s : State, s.nbits.toNat < 25 → ∃ u : State,
    u.nbits.toNat = s.nbits.toNat + 1 ∧
    u.fecWin = s.fecWin ++ [(s.wires.v, s.nbits)] ∧ u.out = s.out ++ [.fecPush s.wires.v s.nbits] ∧
    u = { s with nbits := u.nbits, fecWin := u.fecWin, out := u.out } ∧
    (s.nbits.toNat < 24 → exec .hdrbit s = .next u) ∧
    (s.nbits.toNat = 24 → exec .hdrbit s = exec .hdrfin u)

/-- HDRFIN: it asks the decoder once and ends in the first of FAIL_CONF, FAIL_SHORT, FAIL_LONG that applies, with its EVENT, in IDLE
with variant 0 and the block registers as they were, or accepts the header; nothing else changes but the temporaries. -/
def Obligations.HdrfinValidatesInOrder : Prop :=
  ∀ (s : State) (vp : Scalar) (bits : BitVec 32) (len : BitVec 17), fecAnswer s = (vp, bits) → lengthField bits = len →
    ∃ t, exec .hdrfin s = .next t ∧ t.fecNext = none ∧
      (s.cfg.num.lt vp hdrConf = true →
        t = { s with state := .idle, off := 0, fecNext := none, wires := t.wires
                     out := s.out ++ [.fecFin vp bits, .event (.failConf vp)] }) ∧
      (s.cfg.num.lt vp hdrConf = false → len.toNat < 104 →
        t = { s with state := .idle, off := 0, fecNext := none, wires := t.wires
                     out := s.out ++ [.fecFin vp bits, .event (.failShort len)] }) ∧
      (s.cfg.num.lt vp hdrConf = false → 129480 ≤ len.toNat →
        t = { s with state := .idle, off := 0, fecNext := none, wires := t.wires
                     out := s.out ++ [.fecFin vp bits, .event (.failLong len 66)] }) ∧
      (s.cfg.num.lt vp hdrConf = false → 104 ≤ len.toNat → len.toNat ≤ 129479 →
        t.nbrow.toNat = len.toNat / 1992 + 1 ∧ t.nbbyte.toNat = (len.toNat % 1992 + 7) / 8 ∧
        t = { s with state := .data, nbrow := t.nbrow, nbbyte := t.nbbyte, row := 0, col := 0, nbits := 0, bits := 0
                     pr := .one, fecNext := none, wires := t.wires
                     out := s.out ++ [.fecFin vp bits, .event (.hdrOk len t.nbrow t.nbbyte)] })

/-- HD.CONF, HD.SHORT and HD.LONG: each raises its failure (EVENT, IDLE, variant 0) and answers fail when its condition holds, and
otherwise answers ok and changes nothing else; the threshold of HD.CONF is exactly 0.04 in every numerics record, and with exact
arithmetic a metric fails exactly below it; a row count is at most 66, and above 65 exactly for the lengths from 129480
on. -/
def Obligations.HeaderChecksRaiseTheirFailures : Prop :=
  ∀ s : State,
    hdrConf.toReal = 4 / 100 ∧
    (s.cfg.num.arith = .exact → (s.cfg.num.lt s.wires.vp hdrConf = true ↔ s.wires.vp.toReal < 4 / 100)) ∧
    (∀ len : BitVec 17, (geomRows len).toNat ≤ 66 ∧ ((geomRows len).toNat > 65 ↔ 129480 ≤ len.toNat)) ∧
    (∃ t, exec .hdConf s = .next t ∧
      (s.cfg.num.lt s.wires.vp hdrConf = true → t = { s with
        state := .idle, off := 0, out := s.out ++ [.event (.failConf s.wires.vp)], wires := { s.wires with ok := false } }) ∧
      (s.cfg.num.lt s.wires.vp hdrConf = false → t = { s with wires := { s.wires with ok := true } })) ∧
    (∃ t, exec .hdShort s = .next t ∧
      (s.wires.len.toNat < 104 → t = { s with
        state := .idle, off := 0, out := s.out ++ [.event (.failShort s.wires.len)], wires := { s.wires with ok := false } }) ∧
      (104 ≤ s.wires.len.toNat → t = { s with wires := { s.wires with ok := true } })) ∧
    (∃ t, exec .hdLong s = .next t ∧
      (s.wires.nr.toNat > 65 → t = { s with
        state := .idle, off := 0, out := s.out ++ [.event (.failLong s.wires.len s.wires.nr)]
        wires := { s.wires with ok := false } }) ∧
      (s.wires.nr.toNat ≤ 65 → t = { s with wires := { s.wires with ok := true } }))

/-- HD.LEN: bit i of `len` is bit 21 - i of `decoded_bits`, for i = 0..16; registers and memories are unchanged. -/
def Obligations.HdLenReversesTheLengthField : Prop :=
  ∀ s : State, ∃ t, exec .hdLen s = .next t ∧
    (∀ i, i ≤ 16 → t.wires.len.getLsbD i = s.wires.decodedBits.getLsbD (21 - i)) ∧
    t = { s with wires := { s.wires with len := t.wires.len } }

/-- HD.GEOM: the row count is len div 1992 + 1 and the last row's byte count (len mod 1992 + 7) div 8; registers and memories are
unchanged. -/
def Obligations.HdGeomDerivesTheGeometry : Prop :=
  ∀ s : State, ∃ t, exec .hdGeom s = .next t ∧
    t.wires.nr.toNat = s.wires.len.toNat / 1992 + 1 ∧
    t.wires.nb.toNat = (s.wires.len.toNat % 1992 + 7) / 8 ∧
    t = { s with wires := { s.wires with nr := t.wires.nr, nb := t.wires.nb } }

/-- HD.ACCEPT: the geometry is latched, the counters and the accumulators are reset, DATA is entered, one EVENT is emitted, and nothing
else changes. -/
def Obligations.HdAcceptEntersData : Prop :=
  ∀ s : State, ∃ t, exec .hdAccept s = .next t ∧
    t.nbrow = s.wires.nr ∧ t.nbbyte = s.wires.nb ∧ t.state = .data ∧ t.row = 0 ∧ t.col = 0 ∧ t.nbits = 0 ∧ t.bits = 0 ∧
    t.pr = .one ∧ t.out = s.out ++ [.event (.hdrOk s.wires.len s.wires.nr s.wires.nb)] ∧
    t = { s with
      nbrow := t.nbrow, nbbyte := t.nbbyte, state := t.state, row := t.row, col := t.col, nbits := t.nbits
      bits := t.bits, pr := t.pr, out := t.out }

/-- The accepted lengths are exactly 104 to 129479, and the geometry of an accepted length has 1 to 65 rows and at most 249 bytes in
the last, at least 13 when there is one row, and 0 only when there are two or more (43_header.md R199, which the spec derives from
R194 to R196). -/
def Obligations.AcceptedLengthsAndGeometry : Prop :=
  ∀ len : BitVec 17,
    (lenTooShort len = false ∧ rowsTooMany (geomRows len) = false ↔ 104 ≤ len.toNat ∧ len.toNat ≤ 129479) ∧
    (104 ≤ len.toNat → len.toNat ≤ 129479 →
      1 ≤ (geomRows len).toNat ∧ (geomRows len).toNat ≤ 65 ∧ (geomBytes len).toNat ≤ 249 ∧
      ((geomRows len).toNat = 1 → 13 ≤ (geomBytes len).toNat) ∧
      ((geomBytes len).toNat = 0 → 2 ≤ (geomRows len).toNat))

/-! ### Block -/

/-- DATABIT: a soft value above 0.5 sets bit `nbits` and multiplies the confidence by it, any other multiplies it by one minus it; the
bit is counted; with exact arithmetic the comparison and the products are those of the real numbers, so that a soft value in [0, 1]
at most halves the confidence and never raises it; before the eighth nothing else changes, on the eighth the byte is stored, the indices advance, and a complete
block is dispatched. -/
def Obligations.DatabitAssemblesTheByte : Prop :=
  ∀ s : State, s.nbits.toNat < 8 → ∃ u : State,
    u.nbits.toNat = s.nbits.toNat + 1 ∧
    (∀ p, p < 8 → u.bits.getLsbD p = (s.bits.getLsbD p || (decide (p = s.nbits.toNat) && s.cfg.num.gt s.wires.v (.rat (1 / 2))))) ∧
    (s.cfg.num.gt s.wires.v (.rat (1 / 2)) = true → u.pr = s.cfg.num.mul s.pr s.wires.v) ∧
    (s.cfg.num.gt s.wires.v (.rat (1 / 2)) = false → u.pr = s.cfg.num.mul s.pr (s.cfg.num.sub .one s.wires.v)) ∧
    (s.cfg.num.arith = .exact →
      (s.cfg.num.gt s.wires.v (.rat (1 / 2)) = true ↔ s.wires.v.toReal > 1 / 2) ∧
      (s.wires.v.toReal > 1 / 2 → u.pr.toReal = s.pr.toReal * s.wires.v.toReal) ∧
      (s.wires.v.toReal ≤ 1 / 2 → u.pr.toReal = s.pr.toReal * (1 - s.wires.v.toReal)) ∧
      (0 ≤ s.pr.toReal → 0 ≤ s.wires.v.toReal → s.wires.v.toReal ≤ 1 →
        s.pr.toReal / 2 ≤ u.pr.toReal ∧ u.pr.toReal ≤ s.pr.toReal)) ∧
    u = { s with nbits := u.nbits, bits := u.bits, pr := u.pr } ∧
    (s.nbits.toNat < 7 → exec .databit s = .next u) ∧
    (s.nbits.toNat = 7 → s.row.toNat < 65 → s.col.toNat < 255 →
      ∃ b a e : State, exec .bstore u = .next b ∧ exec .badv b = .next a ∧ exec .bdone a = .next e ∧
        (e.wires.done = true → exec .databit s = exec .dispatch e) ∧
        (e.wires.done = false → exec .databit s = .next e))

/-- BSTORE: at a cell inside the matrices, BLKD and BLKP hold the byte and its confidence there and every other cell is as before; the
accumulators are cleared, and nothing else changes. -/
def Obligations.BstoreStoresTheByteAndItsConfidence : Prop :=
  ∀ s : State, Memory.wf 0 s.blkd = true → Memory.wf .zero s.blkp = true → s.row.toNat < 65 → s.col.toNat < 255 →
    ∃ t, exec .bstore s = .next t ∧
      (∀ r c, c < 255 → blkdAt t r c = if r = s.row.toNat ∧ c = s.col.toNat then s.bits else blkdAt s r c) ∧
      (∀ r c, c < 255 → blkpAt t r c = if r = s.row.toNat ∧ c = s.col.toNat then s.pr else blkpAt s r c) ∧
      t.nbits = 0 ∧ t.bits = 0 ∧ t.pr = .one ∧
      t = { s with blkd := t.blkd, blkp := t.blkp, nbits := t.nbits, bits := t.bits, pr := t.pr }

/-- BADV: the row advances; when it reaches `nbrow`, or the last row is skipped, the row returns to 0 and the column advances, with the
jump to 249 of a one-row block; nothing else changes. -/
def Obligations.BadvAdvancesRowAndColumn : Prop :=
  ∀ s : State, s.row.toNat < 65 → s.col.toNat < 255 → ∃ t, exec .badv s = .next t ∧
    ((s.row.toNat + 1 = s.nbrow.toNat ∨
        (s.nbbyte.toNat ≤ s.col.toNat ∧ s.col.toNat < 249 ∧ s.row.toNat + 2 = s.nbrow.toNat)) →
      t.row = 0 ∧
      (s.nbrow.toNat = 1 ∧ s.col.toNat + 1 = s.nbbyte.toNat → t.col = 249) ∧
      (¬(s.nbrow.toNat = 1 ∧ s.col.toNat + 1 = s.nbbyte.toNat) → t.col.toNat = s.col.toNat + 1)) ∧
    (¬(s.row.toNat + 1 = s.nbrow.toNat ∨
        (s.nbbyte.toNat ≤ s.col.toNat ∧ s.col.toNat < 249 ∧ s.row.toNat + 2 = s.nbrow.toNat)) →
      t.row.toNat = s.row.toNat + 1 ∧ t.col = s.col) ∧
    t = { s with row := t.row, col := t.col }

/-- BDONE: the completion test; registers and memories are unchanged. -/
def Obligations.BdoneTestsCompletion : Prop :=
  ∀ s : State, 1 ≤ s.nbrow.toNat → ∃ t, exec .bdone s = .next t ∧
    (t.wires.done = true ↔
      s.col.toNat = 255 ∨
      (s.row.toNat = s.nbrow.toNat - 1 ∧
        ((s.nbbyte.toNat < 30 ∧ s.col.toNat = 251) ∨ (s.nbbyte.toNat < 68 ∧ s.col.toNat = 253)))) ∧
    t = { s with wires := { s.wires with done := t.wires.done } }

/-- DISPATCH emits the BLOCK with the contents the matrices have at that instant and the EVENT, and performs TOIDLE; TOIDLE writes
`state` and `off` only. -/
def Obligations.DispatchEmitsTheBlockAndReturnsToIdle : Prop :=
  ∀ s : State,
    (∃ t, exec .dispatch s = .next t ∧
      t.out = s.out ++ [.block s.nbrow s.nbbyte s.blkd s.blkp s.tstamp, .event .blockDone] ∧
      t.state = .idle ∧ t.off = 0 ∧ t = { s with state := t.state, off := t.off, out := t.out }) ∧
    (∃ t, exec .toidle s = .next t ∧ t.state = .idle ∧ t.off = 0 ∧ t = { s with state := t.state, off := t.off })

/-- The cells a block stores to: for every accepted geometry, N(R, B) bytes go one each to the cells of W(R, B), in ascending column
and ascending row within a column, completion holds after the last byte and after none before it, and the indices then stand at
(R - 1, 251), (R - 1, 253) or (0, 255) according to the size class (44_block.md R215, R218, which the spec derives from R212 and
R213). -/
def Obligations.BlockCellsAreTheWrittenSet : Prop :=
  ∀ (nbrow : BitVec 7) (nbbyte : BitVec 8), geometryAccepted nbrow nbbyte →
    (∀ n, n < blockBytes nbrow.toNat nbbyte.toNat →
      writtenCell nbrow.toNat nbbyte.toNat (cellOfByte nbrow nbbyte n).1.toNat (cellOfByte nbrow nbbyte n).2.toNat ∧
      (cellOfByte nbrow nbbyte n).1.toNat < nbrow.toNat ∧ (cellOfByte nbrow nbbyte n).2.toNat ≤ 254 ∧
      (0 < n → blockComplete nbrow nbbyte (cellOfByte nbrow nbbyte n).1 (cellOfByte nbrow nbbyte n).2 = false)) ∧
    blockComplete nbrow nbbyte (cellOfByte nbrow nbbyte (blockBytes nbrow.toNat nbbyte.toNat)).1
      (cellOfByte nbrow nbbyte (blockBytes nbrow.toNat nbbyte.toNat)).2 = true ∧
    ((cellOfByte nbrow nbbyte (blockBytes nbrow.toNat nbbyte.toNat)).1.toNat,
      (cellOfByte nbrow nbbyte (blockBytes nbrow.toNat nbbyte.toNat)).2.toNat) =
      (if overheadCols nbbyte.toNat < 6 then (nbrow.toNat - 1, 249 + overheadCols nbbyte.toNat) else (0, 255)) ∧
    (∀ m n, m < n → n < blockBytes nbrow.toNat nbbyte.toNat →
      (cellOfByte nbrow nbbyte m).2.toNat < (cellOfByte nbrow nbbyte n).2.toNat ∨
      ((cellOfByte nbrow nbbyte m).2 = (cellOfByte nbrow nbbyte n).2 ∧
        (cellOfByte nbrow nbbyte m).1.toNat < (cellOfByte nbrow nbbyte n).1.toNat)) ∧
    (∀ r c, writtenCell nbrow.toNat nbbyte.toNat r c →
      ∃ n, n < blockBytes nbrow.toNat nbbyte.toNat ∧
        (cellOfByte nbrow nbbyte n).1.toNat = r ∧ (cellOfByte nbrow nbbyte n).2.toNat = c)

/-- From HD.ACCEPT on, with any soft bits, the block assembler stays in DATA and emits nothing for 8 N(R, B) - 1 bits, and with the
last it emits one BLOCK with its EVENT and is in IDLE with variant 0. -/
def Obligations.BlockIsDispatchedAfterItsBits : Prop :=
  ∀ (s : State) (vs : List Scalar), s.state = .data → s.nbits = 0 → s.row = 0 → s.col = 0 →
    geometryAccepted s.nbrow s.nbbyte →
    (vs.length < 8 * blockBytes s.nbrow.toNat s.nbbyte.toNat →
      ∃ t, runBits vs s = .next t ∧ t.state = .data ∧ t.out = s.out ∧ t.nbits.toNat = vs.length % 8 ∧
        (t.row, t.col) = cellOfByte s.nbrow s.nbbyte (vs.length / 8)) ∧
    (vs.length = 8 * blockBytes s.nbrow.toNat s.nbbyte.toNat →
      ∃ t, runBits vs s = .next t ∧ t.state = .idle ∧ t.off = 0 ∧
        (t.row, t.col) = cellOfByte s.nbrow s.nbbyte (blockBytes s.nbrow.toNat s.nbbyte.toNat) ∧
        t.out = s.out ++ [.block s.nbrow s.nbbyte t.blkd t.blkp s.tstamp, .event .blockDone])

/-- After the bits of a block, from HD.ACCEPT on, BLKD holds the hard values of the descrambled soft bits: bit p of the n-th byte is the
hard value of soft bit 8 n + p, at the cell of the n-th byte. It speaks of BLKD after the run; that the dispatched BLOCK carries
these very contents is a clause of `BlockIsDispatchedAfterItsBits`. -/
def Obligations.DispatchedBlockHoldsTheDescrambledBits : Prop :=
  ∀ (s : State) (vs : List Scalar), s.state = .data → s.nbits = 0 → s.bits = 0 → s.row = 0 → s.col = 0 →
    geometryAccepted s.nbrow s.nbbyte → Memory.wf 0 s.blkd = true →
    vs.length = 8 * blockBytes s.nbrow.toNat s.nbbyte.toNat →
    ∃ t, runBits vs s = .next t ∧
      ∀ n p, n < blockBytes s.nbrow.toNat s.nbbyte.toNat → p < 8 →
        (blkdAt t (cellOfByte s.nbrow s.nbbyte n).1.toNat (cellOfByte s.nbrow s.nbbyte n).2.toNat).getLsbD p =
          hardOne s.cfg.num ((descramble s.cfg.num s.scr vs).getD (8 * n + p) .zero)

/-! ### The step -/

/-- STEP without a filter tick stores the sample, advances `ink` and toggles `dec`, and nothing else changes but the tick; with one it
goes on to FDISP with the sample stored, the filter output's angle appended and handed on. FDISP runs SYNC in IDLE, and otherwise
SCLK, which below its last count only counts. -/
def Obligations.StepFollowsTheSchedule : Prop :=
  ∀ s : State,
    (Memory.wf Cplx.zero s.inbuf = true → s.dec = 0 → ∃ t, exec .step s = .next t ∧
      (∀ i, Memory.read Cplx.zero t.inbuf i =
        if i = s.ink % s.cfg.ntap then s.wires.x else Memory.read Cplx.zero s.inbuf i) ∧
      t.ink = (s.ink + 1) % s.cfg.ntap ∧ t.dec = 1 ∧
      t = { s with inbuf := t.inbuf, ink := t.ink, dec := t.dec, wires := { s.wires with tick := 0 } }) ∧
    (s.dec = 1 → s.off < s.cfg.noff → ∃ a b c u : State,
      exec .spush s = .next a ∧ exec .dtick a = .next b ∧ exec .mfilt b = .next c ∧ exec .phase c = .next u ∧
      u.state = s.state ∧ u.dec = 0 ∧ exec .step s = exec .fdisp u) ∧
    (s.state = .idle → ∃ t, exec .fdisp s = .next t ∧ exec .sync s = .next t) ∧
    (s.state ≠ .idle → exec .fdisp s = exec .sclk s ∧
      (s.clk.toNat < 7 → ∃ t, exec .fdisp s = .next t ∧ t.clk.toNat = s.clk.toNat + 1 ∧ t = { s with clk := t.clk }))

/-- Every step on a SAMPLE, FEC or PUTBIT line takes at most one transition of the state graph, and emits exactly the EVENT of the
transition it takes: none without one (60_exceptions.md R242, which the spec derives from R125, R171, R179 and R198). -/
def Obligations.AtMostOneTransitionPerStep : Prop :=
  ∀ (s t : State) (line : Stimulus) (rest : List Stimulus), s.inq = line :: rest → line.hardware → line ≠ .reset →
    step s = .next t →
    (t.state = s.state ∧ eventsOf t.out = []) ∨
    (s.state = .idle ∧ t.state = .header ∧ s.dec = 1 ∧ s.cfg.num.lt s.perr (.rat 4) = true ∧
      s.cfg.num.gt t.err s.perr = true ∧
      ∃ fracOff clk off df, eventsOf t.out = [.acq fracOff clk off df]) ∨
    (s.state = .header ∧ t.state = .idle ∧ ∃ e : Event, e.isFailure = true ∧ eventsOf t.out = [e]) ∨
    (s.state = .header ∧ t.state = .data ∧ ∃ len, eventsOf t.out = [.hdrOk len t.nbrow t.nbbyte]) ∨
    (s.state = .data ∧ t.state = .idle ∧ eventsOf t.out = [.blockDone] ∧
      ∃ blkd blkp, Output.block s.nbrow s.nbbyte blkd blkp s.tstamp ∈ t.out)

/-- No step of any kind changes the configuration, and no step on a line other than RESET or an injected operation changes the
geometry of a block in progress or its timestamp. -/
def Obligations.TablesAndGeometryAreImmutable : Prop :=
  ∀ s t : State, step s = .next t →
    t.cfg = s.cfg ∧
    (∀ line rest, s.inq = line :: rest → line.hardware → line ≠ .reset → s.state = .data →
      t.nbrow = s.nbrow ∧ t.nbbyte = s.nbbyte ∧ t.tstamp = s.tstamp)

/-- From every state with the invariant, a step on any line the hardware can receive gives a state with the invariant. -/
def Obligations.StepKeepsTheInvariant : Prop :=
  ∀ (s t : State), SafeState s → (∀ line rest, s.inq = line :: rest → line.hardware) → step s = .next t → SafeState t

/-- The machine after reset has the invariant, and so has any machine right after a RESET. -/
def Obligations.ResetHasTheInvariant : Prop :=
  SafeState State.reset ∧ ∀ s t : State, exec .reset s = .next t → SafeState t

/-- From every state with the invariant, a step on any finite line the hardware can receive answers a next state: it neither faults
nor refuses. In particular every store of a block is inside the matrices. -/
def Obligations.StepNeverStopsFromTheInvariant : Prop :=
  ∀ (s : State) (line : Stimulus) (rest : List Stimulus), SafeState s → s.inq = line :: rest → line.hardware → line.finite →
    ∃ t, step s = .next t
end

