-- ==== Sys2Proof/Laws/Scalar.lean ====
section
/-! SUPPORT. The exact operations are those of the real numbers, an enclosure holds the real number it encloses, and the order, the
integer part and the rounding of numbers are those of the real numbers. -/

namespace Sys2Proof

/-! ### Polynomials in pi -/

@[simp] theorem Poly.toReal_nil : Poly.toReal [] = 0 := rfl
@[simp] theorem Poly.toReal_cons (c : Rat) (cs : List Rat) :
    Poly.toReal (c :: cs) = (c : ℝ) + Real.pi * Poly.toReal cs := rfl

@[simp] theorem Poly.toReal_trim (p : List Rat) : Poly.toReal (Poly.trim p) = Poly.toReal p := by
  induction p with
  | nil => rfl
  | cons c cs ih =>
    rw [Poly.toReal_cons, ← ih, Poly.trim]
    rcases Poly.trim cs with _ | ⟨d, ds⟩
    · by_cases hc : c = 0 <;> simp [hc]
    · rfl

@[simp] theorem Poly.toReal_add (p q : List Rat) : Poly.toReal (Poly.add p q) = Poly.toReal p + Poly.toReal q := by
  induction p, q using Poly.add.induct with
  | case1 q => simp [Poly.add]
  | case2 p h => cases p <;> simp [Poly.add]
  | case3 a p b q ih => simp [Poly.add, ih]; ring

@[simp] theorem Poly.toReal_scale (c : Rat) (p : List Rat) : Poly.toReal (Poly.scale c p) = c * Poly.toReal p := by
  induction p with
  | nil => simp [Poly.scale]
  | cons a p ih => simp only [Poly.scale, List.map_cons, Poly.toReal_cons] at ih ⊢; rw [ih]; push_cast; ring

@[simp] theorem Poly.toReal_mul (p q : List Rat) : Poly.toReal (Poly.mul p q) = Poly.toReal p * Poly.toReal q := by
  induction p with
  | nil => simp [Poly.mul]
  | cons a p ih => simp [Poly.mul, ih]; ring

theorem Poly.toReal_of_ratio {p q : List Rat} {c : Rat} (h : Poly.ratio p q = some c) :
    Poly.toReal p = c * Poly.toReal q := by
  unfold Poly.ratio at h
  split at h
  · cases h
  · dsimp only at h
    generalize (if p.length = q.length then _ else _ : Rat) = d at h
    split at h
    · next hp =>
      obtain rfl := Option.some.inj h
      rw [hp, Poly.toReal_trim, Poly.toReal_scale]
    · cases h

/-! ### The exact operations -/

@[simp] theorem Scalar.toReal_poly (p : List Rat) : (Scalar.poly p).toReal = Poly.toReal p := rfl

@[simp] theorem Scalar.toReal_rat (q : Rat) : (Scalar.rat q).toReal = q := by
  simp [Scalar.rat]

@[simp] theorem Scalar.toReal_add (a b : Scalar) : (Scalar.add a b).toReal = a.toReal + b.toReal := by
  cases a <;> cases b <;> simp [Scalar.add, Scalar.toReal]

@[simp] theorem Scalar.toReal_sub (a b : Scalar) : (Scalar.sub a b).toReal = a.toReal - b.toReal := by
  cases a <;> cases b <;> simp [Scalar.sub, Scalar.toReal]
  ring

@[simp] theorem Scalar.toReal_mul (a b : Scalar) : (Scalar.mul a b).toReal = a.toReal * b.toReal := by
  cases a <;> cases b <;> simp [Scalar.mul, Scalar.toReal]

theorem Poly.toReal_div {q : List Rat} (hq : Poly.toReal q ≠ 0) (p : List Rat) :
    (Poly.div p q).toReal = Poly.toReal p / Poly.toReal q := by
  unfold Poly.div
  split
  · next c hc => rw [Scalar.toReal_rat, Poly.toReal_of_ratio hc]; field_simp
  · split
    · next d _ => simp; ring
    · simp [Scalar.toReal, hq]

theorem Scalar.toReal_div {b : Scalar} (hb : b.toReal ≠ 0) (a : Scalar) :
    (Scalar.div a b).toReal = a.toReal / b.toReal := by
  unfold Scalar.div
  split
  · next p q =>
    rw [Scalar.toReal_poly] at hb
    rw [Poly.toReal_div (by rwa [Poly.toReal_trim]), Poly.toReal_trim, Scalar.toReal_poly, Scalar.toReal_poly]
  · simp [Scalar.toReal, hb]

theorem Scalar.toReal_of_rational? {a : Scalar} {q : Rat} (h : a.rational? = some q) : a.toReal = q := by
  unfold Scalar.rational? at h
  split at h
  · obtain rfl := Option.some.inj h; simp
  · obtain rfl := Option.some.inj h; simp
  · cases h

@[simp] theorem Scalar.rational?_rat (q : Rat) : (Scalar.rat q).rational? = some q := by
  by_cases h : q = 0 <;> simp [Scalar.rat, Poly.trim, h, Scalar.rational?]

@[simp] theorem Scalar.rat_zero : Scalar.rat 0 = .zero := by simp [Scalar.rat, Poly.trim]
@[simp] theorem Scalar.rat_one : Scalar.rat 1 = .one := by simp [Scalar.rat, Poly.trim]

/-! ### Enclosures -/

/-- The real number lies in the interval. -/
def Ival.Has (x : Ival) (r : ℝ) : Prop := (x.lo : ℝ) ≤ r ∧ r ≤ x.hi

theorem Ival.Has.le {x : Ival} {r : ℝ} (h : x.Has r) : x.lo ≤ x.hi := by
  have := le_trans h.1 h.2
  exact_mod_cast this

theorem Ival.Has.point (q : Rat) : (Ival.point q).Has q := ⟨le_refl _, le_refl _⟩

theorem Ival.Has.add {x y : Ival} {r t : ℝ} (hx : x.Has r) (hy : y.Has t) : (Ival.add x y).Has (r + t) := by
  constructor <;> simp only [Ival.add, Rat.cast_add]
  · linarith [hx.1, hy.1]
  · linarith [hx.2, hy.2]

theorem Ival.Has.sub {x y : Ival} {r t : ℝ} (hx : x.Has r) (hy : y.Has t) : (Ival.sub x y).Has (r - t) := by
  constructor <;> simp only [Ival.sub, Rat.cast_sub]
  · linarith [hx.1, hy.2]
  · linarith [hx.2, hy.1]

/-- A product of which one factor is between two bounds is between the products with them. -/
theorem mul_between {a b r : ℝ} (ha : a ≤ r) (hb : r ≤ b) (t : ℝ) : min (a * t) (b * t) ≤ r * t ∧ r * t ≤ max (a * t) (b * t) := by
  rcases le_total 0 t with h | h
  · exact ⟨le_trans (min_le_left _ _) (mul_le_mul_of_nonneg_right ha h),
      le_trans (mul_le_mul_of_nonneg_right hb h) (le_max_right _ _)⟩
  · exact ⟨le_trans (min_le_right _ _) (mul_le_mul_of_nonpos_right hb h),
      le_trans (mul_le_mul_of_nonpos_right ha h) (le_max_left _ _)⟩

theorem Ival.Has.mul {x y : Ival} {r t : ℝ} (hx : x.Has r) (hy : y.Has t) : (Ival.mul x y).Has (r * t) := by
  have h := mul_between hx.1 hx.2 t
  have hl := mul_between hy.1 hy.2 (x.lo : ℝ)
  have hh := mul_between hy.1 hy.2 (x.hi : ℝ)
  simp only [mul_comm _ (x.lo : ℝ), mul_comm _ (x.hi : ℝ)] at hl hh
  constructor <;> simp only [Ival.mul, Rat.cast_min, Rat.cast_max, Rat.cast_mul]
  · exact le_trans (min_le_min hl.1 hh.1) h.1
  · exact le_trans h.2 (max_le_max hl.2 hh.2)

theorem Ival.Has.inv {x z : Ival} {r : ℝ} (hx : x.Has r) (h : x.inv = some z) : r ≠ 0 ∧ z.Has r⁻¹ := by
  unfold Ival.inv at h
  split at h
  · next hc =>
    obtain rfl := Option.some.inj h
    obtain ⟨h1, h2⟩ := hx
    simp only [Ival.Has, one_div, Rat.cast_inv]
    rcases hc with hc | hc
    · have hc : (0 : ℝ) < x.lo := by exact_mod_cast hc
      exact ⟨by linarith, inv_anti₀ (by linarith) h2, inv_anti₀ hc h1⟩
    · have hc : (x.hi : ℝ) < 0 := by exact_mod_cast hc
      refine ⟨by linarith, ?_, ?_⟩
      · exact (inv_le_inv_of_neg (by linarith) (by linarith)).2 h2
      · exact (inv_le_inv_of_neg (by linarith) (by linarith)).2 h1
  · cases h

theorem Ival.Has.coarsen {x : Ival} {r : ℝ} (hx : x.Has r) : (Ival.coarsen x).Has r := by
  have h (q : Rat) : ((q * 2 ^ 80).floor : Rat) / 2 ^ 80 ≤ q := by
    rw [div_le_iff₀ (by positivity)]; exact Int.floor_le (q * 2 ^ 80)
  have h1 : x.coarsen.lo ≤ x.lo := h x.lo
  have h2 : x.hi ≤ x.coarsen.hi := le_neg_of_le_neg (h (-x.hi))
  exact ⟨le_trans (by exact_mod_cast h1) hx.1, le_trans hx.2 (by exact_mod_cast h2)⟩

theorem Ival.Has.pi : Ival.pi.Has Real.pi := by
  constructor <;> norm_num [Ival.pi]
  · linarith [Real.pi_gt_d20]
  · linarith [Real.pi_lt_d20]

/-- The partial sums of the series of the arc tangent, on the real numbers. -/
noncomputable def atanSumReal (x : ℝ) : ℕ → ℝ
  | 0 => 0
  | n + 1 => atanSumReal x n + (-1) ^ n * x ^ (2 * n + 1) / (2 * n + 1)

theorem atanSumReal_cast (u : Rat) (n : ℕ) : atanSumReal u n = (atanSum u n : ℝ) := by
  induction n with
  | zero => simp [atanSumReal, atanSum]
  | succ n ih => simp [atanSumReal, atanSum, ih]

theorem hasDerivAt_atanSumReal (x : ℝ) (n : ℕ) :
    HasDerivAt (fun y => atanSumReal y n) ((1 - (-1) ^ n * x ^ (2 * n)) / (1 + x ^ 2)) x := by
  induction n with
  | zero => simpa [atanSumReal] using hasDerivAt_const x (0 : ℝ)
  | succ n ih =>
    have hp : (1 + x ^ 2) ≠ 0 := by positivity
    have hn : ((2 * n + 1 : ℕ) : ℝ) ≠ 0 := by positivity
    have h := ih.add (((hasDerivAt_pow (2 * n + 1) x).const_mul ((-1 : ℝ) ^ n)).div_const (2 * (n : ℝ) + 1))
    refine h.congr_deriv ?_
    push_cast at hn ⊢
    field_simp
    ring

/-- The error of a partial sum of the series of the arc tangent is at most the next term. -/
theorem abs_arctan_sub_sum_le (x : ℝ) (n : ℕ) :
    |Real.arctan x - atanSumReal x n| ≤ |x| ^ (2 * n + 1) / (2 * n + 1) := by
  have hn : (2 * (n : ℝ) + 1) ≠ 0 := by positivity
  have key (s : ℝ) (hs : |s| = 1) (x : ℝ) (hx : 0 ≤ x) :
      0 ≤ x ^ (2 * n + 1) / (2 * n + 1) + s * (Real.arctan x - atanSumReal x n) := by
    have hd (y : ℝ) : HasDerivAt (fun y => y ^ (2 * n + 1) / (2 * (n : ℝ) + 1) + s * (Real.arctan y - atanSumReal y n))
        (y ^ (2 * n) + s * ((-1) ^ n * y ^ (2 * n) / (1 + y ^ 2))) y := by
      have h := ((hasDerivAt_pow (2 * n + 1) y).div_const (2 * (n : ℝ) + 1)).add
        (((Real.hasDerivAt_arctan y).sub (hasDerivAt_atanSumReal y n)).const_mul s)
      refine h.congr_deriv ?_
      have hp : (1 + y ^ 2) ≠ 0 := by positivity
      push_cast
      field_simp
      ring
    have hm : Monotone (fun y => y ^ (2 * n + 1) / (2 * (n : ℝ) + 1) + s * (Real.arctan y - atanSumReal y n)) := by
      refine monotone_of_deriv_nonneg (fun y => (hd y).differentiableAt) fun y => ?_
      rw [(hd y).deriv]
      have hy : 0 ≤ y ^ (2 * n) := by rw [pow_mul]; positivity
      have hb : |s * ((-1) ^ n * y ^ (2 * n) / (1 + y ^ 2))| ≤ y ^ (2 * n) := by
        rw [abs_mul, hs, one_mul, abs_div, abs_mul, abs_pow, abs_neg, abs_one, one_pow, one_mul, abs_of_nonneg hy,
          abs_of_pos (by positivity : 0 < 1 + y ^ 2)]
        exact div_le_self hy (by nlinarith [sq_nonneg y])
      linarith [(abs_le.1 hb).1]
    have h0 := hm hx
    have hz (m : ℕ) : atanSumReal 0 m = 0 := by
      induction m with
      | zero => rfl
      | succ m ih => simp [atanSumReal, ih]
    simpa [hz] using h0
  have odd : atanSumReal (-x) n = -atanSumReal x n := by
    clear key
    induction n with
    | zero => simp [atanSumReal]
    | succ n ih =>
      have : (-x) ^ (2 * n + 1) = -x ^ (2 * n + 1) := Odd.neg_pow ⟨n, rfl⟩ x
      simp only [atanSumReal, ih (by positivity), this]
      ring
  rcases le_total 0 x with h | h
  · rw [abs_of_nonneg h, abs_le]
    have h1 := key 1 (by simp) x h
    have h2 := key (-1) (by simp) x h
    constructor <;> linarith
  · rw [abs_of_nonpos h, abs_le]
    have h1 := key 1 (by simp) (-x) (by linarith)
    have h2 := key (-1) (by simp) (-x) (by linarith)
    rw [Real.arctan_neg, odd] at h1 h2
    constructor <;> linarith

theorem Ival.Has.atanSeries (u : Rat) : (Ival.atanSeries u).Has (Real.arctan u) := by
  refine Ival.Has.coarsen ?_
  have h := abs_le.1 (abs_arctan_sub_sum_le (u : ℝ) 26)
  rw [atanSumReal_cast] at h
  constructor <;> push_cast <;> norm_num at h ⊢ <;> linarith [h.1, h.2]

theorem Ival.Has.atanPos (t : Rat) : (Ival.atanPos t).Has (Real.arctan t) := by
  unfold Ival.atanPos
  split
  · exact Ival.Has.atanSeries t
  · next h1 =>
    have hq := (Ival.Has.point (1 / 4)).mul Ival.Has.pi
    have hh := (Ival.Has.point (1 / 2)).mul Ival.Has.pi
    have htr : (0 : ℝ) < t := by
      have : (0 : Rat) < t := by linarith
      exact_mod_cast this
    split
    · have h := hq.add (Ival.Has.atanSeries ((t - 1) / (t + 1)))
      convert h using 1
      have hadd := Real.arctan_add (x := 1) (y := ((t : ℝ) - 1) / (t + 1))
        (by rw [one_mul, div_lt_one (by linarith)]; linarith)
      rw [Real.arctan_one] at hadd
      have hval : (1 + ((t : ℝ) - 1) / (t + 1)) / (1 - 1 * (((t : ℝ) - 1) / (t + 1))) = t := by
        have : (t : ℝ) + 1 ≠ 0 := by linarith
        field_simp
        ring
      rw [hval] at hadd
      push_cast
      rw [← hadd]
      ring
    · have h := hh.sub (Ival.Has.atanSeries (1 / t))
      convert h using 1
      have := Real.arctan_inv_of_pos htr
      push_cast
      rw [one_div (t : ℝ), this]
      ring

theorem Ival.Has.atan (t : Rat) : (Ival.atan t).Has (Real.arctan t) := by
  unfold Ival.atan
  split
  · have := (Ival.Has.point 0).sub (Ival.Has.atanPos (-t))
    convert this using 1
    push_cast
    rw [Real.arctan_neg]; ring
  · exact Ival.Has.atanPos t

/-- The angle of a complex number above the real axis. -/
theorem arg_of_im_pos {x y : ℝ} (hy : 0 < y) : Complex.arg ⟨x, y⟩ = Real.pi / 2 - Real.arctan (x / y) := by
  have hlo := Real.neg_pi_div_two_lt_arctan (x / y)
  have hhi := Real.arctan_lt_pi_div_two (x / y)
  have hr : 0 < Real.sqrt (1 + (x / y) ^ 2) := Real.sqrt_pos.2 (by positivity)
  have h := Complex.arg_mul_cos_add_sin_mul_I (r := y * Real.sqrt (1 + (x / y) ^ 2)) (by positivity)
    (θ := Real.pi / 2 - Real.arctan (x / y)) ⟨by linarith, by linarith⟩
  rw [← h]
  congr 1
  rw [← Complex.ofReal_cos, ← Complex.ofReal_sin, Real.cos_pi_div_two_sub, Real.sin_pi_div_two_sub, Real.sin_arctan,
    Real.cos_arctan]
  apply Complex.ext
  · simp
    field_simp
  · simp
    field_simp

/-- The angle of a complex number below the real axis. -/
theorem arg_of_im_neg {x y : ℝ} (hy : y < 0) : Complex.arg ⟨x, y⟩ = -(Real.pi / 2) - Real.arctan (x / y) := by
  have h := arg_of_im_pos (x := x) (y := -y) (by linarith)
  have hc : (⟨x, y⟩ : ℂ) = (starRingEnd ℂ) ⟨x, -y⟩ := by apply Complex.ext <;> simp
  have hne : Complex.arg ⟨x, -y⟩ ≠ Real.pi := by
    rw [h]
    have := Real.neg_pi_div_two_lt_arctan (x / -y)
    intro he; linarith
  rw [hc, Complex.arg_conj, if_neg hne, h, div_neg, Real.arctan_neg]
  ring

/-- The angle of a number on the real axis. -/
theorem arg_of_im_zero (x : ℝ) : Complex.arg ⟨x, 0⟩ = if x < 0 then Real.pi else 0 := by
  have hc : (⟨x, 0⟩ : ℂ) = (x : ℂ) := rfl
  rw [hc]
  split
  · next h => exact Complex.arg_ofReal_of_neg h
  · next h => exact Complex.arg_ofReal_of_nonneg (by linarith)

theorem Ival.Has.angle (x y : Rat) : (Ival.angle x y).Has (Complex.arg ⟨x, y⟩) := by
  unfold Ival.angle
  split
  · next hy =>
    rw [hy, Rat.cast_zero, arg_of_im_zero]
    by_cases hx : x < 0
    · rw [if_pos hx, if_pos (by exact_mod_cast hx)]; exact Ival.Has.pi
    · rw [if_neg hx, if_neg (by exact_mod_cast hx)]; simpa using Ival.Has.point 0
  · next hy =>
    split
    · next hp =>
      rw [arg_of_im_pos (by exact_mod_cast hp)]
      have h := ((Ival.Has.point (1 / 2)).mul Ival.Has.pi).sub (Ival.Has.atan (x / y))
      convert h using 1
      push_cast; ring
    · next hp =>
      have hn : y < 0 := lt_of_le_of_ne (not_lt.1 hp) hy
      rw [arg_of_im_neg (by exact_mod_cast hn)]
      have h := ((Ival.Has.point (-1 / 2)).mul Ival.Has.pi).sub (Ival.Has.atan (x / y))
      convert h using 1
      push_cast; ring

theorem Ival.Has.poly (p : List Rat) : (Ival.poly p).Has (Poly.toReal p) := by
  induction p with
  | nil => simpa [Ival.poly] using Ival.Has.point 0
  | cons c cs ih => exact (Ival.Has.point c).add (Ival.Has.pi.mul ih)

theorem Ival.Has.both {f : Ival → Ival → Ival} {g : ℝ → ℝ → ℝ} {a b : Option Ival} {r t : ℝ} {z : Ival}
    (hf : ∀ {x y}, Ival.Has x r → Ival.Has y t → (f x y).Has (g r t))
    (ha : ∀ x, a = some x → x.Has r) (hb : ∀ y, b = some y → y.Has t) (h : Ival.both f a b = some z) : z.Has (g r t) := by
  cases a <;> cases b <;> simp only [Ival.both, reduceCtorEq] at h
  obtain rfl := Option.some.inj h
  exact hf (ha _ rfl) (hb _ rfl)

/-- An enclosure holds the real number it encloses. -/
theorem Scalar.enclose_has : ∀ (a : Scalar) (x : Ival), a.enclose = some x → x.Has a.toReal
  | .poly p, x, h => by obtain rfl := Option.some.inj h; exact Ival.Has.poly p
  | .named n lo hi, x, h => by
    obtain rfl := Option.some.inj h
    simp only [Ival.Has, Scalar.toReal, Rat.cast_max]
    exact ⟨le_max_left _ _, max_le_max (le_refl _) (min_le_left _ _)⟩
  | .sum a b, x, h => Ival.Has.both Ival.Has.add (a.enclose_has) (b.enclose_has) h
  | .diff a b, x, h => Ival.Has.both Ival.Has.sub (a.enclose_has) (b.enclose_has) h
  | .prod a b, x, h => Ival.Has.both Ival.Has.mul (a.enclose_has) (b.enclose_has) h
  | .quot a b, x, h => by
    have hb : ∀ y, b.enclose.bind Ival.inv = some y → b.toReal ≠ 0 ∧ y.Has b.toReal⁻¹ := by
      intro y hy
      obtain ⟨z, hz, hy⟩ := Option.bind_eq_some_iff.1 hy
      exact (b.enclose_has z hz).inv hy
    have hne : b.toReal ≠ 0 := by
      cases he : b.enclose.bind Ival.inv with
      | none => cases ha : a.enclose <;> simp [Scalar.enclose, he, ha, Ival.both] at h
      | some y => exact (hb y he).1
    have := Ival.Has.both (g := fun r t => r * t) Ival.Has.mul a.enclose_has (fun y hy => (hb y hy).2) h
    simpa [Scalar.toReal, hne, div_eq_mul_inv] using this
  | .angle re im, x, h => by
    simp only [Scalar.enclose] at h
    split at h
    · next p q hp hq =>
      obtain rfl := Option.some.inj h
      simp only [Scalar.toReal, Scalar.toReal_of_rational? hp, Scalar.toReal_of_rational? hq]
      exact Ival.Has.angle p q
    · obtain rfl := Option.some.inj h
      have hpi := Ival.Has.pi.2
      simp only [Ival.Has, Scalar.toReal, Rat.cast_neg]
      exact ⟨by linarith [Complex.neg_pi_lt_arg ⟨re.toReal, im.toReal⟩],
        by linarith [Complex.arg_le_pi ⟨re.toReal, im.toReal⟩]⟩

theorem Scalar.toReal_lt_of_surelyBelow {a b : Scalar} (h : a.surelyBelow b = true) : a.toReal < b.toReal := by
  unfold Scalar.surelyBelow at h
  split at h
  · next x y hx hy =>
    have hxy : (x.hi : ℝ) < y.lo := by exact_mod_cast of_decide_eq_true h
    linarith [(a.enclose_has x hx).2, (b.enclose_has y hy).1]
  · cases h

theorem Scalar.toReal_le_of_surelyAtMost {a b : Scalar} (h : a.surelyAtMost b = true) : a.toReal ≤ b.toReal := by
  unfold Scalar.surelyAtMost at h
  split at h
  · next x y hx hy =>
    have hxy : (x.hi : ℝ) ≤ y.lo := by exact_mod_cast of_decide_eq_true h
    linarith [(a.enclose_has x hx).2, (b.enclose_has y hy).1]
  · cases h

/-! ### The order -/

@[simp] theorem truthOf_iff (p : Prop) : truthOf p = true ↔ p :=
  (theOnly (fun r => r = true ↔ p) (by classical exact ⟨decide p, by simp, fun y h => by simp [← h]⟩)).property.1

/-- The comparison is that of the real numbers (00_scope.md R10). -/
@[simp] theorem Scalar.lt_iff (a b : Scalar) : Scalar.lt a b = true ↔ a.toReal < b.toReal := by
  unfold Scalar.lt
  split
  · next h => simpa using Scalar.toReal_lt_of_surelyBelow h
  · split
    · next h => simpa using Scalar.toReal_le_of_surelyAtMost h
    · split
      · next h => simp [h]
      · simp

@[simp] theorem Scalar.lt_eq_false_iff (a b : Scalar) : Scalar.lt a b = false ↔ b.toReal ≤ a.toReal := by
  rw [← Bool.not_eq_true, Scalar.lt_iff, not_lt]

/-- The integer part is that of the real number. -/
@[simp] theorem Scalar.floor_eq (a : Scalar) : a.floor = ⌊a.toReal⌋ := by
  have hr : a.realFloor = ⌊a.toReal⌋ :=
    (theOnly (fun n : Int => n = ⌊a.toReal⌋) ⟨_, rfl, fun _ h => h⟩).property.1
  unfold Scalar.floor
  split
  · next x hx =>
    split
    · next hf =>
      obtain ⟨h1, h2⟩ := a.enclose_has x hx
      refine (Int.floor_eq_iff.2 ⟨?_, ?_⟩).symm
      · have : ((x.lo.floor : Rat) : ℝ) ≤ x.lo := by exact_mod_cast Int.floor_le x.lo
        push_cast at this; linarith
      · have : (x.hi : ℝ) < ((x.hi.floor + 1 : Rat) : ℝ) := by exact_mod_cast Int.lt_floor_add_one x.hi
        rw [← hf] at this; push_cast at this; linarith
    · exact hr
  · exact hr

/-- Rounding is that of the real numbers, ties away from zero (00_scope.md R14, D5). -/
@[simp] theorem Scalar.round_eq (a : Scalar) : a.round = roundReal a.toReal := by
  have hz : Scalar.lt a .zero = true ↔ a.toReal < 0 := by simp
  unfold Scalar.round roundReal
  by_cases h : a.toReal < 0
  · rw [if_pos (hz.2 h), if_pos h]; simp
  · rw [if_neg (mt hz.1 h), if_neg h]; simp

end Sys2Proof
end

