-- ==== Sys2Proof/Laws/Numerics.lean ====
section
/-! SUPPORT. What the checks of a configuration give, and the operations of the numerics record with exact arithmetic. -/

namespace Sys2Proof

/-! ### The constraints of a configuration (00_scope.md R8, R9) -/

theorem Config.checks (c : Config) :
    c.data.paramsValid = true ∧ c.data.shapesValid = true ∧ c.data.grayValid = true := by
  have h := c.ok
  simp only [ConfigData.valid, Bool.and_eq_true] at h
  exact ⟨h.1.1, h.1.2, h.2⟩

theorem Config.params (c : Config) :
    1 ≤ c.ntap ∧ c.noff % 2 = 1 ∧ 2 ≤ c.l ∧ c.l ≤ c.data.hdepth ∧ c.data.frnorm.positive = true := by
  have h := c.checks.1
  simp only [ConfigData.paramsValid, Bool.and_eq_true, decide_eq_true_eq] at h
  exact ⟨h.1.1.1.1, h.1.1.1.2, h.1.1.2, h.1.2, h.2⟩

theorem Config.ntap_pos (c : Config) : 0 < c.ntap := c.params.1
theorem Config.noff_pos (c : Config) : 0 < c.noff := by have := c.params.2.1; omega
theorem Config.two_le_l (c : Config) : 2 ≤ c.l := c.params.2.2.1
theorem Config.l_le_hdepth (c : Config) : c.l ≤ c.data.hdepth := c.params.2.2.2.1

/-- The default of FRNORM in closed form (00_scope.md R8, 41_sync.md R145). -/
theorem frnormDefault_eq (l : Nat) : frnormDefault l = l * (l ^ 2 - 1) / 12 := by
  have key (a : Rat) (m : Nat) : ((List.range m).map fun k : Nat => ((k : Rat) - a) * (k - a)).sum
      = m * (m - 1) * (2 * m - 1) / 6 - a * m * (m - 1) + m * a ^ 2 := by
    induction m with
    | zero => simp
    | succ m ih => rw [List.range_succ, List.map_append, List.sum_append, ih]; simp; ring
  show ((List.range l).map fun k : Nat => ((k : Rat) - ((l : Rat) - 1) / 2) * (k - ((l : Rat) - 1) / 2)).sum = _
  rw [key]
  ring

/-- FRNORM is positive (00_scope.md R8). -/
theorem Config.frnorm_pos (c : Config) : 0 < c.frnorm.toReal := by
  have h := c.params
  unfold Config.frnorm
  rcases hd : c.data.frnorm with _ | v
  · have hl : (2 : Rat) ≤ c.l := by exact_mod_cast c.two_le_l
    have : 0 < frnormDefault c.l := by rw [frnormDefault_eq]; exact div_pos (by nlinarith) (by norm_num)
    simpa using this
  · rw [hd] at h
    simpa [NormRule.positive] using h.2.2.2.2

theorem Config.l_mul_ovs_le_phlen (c : Config) : c.l * ovs ≤ c.phlen :=
  Nat.mul_le_mul_right ovs c.l_le_hdepth

theorem Config.phlen_pos (c : Config) : 0 < c.phlen := by
  have h := c.l_mul_ovs_le_phlen
  have := c.two_le_l
  simp only [ovs] at h
  omega

theorem Config.sw_length (c : Config) : c.data.sw.length = c.l := by
  have h := c.checks.2.1
  simp only [ConfigData.shapesValid, Bool.and_eq_true, decide_eq_true_eq] at h
  exact h.1.1.2

/-- The default element of a lookup, or an element of the list. -/
theorem getD_mem_or {α : Type} (l : List α) (i : Nat) (d : α) : l.getD i d = d ∨ l.getD i d ∈ l := by
  by_cases h : i < l.length
  · exact .inr (by rw [List.getD_eq_getElem _ _ h]; exact List.getElem_mem h)
  · exact .inl (List.getD_eq_default _ _ (by omega))

/-- Every GRAY entry is in [0, 1] (00_scope.md R9). -/
theorem Config.gray_range (c : Config) (t j : Nat) : 0 ≤ (c.gray t j).toReal ∧ (c.gray t j).toReal ≤ 1 := by
  have h := c.checks.2.2
  simp only [ConfigData.grayValid, List.all_eq_true] at h
  unfold Config.gray
  rcases getD_mem_or (c.data.gray.getD t []) j Scalar.zero with hj | hj
  · rw [hj]; simp
  · rcases getD_mem_or c.data.gray t [] with ht | ht
    · rw [ht] at hj; simp at hj
    · simpa using h _ ht _ hj

/-! ### Exact arithmetic -/

section
variable {n : Numerics} (h : n.arith = .exact)
include h

theorem Numerics.add_exact (a b : Scalar) : n.add a b = Scalar.add a b := by simp [Numerics.add, h]
theorem Numerics.sub_exact (a b : Scalar) : n.sub a b = Scalar.sub a b := by simp [Numerics.sub, h]
theorem Numerics.mul_exact (a b : Scalar) : n.mul a b = Scalar.mul a b := by simp [Numerics.mul, h]
theorem Numerics.div_exact (a b : Scalar) : n.div a b = Scalar.div a b := by simp [Numerics.div, h]
theorem Numerics.lt_exact (a b : Scalar) : n.lt a b = Scalar.lt a b := by simp [Numerics.lt, h]
theorem Numerics.gt_exact (a b : Scalar) : n.gt a b = Scalar.lt b a := by simp [Numerics.gt, h]
theorem Numerics.round_exact (a : Scalar) : n.round a = Scalar.round a := by simp [Numerics.round, h]
theorem Numerics.arg_exact (z : Cplx) : n.arg z = Scalar.arg z := by simp [Numerics.arg, h]

theorem Numerics.toReal_sum (l : List Scalar) : (n.sum l).toReal = (l.map Scalar.toReal).sum := by
  have key (l : List Scalar) (a : Scalar) : (l.foldl Scalar.add a).toReal = a.toReal + (l.map Scalar.toReal).sum := by
    induction l generalizing a with
    | nil => simp
    | cons x xs ih => rw [List.foldl_cons, ih, Scalar.toReal_add, List.map_cons, List.sum_cons]; ring
  simp [Numerics.sum, h, key]

end

end Sys2Proof
end

