-- ==== Sys2Proof/Laws/Confidence.lean ====
section
/-! SUPPORT. What DATABIT does to a confidence, with exact arithmetic (44_block.md R210, R217). -/

namespace Sys2Proof.Machine

/-- The hard value of a soft bit is 1 exactly when the soft bit is above 0.5, as a real number. -/
theorem hardOne_iff {n : Numerics} (h : n.arith = .exact) (v : Scalar) : hardOne n v = true ↔ 1 / 2 < v.toReal := by
  simp [hardOne, Numerics.gt_exact h]

/-- The confidence after a soft bit, as a real number: multiplied by V above 0.5 and by 1 - V otherwise. -/
theorem takeBit_pr_toReal {s : State} (h : s.cfg.num.arith = .exact) :
    (takeBit s).pr.toReal = s.pr.toReal *
      if 1 / 2 < s.wires.v.toReal then s.wires.v.toReal else 1 - s.wires.v.toReal := by
  unfold takeBit
  simp only [hardOne_iff h]
  split <;> simp [Numerics.mul_exact h, Numerics.sub_exact h]

/-- A soft bit in [0, 1] at most halves a confidence in [0, 1], and does not raise it. -/
theorem takeBit_pr_range {s : State} (h : s.cfg.num.arith = .exact) (h0 : 0 ≤ s.pr.toReal)
    (hv : 0 ≤ s.wires.v.toReal ∧ s.wires.v.toReal ≤ 1) :
    s.pr.toReal / 2 ≤ (takeBit s).pr.toReal ∧ (takeBit s).pr.toReal ≤ s.pr.toReal := by
  rw [takeBit_pr_toReal h]
  split <;> constructor <;> nlinarith

end Sys2Proof.Machine
end

