-- ==== Sys2Proof/Laws/Memory.lean ====
section
/-! SUPPORT. The laws of the memories: a read after a write, and the canonical form, which every write keeps. -/

namespace Sys2Proof.Machine

variable {α : Type} [DecidableEq α]

theorem Memory.wfFrom_mono {d : α} {lo lo' : Nat} (h : lo ≤ lo') :
    ∀ {m : Memory α}, Memory.wfFrom d lo' m = true → Memory.wfFrom d lo m = true
  | [], _ => rfl
  | (b, v) :: m, hm => by
    simp only [Memory.wfFrom, Bool.and_eq_true, decide_eq_true_eq] at hm ⊢
    exact ⟨⟨le_trans h hm.1.1, hm.1.2⟩, hm.2⟩

/-- Below the first index of a canonical memory every element reads as the default. -/
theorem Memory.read_of_lt {d : α} {lo a : Nat} (h : a < lo) :
    ∀ {m : Memory α}, Memory.wfFrom d lo m = true → Memory.read d m a = d
  | [], _ => rfl
  | (b, v) :: m, hm => by
    simp only [Memory.wfFrom, Bool.and_eq_true, decide_eq_true_eq] at hm
    have hb : a ≠ b := by omega
    simp only [Memory.read, hb, if_false]
    exact Memory.read_of_lt (by omega) hm.2

/-- A write keeps the canonical form. -/
theorem Memory.wfFrom_write {d v : α} {a : Nat} :
    ∀ {m : Memory α} {lo : Nat}, lo ≤ a → Memory.wfFrom d lo m = true →
      Memory.wfFrom d lo (Memory.write d m a v) = true
  | [], lo, ha, _ => by
    by_cases hv : v = d <;> simp [Memory.write, Memory.wfFrom, hv, ha]
  | (b, u) :: m, lo, ha, hm => by
    have hm' := hm
    simp only [Memory.wfFrom, Bool.and_eq_true, decide_eq_true_eq] at hm'
    obtain ⟨⟨hb, hu⟩, hrest⟩ := hm'
    unfold Memory.write
    split
    · next hlt =>
      split
      · exact hm
      · next hv =>
        simp only [Memory.wfFrom, Bool.and_eq_true, decide_eq_true_eq]
        exact ⟨⟨ha, hv⟩, ⟨⟨by omega, hu⟩, hrest⟩⟩
    · next hlt =>
      split
      · next heq =>
        split
        · exact Memory.wfFrom_mono (by omega) hrest
        · next hv =>
          simp only [Memory.wfFrom, Bool.and_eq_true, decide_eq_true_eq]
          exact ⟨⟨ha, hv⟩, heq ▸ hrest⟩
      · next hne =>
        simp only [Memory.wfFrom, Bool.and_eq_true, decide_eq_true_eq]
        exact ⟨⟨hb, hu⟩, Memory.wfFrom_write (by omega) hrest⟩

theorem Memory.wf_write {d v : α} {a : Nat} {m : Memory α} (h : Memory.wf d m = true) :
    Memory.wf d (Memory.write d m a v) = true :=
  Memory.wfFrom_write (Nat.zero_le a) h

theorem Memory.wf_empty {d : α} : Memory.wf d ([] : Memory α) = true := rfl

/-- Reading any element after a write, in a canonical memory. -/
theorem Memory.read_write_from {d v : α} {a x : Nat} :
    ∀ {m : Memory α} {lo : Nat}, Memory.wfFrom d lo m = true →
      Memory.read d (Memory.write d m a v) x = if x = a then v else Memory.read d m x
  | [], _, _ => by
    by_cases hv : v = d <;> by_cases hx : x = a <;> simp [Memory.write, Memory.read, hv, hx]
  | (b, u) :: m, lo, hm => by
    have hm' := hm
    simp only [Memory.wfFrom, Bool.and_eq_true, decide_eq_true_eq] at hm'
    obtain ⟨⟨_, _⟩, hrest⟩ := hm'
    unfold Memory.write
    split
    · next hlt =>
      split
      · next hv =>
        by_cases hx : x = a
        · subst hx
          simp only [if_true, Memory.read]
          rw [if_neg (by omega), hv]
          exact Memory.read_of_lt (by omega) hrest
        · simp [hx]
      · simp [Memory.read]
    · next hlt =>
      split
      · next heq =>
        subst heq
        split
        · next hv =>
          by_cases hx : x = a
          · subst hx
            simp only [if_true, hv]
            exact Memory.read_of_lt (by omega) hrest
          · simp [Memory.read, hx]
        · by_cases hx : x = a <;> simp [Memory.read, hx]
      · next hne =>
        simp only [Memory.read]
        by_cases hxb : x = b
        · subst hxb
          have : x ≠ a := fun h => hne h.symm
          simp [this]
        · simp only [hxb, if_false]
          exact Memory.read_write_from hrest

/-- A read after a write gives the value written, and a write leaves every other element alone. -/
theorem Memory.read_write {d v : α} {a x : Nat} {m : Memory α} (h : Memory.wf d m = true) :
    Memory.read d (Memory.write d m a v) x = if x = a then v else Memory.read d m x :=
  Memory.read_write_from h

/-- An entry after a write is the entry written or one that was there. -/
theorem Memory.mem_write {d v : α} {a : Nat} {e : Nat × α} :
    ∀ {m : Memory α}, e ∈ Memory.write d m a v → e = (a, v) ∨ e ∈ m
  | [], h => by
    by_cases hv : v = d
    · simp [Memory.write, hv] at h
    · simpa [Memory.write, hv] using h
  | (b, u) :: m, h => by
    unfold Memory.write at h
    split at h
    · split at h
      · exact .inr h
      · rcases List.mem_cons.1 h with h | h
        · exact .inl h
        · exact .inr h
    · split at h
      · split at h
        · exact .inr (List.mem_cons_of_mem _ h)
        · rcases List.mem_cons.1 h with h | h
          · exact .inl h
          · exact .inr (List.mem_cons_of_mem _ h)
      · rcases List.mem_cons.1 h with h | h
        · exact .inr (h ▸ List.mem_cons_self)
        · rcases Memory.mem_write h with h | h
          · exact .inl h
          · exact .inr (List.mem_cons_of_mem _ h)

omit [DecidableEq α] in
/-- What a memory reads as is the default or the element of one of its entries. -/
theorem Memory.read_cases {d : α} {a : Nat} :
    ∀ {m : Memory α}, Memory.read d m a = d ∨ (a, Memory.read d m a) ∈ m
  | [] => .inl rfl
  | (b, v) :: m => by
    unfold Memory.read
    split
    · next h => exact .inr (h ▸ List.mem_cons_self)
    · rcases Memory.read_cases (d := d) (a := a) (m := m) with h | h
      · exact .inl h
      · exact .inr (List.mem_cons_of_mem _ h)

end Sys2Proof.Machine
end

