-- ==== Sys2Proof/Laws/Ops.lean ====
section
/-! SUPPORT. What each shared operation can do, said once. -/

namespace Sys2Proof.Machine

@[simp] theorem Res.andThen_next (s : State) (f : State → Res) : Res.andThen (.next s) f = f s := rfl
@[simp] theorem Res.andThen_fault (e : Fault) (f : State → Res) : Res.andThen (.fault e) f = .fault e := rfl
@[simp] theorem Res.andThen_refused (e : Refusal) (f : State → Res) : Res.andThen (.refused e) f = .refused e := rfl

/-- A sequence answers a next state exactly when both of its parts do. -/
theorem Res.andThen_eq_next {r : Res} {f : State → Res} {t : State} :
    r.andThen f = .next t ↔ ∃ u, r = .next u ∧ f u = .next t := by
  cases r <;> simp [Res.andThen]

/-- A header check: it raises the failure and answers fail, or it answers ok and changes nothing else. -/
theorem check_cases (fails : Bool) (e : Event) (s : State) :
    (fails = true ∧ check fails e s = setOk false (raiseFailure e s)) ∨
    (fails = false ∧ check fails e s = setOk true s) := by
  cases fails <;> simp [check]

/-- TOIDLE changes `state` and `off` and nothing else (60_exceptions.md R238). -/
theorem toIdle_frame (s : State) :
    (toIdle s).state = .idle ∧ (toIdle s).off = 0 ∧ { toIdle s with state := s.state, off := s.off } = s :=
  ⟨rfl, rfl, rfl⟩

/-- Raising a failure emits its EVENT and performs TOIDLE, and nothing else (60_exceptions.md R236). -/
theorem raiseFailure_frame (e : Event) (s : State) :
    (raiseFailure e s).out = s.out ++ [.event e] ∧
      { raiseFailure e s with state := s.state, off := s.off, out := s.out } = s :=
  ⟨rfl, rfl⟩

/-- BSTORE answers a next state exactly when the cell is inside the matrices. -/
theorem execBstore_eq_next {s t : State} :
    execBstore s = .next t ↔
      (s.row.toNat < maxRow ∧ s.col.toNat < nCol) ∧
      t = { s with
        blkd := Memory.write 0 s.blkd (cellIndex s.row.toNat s.col.toNat) s.bits
        blkp := Memory.write .zero s.blkp (cellIndex s.row.toNat s.col.toNat) s.pr
        nbits := 0
        bits := 0
        pr := .one } := by
  unfold execBstore
  split
  · next h => simp only [Host.Outcome.next.injEq]; exact ⟨fun e => ⟨h, e.symm⟩, fun e => e.2.symm⟩
  · next h => simp [h]

/-- MFILT answers a next state exactly when the filter variant exists. -/
theorem execMfilt_eq_next {s t : State} :
    execMfilt s = .next t ↔
      s.off < s.cfg.noff ∧
      t = { s with wires := { s.wires with filtered := s.cfg.num.csum (filterTerms s) } } := by
  unfold execMfilt
  split
  · next h => simp only [Host.Outcome.next.injEq]; exact ⟨fun e => ⟨h, e.symm⟩, fun e => e.2.symm⟩
  · next h => simp [h]

/-- The index of a cell determines the cell. -/
theorem cellIndex_injective {r r' c c' : Nat} (hc : c < nCol) (hc' : c' < nCol)
    (h : cellIndex r c = cellIndex r' c') : r = r' ∧ c = c' := by
  simp only [cellIndex, nCol] at *
  omega

end Sys2Proof.Machine
end

