-- ==== Sys2Proof/Laws/PerInstr.lean ====
section
/-! SUPPORT. A statement about every instruction as syntax, one lemma per constructor: its canonical word has two bytes, is well
formed, and names its row by a number between 1 and 43. -/

namespace Sys2Proof.Laws

/-- The canonical word of an instruction is a well-formed word of two bytes, and its row number is one of the operation map
(30_encoding.md R98, R107). -/
def CanonicalWord.Statement (i : Instr) : Prop :=
  (encode i).length = 2 ∧ i.wf = true ∧ 1 ≤ i.rowNumber ∧ i.rowNumber ≤ 43

theorem CanonicalWord.reset : CanonicalWord.Statement .reset := ⟨rfl, by decide, by decide, by decide⟩
theorem CanonicalWord.spush : CanonicalWord.Statement .spush := ⟨rfl, by decide, by decide, by decide⟩
theorem CanonicalWord.dtick : CanonicalWord.Statement .dtick := ⟨rfl, by decide, by decide, by decide⟩
theorem CanonicalWord.mfilt : CanonicalWord.Statement .mfilt := ⟨rfl, by decide, by decide, by decide⟩
theorem CanonicalWord.phase : CanonicalWord.Statement .phase := ⟨rfl, by decide, by decide, by decide⟩
theorem CanonicalWord.sySample : CanonicalWord.Statement .sySample := ⟨rfl, by decide, by decide, by decide⟩
theorem CanonicalWord.syResid : CanonicalWord.Statement .syResid := ⟨rfl, by decide, by decide, by decide⟩
theorem CanonicalWord.syUnwrap : CanonicalWord.Statement .syUnwrap := ⟨rfl, by decide, by decide, by decide⟩
theorem CanonicalWord.syDc : CanonicalWord.Statement .syDc := ⟨rfl, by decide, by decide, by decide⟩
theorem CanonicalWord.syFit : CanonicalWord.Statement .syFit := ⟨rfl, by decide, by decide, by decide⟩
theorem CanonicalWord.syErr : CanonicalWord.Statement .syErr := ⟨rfl, by decide, by decide, by decide⟩
theorem CanonicalWord.syPeak : CanonicalWord.Statement .syPeak := ⟨rfl, by decide, by decide, by decide⟩
theorem CanonicalWord.syAcq : CanonicalWord.Statement .syAcq := ⟨rfl, by decide, by decide, by decide⟩
theorem CanonicalWord.syInterp : CanonicalWord.Statement .syInterp := ⟨rfl, by decide, by decide, by decide⟩
theorem CanonicalWord.sySplit : CanonicalWord.Statement .sySplit := ⟨rfl, by decide, by decide, by decide⟩
theorem CanonicalWord.syShift : CanonicalWord.Statement .syShift := ⟨rfl, by decide, by decide, by decide⟩
theorem CanonicalWord.sclk : CanonicalWord.Statement .sclk := ⟨rfl, by decide, by decide, by decide⟩
theorem CanonicalWord.dmDiff : CanonicalWord.Statement .dmDiff := ⟨rfl, by decide, by decide, by decide⟩
theorem CanonicalWord.dmCorr : CanonicalWord.Statement .dmCorr := ⟨rfl, by decide, by decide, by decide⟩
theorem CanonicalWord.dmQuant : CanonicalWord.Statement .dmQuant := ⟨rfl, by decide, by decide, by decide⟩
theorem CanonicalWord.dmGray : CanonicalWord.Statement .dmGray := ⟨rfl, by decide, by decide, by decide⟩
theorem CanonicalWord.descr : CanonicalWord.Statement .descr := ⟨rfl, by decide, by decide, by decide⟩
theorem CanonicalWord.bitdrop : CanonicalWord.Statement .bitdrop := ⟨rfl, by decide, by decide, by decide⟩
theorem CanonicalWord.hdrbit : CanonicalWord.Statement .hdrbit := ⟨rfl, by decide, by decide, by decide⟩
theorem CanonicalWord.hdrfin : CanonicalWord.Statement .hdrfin := ⟨rfl, by decide, by decide, by decide⟩
theorem CanonicalWord.hdConf : CanonicalWord.Statement .hdConf := ⟨rfl, by decide, by decide, by decide⟩
theorem CanonicalWord.hdLen : CanonicalWord.Statement .hdLen := ⟨rfl, by decide, by decide, by decide⟩
theorem CanonicalWord.hdShort : CanonicalWord.Statement .hdShort := ⟨rfl, by decide, by decide, by decide⟩
theorem CanonicalWord.hdGeom : CanonicalWord.Statement .hdGeom := ⟨rfl, by decide, by decide, by decide⟩
theorem CanonicalWord.hdLong : CanonicalWord.Statement .hdLong := ⟨rfl, by decide, by decide, by decide⟩
theorem CanonicalWord.hdAccept : CanonicalWord.Statement .hdAccept := ⟨rfl, by decide, by decide, by decide⟩
theorem CanonicalWord.databit : CanonicalWord.Statement .databit := ⟨rfl, by decide, by decide, by decide⟩
theorem CanonicalWord.bstore : CanonicalWord.Statement .bstore := ⟨rfl, by decide, by decide, by decide⟩
theorem CanonicalWord.badv : CanonicalWord.Statement .badv := ⟨rfl, by decide, by decide, by decide⟩
theorem CanonicalWord.bdone : CanonicalWord.Statement .bdone := ⟨rfl, by decide, by decide, by decide⟩
theorem CanonicalWord.dispatch : CanonicalWord.Statement .dispatch := ⟨rfl, by decide, by decide, by decide⟩
theorem CanonicalWord.dmUpd : CanonicalWord.Statement .dmUpd := ⟨rfl, by decide, by decide, by decide⟩
theorem CanonicalWord.toidle : CanonicalWord.Statement .toidle := ⟨rfl, by decide, by decide, by decide⟩
theorem CanonicalWord.step : CanonicalWord.Statement .step := ⟨rfl, by decide, by decide, by decide⟩
theorem CanonicalWord.fdisp : CanonicalWord.Statement .fdisp := ⟨rfl, by decide, by decide, by decide⟩
theorem CanonicalWord.sync : CanonicalWord.Statement .sync := ⟨rfl, by decide, by decide, by decide⟩
theorem CanonicalWord.demod : CanonicalWord.Statement .demod := ⟨rfl, by decide, by decide, by decide⟩
theorem CanonicalWord.putbit : CanonicalWord.Statement .putbit := ⟨rfl, by decide, by decide, by decide⟩

end Sys2Proof.Laws
end

