-- ==== Sys2Proof/Laws/State.lean ====
section
/-! SUPPORT. What each named update of the state does to each field, true by unfolding and tagged for simp, so that no later proof
unfolds a record update. -/

namespace Sys2Proof.Machine

/-! ### emit -/

@[simp] theorem emit_err (o : Output) (s : State) : (emit o s).err = s.err := rfl
@[simp] theorem emit_perr (o : Output) (s : State) : (emit o s).perr = s.perr := rfl
@[simp] theorem emit_p2err (o : Output) (s : State) : (emit o s).p2err = s.p2err := rfl
@[simp] theorem emit_fr (o : Output) (s : State) : (emit o s).fr = s.fr := rfl
@[simp] theorem emit_pfr (o : Output) (s : State) : (emit o s).pfr = s.pfr := rfl
@[simp] theorem emit_df (o : Output) (s : State) : (emit o s).df = s.df := rfl
@[simp] theorem emit_prevph (o : Output) (s : State) : (emit o s).prevph = s.prevph := rfl
@[simp] theorem emit_pr (o : Output) (s : State) : (emit o s).pr = s.pr := rfl
@[simp] theorem emit_state (o : Output) (s : State) : (emit o s).state = s.state := rfl
@[simp] theorem emit_dec (o : Output) (s : State) : (emit o s).dec = s.dec := rfl
@[simp] theorem emit_ink (o : Output) (s : State) : (emit o s).ink = s.ink := rfl
@[simp] theorem emit_phidx (o : Output) (s : State) : (emit o s).phidx = s.phidx := rfl
@[simp] theorem emit_clk (o : Output) (s : State) : (emit o s).clk = s.clk := rfl
@[simp] theorem emit_off (o : Output) (s : State) : (emit o s).off = s.off := rfl
@[simp] theorem emit_scr (o : Output) (s : State) : (emit o s).scr = s.scr := rfl
@[simp] theorem emit_nbits (o : Output) (s : State) : (emit o s).nbits = s.nbits := rfl
@[simp] theorem emit_bits (o : Output) (s : State) : (emit o s).bits = s.bits := rfl
@[simp] theorem emit_row (o : Output) (s : State) : (emit o s).row = s.row := rfl
@[simp] theorem emit_col (o : Output) (s : State) : (emit o s).col = s.col := rfl
@[simp] theorem emit_nbrow (o : Output) (s : State) : (emit o s).nbrow = s.nbrow := rfl
@[simp] theorem emit_nbbyte (o : Output) (s : State) : (emit o s).nbbyte = s.nbbyte := rfl
@[simp] theorem emit_tstamp (o : Output) (s : State) : (emit o s).tstamp = s.tstamp := rfl
@[simp] theorem emit_inbuf (o : Output) (s : State) : (emit o s).inbuf = s.inbuf := rfl
@[simp] theorem emit_ph (o : Output) (s : State) : (emit o s).ph = s.ph := rfl
@[simp] theorem emit_blkd (o : Output) (s : State) : (emit o s).blkd = s.blkd := rfl
@[simp] theorem emit_blkp (o : Output) (s : State) : (emit o s).blkp = s.blkp := rfl
@[simp] theorem emit_cfg (o : Output) (s : State) : (emit o s).cfg = s.cfg := rfl
@[simp] theorem emit_fecWin (o : Output) (s : State) : (emit o s).fecWin = s.fecWin := rfl
@[simp] theorem emit_fecNext (o : Output) (s : State) : (emit o s).fecNext = s.fecNext := rfl
@[simp] theorem emit_inq (o : Output) (s : State) : (emit o s).inq = s.inq := rfl
@[simp] theorem emit_out (o : Output) (s : State) : (emit o s).out = s.out ++ [o] := rfl
@[simp] theorem emit_wires (o : Output) (s : State) : (emit o s).wires = s.wires := rfl

/-! ### fecReset -/

@[simp] theorem fecReset_err (s : State) : (fecReset s).err = s.err := rfl
@[simp] theorem fecReset_perr (s : State) : (fecReset s).perr = s.perr := rfl
@[simp] theorem fecReset_p2err (s : State) : (fecReset s).p2err = s.p2err := rfl
@[simp] theorem fecReset_fr (s : State) : (fecReset s).fr = s.fr := rfl
@[simp] theorem fecReset_pfr (s : State) : (fecReset s).pfr = s.pfr := rfl
@[simp] theorem fecReset_df (s : State) : (fecReset s).df = s.df := rfl
@[simp] theorem fecReset_prevph (s : State) : (fecReset s).prevph = s.prevph := rfl
@[simp] theorem fecReset_pr (s : State) : (fecReset s).pr = s.pr := rfl
@[simp] theorem fecReset_state (s : State) : (fecReset s).state = s.state := rfl
@[simp] theorem fecReset_dec (s : State) : (fecReset s).dec = s.dec := rfl
@[simp] theorem fecReset_ink (s : State) : (fecReset s).ink = s.ink := rfl
@[simp] theorem fecReset_phidx (s : State) : (fecReset s).phidx = s.phidx := rfl
@[simp] theorem fecReset_clk (s : State) : (fecReset s).clk = s.clk := rfl
@[simp] theorem fecReset_off (s : State) : (fecReset s).off = s.off := rfl
@[simp] theorem fecReset_scr (s : State) : (fecReset s).scr = s.scr := rfl
@[simp] theorem fecReset_nbits (s : State) : (fecReset s).nbits = s.nbits := rfl
@[simp] theorem fecReset_bits (s : State) : (fecReset s).bits = s.bits := rfl
@[simp] theorem fecReset_row (s : State) : (fecReset s).row = s.row := rfl
@[simp] theorem fecReset_col (s : State) : (fecReset s).col = s.col := rfl
@[simp] theorem fecReset_nbrow (s : State) : (fecReset s).nbrow = s.nbrow := rfl
@[simp] theorem fecReset_nbbyte (s : State) : (fecReset s).nbbyte = s.nbbyte := rfl
@[simp] theorem fecReset_tstamp (s : State) : (fecReset s).tstamp = s.tstamp := rfl
@[simp] theorem fecReset_inbuf (s : State) : (fecReset s).inbuf = s.inbuf := rfl
@[simp] theorem fecReset_ph (s : State) : (fecReset s).ph = s.ph := rfl
@[simp] theorem fecReset_blkd (s : State) : (fecReset s).blkd = s.blkd := rfl
@[simp] theorem fecReset_blkp (s : State) : (fecReset s).blkp = s.blkp := rfl
@[simp] theorem fecReset_cfg (s : State) : (fecReset s).cfg = s.cfg := rfl
@[simp] theorem fecReset_fecWin (s : State) : (fecReset s).fecWin = [] := rfl
@[simp] theorem fecReset_fecNext (s : State) : (fecReset s).fecNext = s.fecNext := rfl
@[simp] theorem fecReset_inq (s : State) : (fecReset s).inq = s.inq := rfl
@[simp] theorem fecReset_out (s : State) : (fecReset s).out = s.out ++ [.fecReset] := rfl
@[simp] theorem fecReset_wires (s : State) : (fecReset s).wires = s.wires := rfl

/-! ### fecPush -/

@[simp] theorem fecPush_err (v : Scalar) (i : BitVec 5) (s : State) : (fecPush v i s).err = s.err := rfl
@[simp] theorem fecPush_perr (v : Scalar) (i : BitVec 5) (s : State) : (fecPush v i s).perr = s.perr := rfl
@[simp] theorem fecPush_p2err (v : Scalar) (i : BitVec 5) (s : State) : (fecPush v i s).p2err = s.p2err := rfl
@[simp] theorem fecPush_fr (v : Scalar) (i : BitVec 5) (s : State) : (fecPush v i s).fr = s.fr := rfl
@[simp] theorem fecPush_pfr (v : Scalar) (i : BitVec 5) (s : State) : (fecPush v i s).pfr = s.pfr := rfl
@[simp] theorem fecPush_df (v : Scalar) (i : BitVec 5) (s : State) : (fecPush v i s).df = s.df := rfl
@[simp] theorem fecPush_prevph (v : Scalar) (i : BitVec 5) (s : State) : (fecPush v i s).prevph = s.prevph := rfl
@[simp] theorem fecPush_pr (v : Scalar) (i : BitVec 5) (s : State) : (fecPush v i s).pr = s.pr := rfl
@[simp] theorem fecPush_state (v : Scalar) (i : BitVec 5) (s : State) : (fecPush v i s).state = s.state := rfl
@[simp] theorem fecPush_dec (v : Scalar) (i : BitVec 5) (s : State) : (fecPush v i s).dec = s.dec := rfl
@[simp] theorem fecPush_ink (v : Scalar) (i : BitVec 5) (s : State) : (fecPush v i s).ink = s.ink := rfl
@[simp] theorem fecPush_phidx (v : Scalar) (i : BitVec 5) (s : State) : (fecPush v i s).phidx = s.phidx := rfl
@[simp] theorem fecPush_clk (v : Scalar) (i : BitVec 5) (s : State) : (fecPush v i s).clk = s.clk := rfl
@[simp] theorem fecPush_off (v : Scalar) (i : BitVec 5) (s : State) : (fecPush v i s).off = s.off := rfl
@[simp] theorem fecPush_scr (v : Scalar) (i : BitVec 5) (s : State) : (fecPush v i s).scr = s.scr := rfl
@[simp] theorem fecPush_nbits (v : Scalar) (i : BitVec 5) (s : State) : (fecPush v i s).nbits = s.nbits := rfl
@[simp] theorem fecPush_bits (v : Scalar) (i : BitVec 5) (s : State) : (fecPush v i s).bits = s.bits := rfl
@[simp] theorem fecPush_row (v : Scalar) (i : BitVec 5) (s : State) : (fecPush v i s).row = s.row := rfl
@[simp] theorem fecPush_col (v : Scalar) (i : BitVec 5) (s : State) : (fecPush v i s).col = s.col := rfl
@[simp] theorem fecPush_nbrow (v : Scalar) (i : BitVec 5) (s : State) : (fecPush v i s).nbrow = s.nbrow := rfl
@[simp] theorem fecPush_nbbyte (v : Scalar) (i : BitVec 5) (s : State) : (fecPush v i s).nbbyte = s.nbbyte := rfl
@[simp] theorem fecPush_tstamp (v : Scalar) (i : BitVec 5) (s : State) : (fecPush v i s).tstamp = s.tstamp := rfl
@[simp] theorem fecPush_inbuf (v : Scalar) (i : BitVec 5) (s : State) : (fecPush v i s).inbuf = s.inbuf := rfl
@[simp] theorem fecPush_ph (v : Scalar) (i : BitVec 5) (s : State) : (fecPush v i s).ph = s.ph := rfl
@[simp] theorem fecPush_blkd (v : Scalar) (i : BitVec 5) (s : State) : (fecPush v i s).blkd = s.blkd := rfl
@[simp] theorem fecPush_blkp (v : Scalar) (i : BitVec 5) (s : State) : (fecPush v i s).blkp = s.blkp := rfl
@[simp] theorem fecPush_cfg (v : Scalar) (i : BitVec 5) (s : State) : (fecPush v i s).cfg = s.cfg := rfl
@[simp] theorem fecPush_fecWin (v : Scalar) (i : BitVec 5) (s : State) : (fecPush v i s).fecWin = s.fecWin ++ [(v, i)] := rfl
@[simp] theorem fecPush_fecNext (v : Scalar) (i : BitVec 5) (s : State) : (fecPush v i s).fecNext = s.fecNext := rfl
@[simp] theorem fecPush_inq (v : Scalar) (i : BitVec 5) (s : State) : (fecPush v i s).inq = s.inq := rfl
@[simp] theorem fecPush_out (v : Scalar) (i : BitVec 5) (s : State) : (fecPush v i s).out = s.out ++ [.fecPush v i] := rfl
@[simp] theorem fecPush_wires (v : Scalar) (i : BitVec 5) (s : State) : (fecPush v i s).wires = s.wires := rfl

/-! ### fecFinalize -/

@[simp] theorem fecFinalize_err (s : State) : (fecFinalize s).err = s.err := rfl
@[simp] theorem fecFinalize_perr (s : State) : (fecFinalize s).perr = s.perr := rfl
@[simp] theorem fecFinalize_p2err (s : State) : (fecFinalize s).p2err = s.p2err := rfl
@[simp] theorem fecFinalize_fr (s : State) : (fecFinalize s).fr = s.fr := rfl
@[simp] theorem fecFinalize_pfr (s : State) : (fecFinalize s).pfr = s.pfr := rfl
@[simp] theorem fecFinalize_df (s : State) : (fecFinalize s).df = s.df := rfl
@[simp] theorem fecFinalize_prevph (s : State) : (fecFinalize s).prevph = s.prevph := rfl
@[simp] theorem fecFinalize_pr (s : State) : (fecFinalize s).pr = s.pr := rfl
@[simp] theorem fecFinalize_state (s : State) : (fecFinalize s).state = s.state := rfl
@[simp] theorem fecFinalize_dec (s : State) : (fecFinalize s).dec = s.dec := rfl
@[simp] theorem fecFinalize_ink (s : State) : (fecFinalize s).ink = s.ink := rfl
@[simp] theorem fecFinalize_phidx (s : State) : (fecFinalize s).phidx = s.phidx := rfl
@[simp] theorem fecFinalize_clk (s : State) : (fecFinalize s).clk = s.clk := rfl
@[simp] theorem fecFinalize_off (s : State) : (fecFinalize s).off = s.off := rfl
@[simp] theorem fecFinalize_scr (s : State) : (fecFinalize s).scr = s.scr := rfl
@[simp] theorem fecFinalize_nbits (s : State) : (fecFinalize s).nbits = s.nbits := rfl
@[simp] theorem fecFinalize_bits (s : State) : (fecFinalize s).bits = s.bits := rfl
@[simp] theorem fecFinalize_row (s : State) : (fecFinalize s).row = s.row := rfl
@[simp] theorem fecFinalize_col (s : State) : (fecFinalize s).col = s.col := rfl
@[simp] theorem fecFinalize_nbrow (s : State) : (fecFinalize s).nbrow = s.nbrow := rfl
@[simp] theorem fecFinalize_nbbyte (s : State) : (fecFinalize s).nbbyte = s.nbbyte := rfl
@[simp] theorem fecFinalize_tstamp (s : State) : (fecFinalize s).tstamp = s.tstamp := rfl
@[simp] theorem fecFinalize_inbuf (s : State) : (fecFinalize s).inbuf = s.inbuf := rfl
@[simp] theorem fecFinalize_ph (s : State) : (fecFinalize s).ph = s.ph := rfl
@[simp] theorem fecFinalize_blkd (s : State) : (fecFinalize s).blkd = s.blkd := rfl
@[simp] theorem fecFinalize_blkp (s : State) : (fecFinalize s).blkp = s.blkp := rfl
@[simp] theorem fecFinalize_cfg (s : State) : (fecFinalize s).cfg = s.cfg := rfl
@[simp] theorem fecFinalize_fecWin (s : State) : (fecFinalize s).fecWin = s.fecWin := rfl
@[simp] theorem fecFinalize_fecNext (s : State) : (fecFinalize s).fecNext = none := rfl
@[simp] theorem fecFinalize_inq (s : State) : (fecFinalize s).inq = s.inq := rfl
@[simp] theorem fecFinalize_out (s : State) : (fecFinalize s).out = s.out ++ [.fecFin (fecAnswer s).1 (fecAnswer s).2] := rfl
@[simp] theorem fecFinalize_wires (s : State) : (fecFinalize s).wires = { s.wires with vp := (fecAnswer s).1, decodedBits := (fecAnswer s).2 } := rfl

/-! ### toIdle -/

@[simp] theorem toIdle_err (s : State) : (toIdle s).err = s.err := rfl
@[simp] theorem toIdle_perr (s : State) : (toIdle s).perr = s.perr := rfl
@[simp] theorem toIdle_p2err (s : State) : (toIdle s).p2err = s.p2err := rfl
@[simp] theorem toIdle_fr (s : State) : (toIdle s).fr = s.fr := rfl
@[simp] theorem toIdle_pfr (s : State) : (toIdle s).pfr = s.pfr := rfl
@[simp] theorem toIdle_df (s : State) : (toIdle s).df = s.df := rfl
@[simp] theorem toIdle_prevph (s : State) : (toIdle s).prevph = s.prevph := rfl
@[simp] theorem toIdle_pr (s : State) : (toIdle s).pr = s.pr := rfl
@[simp] theorem toIdle_state (s : State) : (toIdle s).state = .idle := rfl
@[simp] theorem toIdle_dec (s : State) : (toIdle s).dec = s.dec := rfl
@[simp] theorem toIdle_ink (s : State) : (toIdle s).ink = s.ink := rfl
@[simp] theorem toIdle_phidx (s : State) : (toIdle s).phidx = s.phidx := rfl
@[simp] theorem toIdle_clk (s : State) : (toIdle s).clk = s.clk := rfl
@[simp] theorem toIdle_off (s : State) : (toIdle s).off = 0 := rfl
@[simp] theorem toIdle_scr (s : State) : (toIdle s).scr = s.scr := rfl
@[simp] theorem toIdle_nbits (s : State) : (toIdle s).nbits = s.nbits := rfl
@[simp] theorem toIdle_bits (s : State) : (toIdle s).bits = s.bits := rfl
@[simp] theorem toIdle_row (s : State) : (toIdle s).row = s.row := rfl
@[simp] theorem toIdle_col (s : State) : (toIdle s).col = s.col := rfl
@[simp] theorem toIdle_nbrow (s : State) : (toIdle s).nbrow = s.nbrow := rfl
@[simp] theorem toIdle_nbbyte (s : State) : (toIdle s).nbbyte = s.nbbyte := rfl
@[simp] theorem toIdle_tstamp (s : State) : (toIdle s).tstamp = s.tstamp := rfl
@[simp] theorem toIdle_inbuf (s : State) : (toIdle s).inbuf = s.inbuf := rfl
@[simp] theorem toIdle_ph (s : State) : (toIdle s).ph = s.ph := rfl
@[simp] theorem toIdle_blkd (s : State) : (toIdle s).blkd = s.blkd := rfl
@[simp] theorem toIdle_blkp (s : State) : (toIdle s).blkp = s.blkp := rfl
@[simp] theorem toIdle_cfg (s : State) : (toIdle s).cfg = s.cfg := rfl
@[simp] theorem toIdle_fecWin (s : State) : (toIdle s).fecWin = s.fecWin := rfl
@[simp] theorem toIdle_fecNext (s : State) : (toIdle s).fecNext = s.fecNext := rfl
@[simp] theorem toIdle_inq (s : State) : (toIdle s).inq = s.inq := rfl
@[simp] theorem toIdle_out (s : State) : (toIdle s).out = s.out := rfl
@[simp] theorem toIdle_wires (s : State) : (toIdle s).wires = s.wires := rfl

/-! ### raiseFailure -/

@[simp] theorem raiseFailure_err (e : Event) (s : State) : (raiseFailure e s).err = s.err := rfl
@[simp] theorem raiseFailure_perr (e : Event) (s : State) : (raiseFailure e s).perr = s.perr := rfl
@[simp] theorem raiseFailure_p2err (e : Event) (s : State) : (raiseFailure e s).p2err = s.p2err := rfl
@[simp] theorem raiseFailure_fr (e : Event) (s : State) : (raiseFailure e s).fr = s.fr := rfl
@[simp] theorem raiseFailure_pfr (e : Event) (s : State) : (raiseFailure e s).pfr = s.pfr := rfl
@[simp] theorem raiseFailure_df (e : Event) (s : State) : (raiseFailure e s).df = s.df := rfl
@[simp] theorem raiseFailure_prevph (e : Event) (s : State) : (raiseFailure e s).prevph = s.prevph := rfl
@[simp] theorem raiseFailure_pr (e : Event) (s : State) : (raiseFailure e s).pr = s.pr := rfl
@[simp] theorem raiseFailure_state (e : Event) (s : State) : (raiseFailure e s).state = .idle := rfl
@[simp] theorem raiseFailure_dec (e : Event) (s : State) : (raiseFailure e s).dec = s.dec := rfl
@[simp] theorem raiseFailure_ink (e : Event) (s : State) : (raiseFailure e s).ink = s.ink := rfl
@[simp] theorem raiseFailure_phidx (e : Event) (s : State) : (raiseFailure e s).phidx = s.phidx := rfl
@[simp] theorem raiseFailure_clk (e : Event) (s : State) : (raiseFailure e s).clk = s.clk := rfl
@[simp] theorem raiseFailure_off (e : Event) (s : State) : (raiseFailure e s).off = 0 := rfl
@[simp] theorem raiseFailure_scr (e : Event) (s : State) : (raiseFailure e s).scr = s.scr := rfl
@[simp] theorem raiseFailure_nbits (e : Event) (s : State) : (raiseFailure e s).nbits = s.nbits := rfl
@[simp] theorem raiseFailure_bits (e : Event) (s : State) : (raiseFailure e s).bits = s.bits := rfl
@[simp] theorem raiseFailure_row (e : Event) (s : State) : (raiseFailure e s).row = s.row := rfl
@[simp] theorem raiseFailure_col (e : Event) (s : State) : (raiseFailure e s).col = s.col := rfl
@[simp] theorem raiseFailure_nbrow (e : Event) (s : State) : (raiseFailure e s).nbrow = s.nbrow := rfl
@[simp] theorem raiseFailure_nbbyte (e : Event) (s : State) : (raiseFailure e s).nbbyte = s.nbbyte := rfl
@[simp] theorem raiseFailure_tstamp (e : Event) (s : State) : (raiseFailure e s).tstamp = s.tstamp := rfl
@[simp] theorem raiseFailure_inbuf (e : Event) (s : State) : (raiseFailure e s).inbuf = s.inbuf := rfl
@[simp] theorem raiseFailure_ph (e : Event) (s : State) : (raiseFailure e s).ph = s.ph := rfl
@[simp] theorem raiseFailure_blkd (e : Event) (s : State) : (raiseFailure e s).blkd = s.blkd := rfl
@[simp] theorem raiseFailure_blkp (e : Event) (s : State) : (raiseFailure e s).blkp = s.blkp := rfl
@[simp] theorem raiseFailure_cfg (e : Event) (s : State) : (raiseFailure e s).cfg = s.cfg := rfl
@[simp] theorem raiseFailure_fecWin (e : Event) (s : State) : (raiseFailure e s).fecWin = s.fecWin := rfl
@[simp] theorem raiseFailure_fecNext (e : Event) (s : State) : (raiseFailure e s).fecNext = s.fecNext := rfl
@[simp] theorem raiseFailure_inq (e : Event) (s : State) : (raiseFailure e s).inq = s.inq := rfl
@[simp] theorem raiseFailure_out (e : Event) (s : State) : (raiseFailure e s).out = s.out ++ [.event e] := rfl
@[simp] theorem raiseFailure_wires (e : Event) (s : State) : (raiseFailure e s).wires = s.wires := rfl

/-! ### setOk -/

@[simp] theorem setOk_err (b : Bool) (s : State) : (setOk b s).err = s.err := rfl
@[simp] theorem setOk_perr (b : Bool) (s : State) : (setOk b s).perr = s.perr := rfl
@[simp] theorem setOk_p2err (b : Bool) (s : State) : (setOk b s).p2err = s.p2err := rfl
@[simp] theorem setOk_fr (b : Bool) (s : State) : (setOk b s).fr = s.fr := rfl
@[simp] theorem setOk_pfr (b : Bool) (s : State) : (setOk b s).pfr = s.pfr := rfl
@[simp] theorem setOk_df (b : Bool) (s : State) : (setOk b s).df = s.df := rfl
@[simp] theorem setOk_prevph (b : Bool) (s : State) : (setOk b s).prevph = s.prevph := rfl
@[simp] theorem setOk_pr (b : Bool) (s : State) : (setOk b s).pr = s.pr := rfl
@[simp] theorem setOk_state (b : Bool) (s : State) : (setOk b s).state = s.state := rfl
@[simp] theorem setOk_dec (b : Bool) (s : State) : (setOk b s).dec = s.dec := rfl
@[simp] theorem setOk_ink (b : Bool) (s : State) : (setOk b s).ink = s.ink := rfl
@[simp] theorem setOk_phidx (b : Bool) (s : State) : (setOk b s).phidx = s.phidx := rfl
@[simp] theorem setOk_clk (b : Bool) (s : State) : (setOk b s).clk = s.clk := rfl
@[simp] theorem setOk_off (b : Bool) (s : State) : (setOk b s).off = s.off := rfl
@[simp] theorem setOk_scr (b : Bool) (s : State) : (setOk b s).scr = s.scr := rfl
@[simp] theorem setOk_nbits (b : Bool) (s : State) : (setOk b s).nbits = s.nbits := rfl
@[simp] theorem setOk_bits (b : Bool) (s : State) : (setOk b s).bits = s.bits := rfl
@[simp] theorem setOk_row (b : Bool) (s : State) : (setOk b s).row = s.row := rfl
@[simp] theorem setOk_col (b : Bool) (s : State) : (setOk b s).col = s.col := rfl
@[simp] theorem setOk_nbrow (b : Bool) (s : State) : (setOk b s).nbrow = s.nbrow := rfl
@[simp] theorem setOk_nbbyte (b : Bool) (s : State) : (setOk b s).nbbyte = s.nbbyte := rfl
@[simp] theorem setOk_tstamp (b : Bool) (s : State) : (setOk b s).tstamp = s.tstamp := rfl
@[simp] theorem setOk_inbuf (b : Bool) (s : State) : (setOk b s).inbuf = s.inbuf := rfl
@[simp] theorem setOk_ph (b : Bool) (s : State) : (setOk b s).ph = s.ph := rfl
@[simp] theorem setOk_blkd (b : Bool) (s : State) : (setOk b s).blkd = s.blkd := rfl
@[simp] theorem setOk_blkp (b : Bool) (s : State) : (setOk b s).blkp = s.blkp := rfl
@[simp] theorem setOk_cfg (b : Bool) (s : State) : (setOk b s).cfg = s.cfg := rfl
@[simp] theorem setOk_fecWin (b : Bool) (s : State) : (setOk b s).fecWin = s.fecWin := rfl
@[simp] theorem setOk_fecNext (b : Bool) (s : State) : (setOk b s).fecNext = s.fecNext := rfl
@[simp] theorem setOk_inq (b : Bool) (s : State) : (setOk b s).inq = s.inq := rfl
@[simp] theorem setOk_out (b : Bool) (s : State) : (setOk b s).out = s.out := rfl
@[simp] theorem setOk_wires (b : Bool) (s : State) : (setOk b s).wires = { s.wires with ok := b } := rfl

/-! ### acquireFirst -/

@[simp] theorem acquireFirst_err (s : State) : (acquireFirst s).err = s.err := rfl
@[simp] theorem acquireFirst_perr (s : State) : (acquireFirst s).perr = s.perr := rfl
@[simp] theorem acquireFirst_p2err (s : State) : (acquireFirst s).p2err = s.p2err := rfl
@[simp] theorem acquireFirst_fr (s : State) : (acquireFirst s).fr = s.fr := rfl
@[simp] theorem acquireFirst_pfr (s : State) : (acquireFirst s).pfr = s.pfr := rfl
@[simp] theorem acquireFirst_df (s : State) : (acquireFirst s).df = s.pfr := rfl
@[simp] theorem acquireFirst_prevph (s : State) : (acquireFirst s).prevph = s.prevph := rfl
@[simp] theorem acquireFirst_pr (s : State) : (acquireFirst s).pr = s.pr := rfl
@[simp] theorem acquireFirst_state (s : State) : (acquireFirst s).state = .header := rfl
@[simp] theorem acquireFirst_dec (s : State) : (acquireFirst s).dec = s.dec := rfl
@[simp] theorem acquireFirst_ink (s : State) : (acquireFirst s).ink = s.ink := rfl
@[simp] theorem acquireFirst_phidx (s : State) : (acquireFirst s).phidx = s.phidx := rfl
@[simp] theorem acquireFirst_clk (s : State) : (acquireFirst s).clk = s.clk := rfl
@[simp] theorem acquireFirst_off (s : State) : (acquireFirst s).off = s.off := rfl
@[simp] theorem acquireFirst_scr (s : State) : (acquireFirst s).scr = s.cfg.seed := rfl
@[simp] theorem acquireFirst_nbits (s : State) : (acquireFirst s).nbits = 0 := rfl
@[simp] theorem acquireFirst_bits (s : State) : (acquireFirst s).bits = s.bits := rfl
@[simp] theorem acquireFirst_row (s : State) : (acquireFirst s).row = s.row := rfl
@[simp] theorem acquireFirst_col (s : State) : (acquireFirst s).col = 0 := rfl
@[simp] theorem acquireFirst_nbrow (s : State) : (acquireFirst s).nbrow = s.nbrow := rfl
@[simp] theorem acquireFirst_nbbyte (s : State) : (acquireFirst s).nbbyte = s.nbbyte := rfl
@[simp] theorem acquireFirst_tstamp (s : State) : (acquireFirst s).tstamp = s.wires.now := rfl
@[simp] theorem acquireFirst_inbuf (s : State) : (acquireFirst s).inbuf = s.inbuf := rfl
@[simp] theorem acquireFirst_ph (s : State) : (acquireFirst s).ph = s.ph := rfl
@[simp] theorem acquireFirst_blkd (s : State) : (acquireFirst s).blkd = s.blkd := rfl
@[simp] theorem acquireFirst_blkp (s : State) : (acquireFirst s).blkp = s.blkp := rfl
@[simp] theorem acquireFirst_cfg (s : State) : (acquireFirst s).cfg = s.cfg := rfl
@[simp] theorem acquireFirst_fecWin (s : State) : (acquireFirst s).fecWin = [] := rfl
@[simp] theorem acquireFirst_fecNext (s : State) : (acquireFirst s).fecNext = s.fecNext := rfl
@[simp] theorem acquireFirst_inq (s : State) : (acquireFirst s).inq = s.inq := rfl
@[simp] theorem acquireFirst_out (s : State) : (acquireFirst s).out = s.out ++ [.fecReset] := rfl
@[simp] theorem acquireFirst_wires (s : State) : (acquireFirst s).wires = s.wires := rfl

/-! ### acquireLast -/

@[simp] theorem acquireLast_err (s : State) : (acquireLast s).err = s.err := rfl
@[simp] theorem acquireLast_perr (s : State) : (acquireLast s).perr = sentinel := rfl
@[simp] theorem acquireLast_p2err (s : State) : (acquireLast s).p2err = sentinel := rfl
@[simp] theorem acquireLast_fr (s : State) : (acquireLast s).fr = s.fr := rfl
@[simp] theorem acquireLast_pfr (s : State) : (acquireLast s).pfr = s.pfr := rfl
@[simp] theorem acquireLast_df (s : State) : (acquireLast s).df = s.df := rfl
@[simp] theorem acquireLast_prevph (s : State) : (acquireLast s).prevph = s.prevph := rfl
@[simp] theorem acquireLast_pr (s : State) : (acquireLast s).pr = s.pr := rfl
@[simp] theorem acquireLast_state (s : State) : (acquireLast s).state = s.state := rfl
@[simp] theorem acquireLast_dec (s : State) : (acquireLast s).dec = s.dec := rfl
@[simp] theorem acquireLast_ink (s : State) : (acquireLast s).ink = s.ink := rfl
@[simp] theorem acquireLast_phidx (s : State) : (acquireLast s).phidx = s.phidx := rfl
@[simp] theorem acquireLast_clk (s : State) : (acquireLast s).clk = s.clk := rfl
@[simp] theorem acquireLast_off (s : State) : (acquireLast s).off = s.off := rfl
@[simp] theorem acquireLast_scr (s : State) : (acquireLast s).scr = s.scr := rfl
@[simp] theorem acquireLast_nbits (s : State) : (acquireLast s).nbits = s.nbits := rfl
@[simp] theorem acquireLast_bits (s : State) : (acquireLast s).bits = s.bits := rfl
@[simp] theorem acquireLast_row (s : State) : (acquireLast s).row = s.row := rfl
@[simp] theorem acquireLast_col (s : State) : (acquireLast s).col = s.col := rfl
@[simp] theorem acquireLast_nbrow (s : State) : (acquireLast s).nbrow = s.nbrow := rfl
@[simp] theorem acquireLast_nbbyte (s : State) : (acquireLast s).nbbyte = s.nbbyte := rfl
@[simp] theorem acquireLast_tstamp (s : State) : (acquireLast s).tstamp = s.tstamp := rfl
@[simp] theorem acquireLast_inbuf (s : State) : (acquireLast s).inbuf = s.inbuf := rfl
@[simp] theorem acquireLast_ph (s : State) : (acquireLast s).ph = s.ph := rfl
@[simp] theorem acquireLast_blkd (s : State) : (acquireLast s).blkd = s.blkd := rfl
@[simp] theorem acquireLast_blkp (s : State) : (acquireLast s).blkp = s.blkp := rfl
@[simp] theorem acquireLast_cfg (s : State) : (acquireLast s).cfg = s.cfg := rfl
@[simp] theorem acquireLast_fecWin (s : State) : (acquireLast s).fecWin = s.fecWin := rfl
@[simp] theorem acquireLast_fecNext (s : State) : (acquireLast s).fecNext = s.fecNext := rfl
@[simp] theorem acquireLast_inq (s : State) : (acquireLast s).inq = s.inq := rfl
@[simp] theorem acquireLast_out (s : State) : (acquireLast s).out = s.out ++ [.event (.acq s.wires.fracOff s.clk s.off s.df)] := rfl
@[simp] theorem acquireLast_wires (s : State) : (acquireLast s).wires = s.wires := rfl

/-! ### clearWires -/

@[simp] theorem clearWires_err (s : State) : (clearWires s).err = s.err := rfl
@[simp] theorem clearWires_perr (s : State) : (clearWires s).perr = s.perr := rfl
@[simp] theorem clearWires_p2err (s : State) : (clearWires s).p2err = s.p2err := rfl
@[simp] theorem clearWires_fr (s : State) : (clearWires s).fr = s.fr := rfl
@[simp] theorem clearWires_pfr (s : State) : (clearWires s).pfr = s.pfr := rfl
@[simp] theorem clearWires_df (s : State) : (clearWires s).df = s.df := rfl
@[simp] theorem clearWires_prevph (s : State) : (clearWires s).prevph = s.prevph := rfl
@[simp] theorem clearWires_pr (s : State) : (clearWires s).pr = s.pr := rfl
@[simp] theorem clearWires_state (s : State) : (clearWires s).state = s.state := rfl
@[simp] theorem clearWires_dec (s : State) : (clearWires s).dec = s.dec := rfl
@[simp] theorem clearWires_ink (s : State) : (clearWires s).ink = s.ink := rfl
@[simp] theorem clearWires_phidx (s : State) : (clearWires s).phidx = s.phidx := rfl
@[simp] theorem clearWires_clk (s : State) : (clearWires s).clk = s.clk := rfl
@[simp] theorem clearWires_off (s : State) : (clearWires s).off = s.off := rfl
@[simp] theorem clearWires_scr (s : State) : (clearWires s).scr = s.scr := rfl
@[simp] theorem clearWires_nbits (s : State) : (clearWires s).nbits = s.nbits := rfl
@[simp] theorem clearWires_bits (s : State) : (clearWires s).bits = s.bits := rfl
@[simp] theorem clearWires_row (s : State) : (clearWires s).row = s.row := rfl
@[simp] theorem clearWires_col (s : State) : (clearWires s).col = s.col := rfl
@[simp] theorem clearWires_nbrow (s : State) : (clearWires s).nbrow = s.nbrow := rfl
@[simp] theorem clearWires_nbbyte (s : State) : (clearWires s).nbbyte = s.nbbyte := rfl
@[simp] theorem clearWires_tstamp (s : State) : (clearWires s).tstamp = s.tstamp := rfl
@[simp] theorem clearWires_inbuf (s : State) : (clearWires s).inbuf = s.inbuf := rfl
@[simp] theorem clearWires_ph (s : State) : (clearWires s).ph = s.ph := rfl
@[simp] theorem clearWires_blkd (s : State) : (clearWires s).blkd = s.blkd := rfl
@[simp] theorem clearWires_blkp (s : State) : (clearWires s).blkp = s.blkp := rfl
@[simp] theorem clearWires_cfg (s : State) : (clearWires s).cfg = s.cfg := rfl
@[simp] theorem clearWires_fecWin (s : State) : (clearWires s).fecWin = s.fecWin := rfl
@[simp] theorem clearWires_fecNext (s : State) : (clearWires s).fecNext = s.fecNext := rfl
@[simp] theorem clearWires_inq (s : State) : (clearWires s).inq = s.inq := rfl
@[simp] theorem clearWires_out (s : State) : (clearWires s).out = s.out := rfl
@[simp] theorem clearWires_wires (s : State) : (clearWires s).wires = Wires.none := rfl

/-! ### withSample -/

@[simp] theorem withSample_err (x : Cplx) (now : Time) (s : State) : (withSample x now s).err = s.err := rfl
@[simp] theorem withSample_perr (x : Cplx) (now : Time) (s : State) : (withSample x now s).perr = s.perr := rfl
@[simp] theorem withSample_p2err (x : Cplx) (now : Time) (s : State) : (withSample x now s).p2err = s.p2err := rfl
@[simp] theorem withSample_fr (x : Cplx) (now : Time) (s : State) : (withSample x now s).fr = s.fr := rfl
@[simp] theorem withSample_pfr (x : Cplx) (now : Time) (s : State) : (withSample x now s).pfr = s.pfr := rfl
@[simp] theorem withSample_df (x : Cplx) (now : Time) (s : State) : (withSample x now s).df = s.df := rfl
@[simp] theorem withSample_prevph (x : Cplx) (now : Time) (s : State) : (withSample x now s).prevph = s.prevph := rfl
@[simp] theorem withSample_pr (x : Cplx) (now : Time) (s : State) : (withSample x now s).pr = s.pr := rfl
@[simp] theorem withSample_state (x : Cplx) (now : Time) (s : State) : (withSample x now s).state = s.state := rfl
@[simp] theorem withSample_dec (x : Cplx) (now : Time) (s : State) : (withSample x now s).dec = s.dec := rfl
@[simp] theorem withSample_ink (x : Cplx) (now : Time) (s : State) : (withSample x now s).ink = s.ink := rfl
@[simp] theorem withSample_phidx (x : Cplx) (now : Time) (s : State) : (withSample x now s).phidx = s.phidx := rfl
@[simp] theorem withSample_clk (x : Cplx) (now : Time) (s : State) : (withSample x now s).clk = s.clk := rfl
@[simp] theorem withSample_off (x : Cplx) (now : Time) (s : State) : (withSample x now s).off = s.off := rfl
@[simp] theorem withSample_scr (x : Cplx) (now : Time) (s : State) : (withSample x now s).scr = s.scr := rfl
@[simp] theorem withSample_nbits (x : Cplx) (now : Time) (s : State) : (withSample x now s).nbits = s.nbits := rfl
@[simp] theorem withSample_bits (x : Cplx) (now : Time) (s : State) : (withSample x now s).bits = s.bits := rfl
@[simp] theorem withSample_row (x : Cplx) (now : Time) (s : State) : (withSample x now s).row = s.row := rfl
@[simp] theorem withSample_col (x : Cplx) (now : Time) (s : State) : (withSample x now s).col = s.col := rfl
@[simp] theorem withSample_nbrow (x : Cplx) (now : Time) (s : State) : (withSample x now s).nbrow = s.nbrow := rfl
@[simp] theorem withSample_nbbyte (x : Cplx) (now : Time) (s : State) : (withSample x now s).nbbyte = s.nbbyte := rfl
@[simp] theorem withSample_tstamp (x : Cplx) (now : Time) (s : State) : (withSample x now s).tstamp = s.tstamp := rfl
@[simp] theorem withSample_inbuf (x : Cplx) (now : Time) (s : State) : (withSample x now s).inbuf = s.inbuf := rfl
@[simp] theorem withSample_ph (x : Cplx) (now : Time) (s : State) : (withSample x now s).ph = s.ph := rfl
@[simp] theorem withSample_blkd (x : Cplx) (now : Time) (s : State) : (withSample x now s).blkd = s.blkd := rfl
@[simp] theorem withSample_blkp (x : Cplx) (now : Time) (s : State) : (withSample x now s).blkp = s.blkp := rfl
@[simp] theorem withSample_cfg (x : Cplx) (now : Time) (s : State) : (withSample x now s).cfg = s.cfg := rfl
@[simp] theorem withSample_fecWin (x : Cplx) (now : Time) (s : State) : (withSample x now s).fecWin = s.fecWin := rfl
@[simp] theorem withSample_fecNext (x : Cplx) (now : Time) (s : State) : (withSample x now s).fecNext = s.fecNext := rfl
@[simp] theorem withSample_inq (x : Cplx) (now : Time) (s : State) : (withSample x now s).inq = s.inq := rfl
@[simp] theorem withSample_out (x : Cplx) (now : Time) (s : State) : (withSample x now s).out = s.out := rfl
@[simp] theorem withSample_wires (x : Cplx) (now : Time) (s : State) : (withSample x now s).wires = { Wires.none with x := x, now := now } := rfl

/-! ### withRawBit -/

@[simp] theorem withRawBit_err (v : Scalar) (s : State) : (withRawBit v s).err = s.err := rfl
@[simp] theorem withRawBit_perr (v : Scalar) (s : State) : (withRawBit v s).perr = s.perr := rfl
@[simp] theorem withRawBit_p2err (v : Scalar) (s : State) : (withRawBit v s).p2err = s.p2err := rfl
@[simp] theorem withRawBit_fr (v : Scalar) (s : State) : (withRawBit v s).fr = s.fr := rfl
@[simp] theorem withRawBit_pfr (v : Scalar) (s : State) : (withRawBit v s).pfr = s.pfr := rfl
@[simp] theorem withRawBit_df (v : Scalar) (s : State) : (withRawBit v s).df = s.df := rfl
@[simp] theorem withRawBit_prevph (v : Scalar) (s : State) : (withRawBit v s).prevph = s.prevph := rfl
@[simp] theorem withRawBit_pr (v : Scalar) (s : State) : (withRawBit v s).pr = s.pr := rfl
@[simp] theorem withRawBit_state (v : Scalar) (s : State) : (withRawBit v s).state = s.state := rfl
@[simp] theorem withRawBit_dec (v : Scalar) (s : State) : (withRawBit v s).dec = s.dec := rfl
@[simp] theorem withRawBit_ink (v : Scalar) (s : State) : (withRawBit v s).ink = s.ink := rfl
@[simp] theorem withRawBit_phidx (v : Scalar) (s : State) : (withRawBit v s).phidx = s.phidx := rfl
@[simp] theorem withRawBit_clk (v : Scalar) (s : State) : (withRawBit v s).clk = s.clk := rfl
@[simp] theorem withRawBit_off (v : Scalar) (s : State) : (withRawBit v s).off = s.off := rfl
@[simp] theorem withRawBit_scr (v : Scalar) (s : State) : (withRawBit v s).scr = s.scr := rfl
@[simp] theorem withRawBit_nbits (v : Scalar) (s : State) : (withRawBit v s).nbits = s.nbits := rfl
@[simp] theorem withRawBit_bits (v : Scalar) (s : State) : (withRawBit v s).bits = s.bits := rfl
@[simp] theorem withRawBit_row (v : Scalar) (s : State) : (withRawBit v s).row = s.row := rfl
@[simp] theorem withRawBit_col (v : Scalar) (s : State) : (withRawBit v s).col = s.col := rfl
@[simp] theorem withRawBit_nbrow (v : Scalar) (s : State) : (withRawBit v s).nbrow = s.nbrow := rfl
@[simp] theorem withRawBit_nbbyte (v : Scalar) (s : State) : (withRawBit v s).nbbyte = s.nbbyte := rfl
@[simp] theorem withRawBit_tstamp (v : Scalar) (s : State) : (withRawBit v s).tstamp = s.tstamp := rfl
@[simp] theorem withRawBit_inbuf (v : Scalar) (s : State) : (withRawBit v s).inbuf = s.inbuf := rfl
@[simp] theorem withRawBit_ph (v : Scalar) (s : State) : (withRawBit v s).ph = s.ph := rfl
@[simp] theorem withRawBit_blkd (v : Scalar) (s : State) : (withRawBit v s).blkd = s.blkd := rfl
@[simp] theorem withRawBit_blkp (v : Scalar) (s : State) : (withRawBit v s).blkp = s.blkp := rfl
@[simp] theorem withRawBit_cfg (v : Scalar) (s : State) : (withRawBit v s).cfg = s.cfg := rfl
@[simp] theorem withRawBit_fecWin (v : Scalar) (s : State) : (withRawBit v s).fecWin = s.fecWin := rfl
@[simp] theorem withRawBit_fecNext (v : Scalar) (s : State) : (withRawBit v s).fecNext = s.fecNext := rfl
@[simp] theorem withRawBit_inq (v : Scalar) (s : State) : (withRawBit v s).inq = s.inq := rfl
@[simp] theorem withRawBit_out (v : Scalar) (s : State) : (withRawBit v s).out = s.out := rfl
@[simp] theorem withRawBit_wires (v : Scalar) (s : State) : (withRawBit v s).wires = { s.wires with sv := v } := rfl

/-! ### takeLine -/

@[simp] theorem takeLine_err (rest : List Stimulus) (s : State) : (takeLine rest s).err = s.err := rfl
@[simp] theorem takeLine_perr (rest : List Stimulus) (s : State) : (takeLine rest s).perr = s.perr := rfl
@[simp] theorem takeLine_p2err (rest : List Stimulus) (s : State) : (takeLine rest s).p2err = s.p2err := rfl
@[simp] theorem takeLine_fr (rest : List Stimulus) (s : State) : (takeLine rest s).fr = s.fr := rfl
@[simp] theorem takeLine_pfr (rest : List Stimulus) (s : State) : (takeLine rest s).pfr = s.pfr := rfl
@[simp] theorem takeLine_df (rest : List Stimulus) (s : State) : (takeLine rest s).df = s.df := rfl
@[simp] theorem takeLine_prevph (rest : List Stimulus) (s : State) : (takeLine rest s).prevph = s.prevph := rfl
@[simp] theorem takeLine_pr (rest : List Stimulus) (s : State) : (takeLine rest s).pr = s.pr := rfl
@[simp] theorem takeLine_state (rest : List Stimulus) (s : State) : (takeLine rest s).state = s.state := rfl
@[simp] theorem takeLine_dec (rest : List Stimulus) (s : State) : (takeLine rest s).dec = s.dec := rfl
@[simp] theorem takeLine_ink (rest : List Stimulus) (s : State) : (takeLine rest s).ink = s.ink := rfl
@[simp] theorem takeLine_phidx (rest : List Stimulus) (s : State) : (takeLine rest s).phidx = s.phidx := rfl
@[simp] theorem takeLine_clk (rest : List Stimulus) (s : State) : (takeLine rest s).clk = s.clk := rfl
@[simp] theorem takeLine_off (rest : List Stimulus) (s : State) : (takeLine rest s).off = s.off := rfl
@[simp] theorem takeLine_scr (rest : List Stimulus) (s : State) : (takeLine rest s).scr = s.scr := rfl
@[simp] theorem takeLine_nbits (rest : List Stimulus) (s : State) : (takeLine rest s).nbits = s.nbits := rfl
@[simp] theorem takeLine_bits (rest : List Stimulus) (s : State) : (takeLine rest s).bits = s.bits := rfl
@[simp] theorem takeLine_row (rest : List Stimulus) (s : State) : (takeLine rest s).row = s.row := rfl
@[simp] theorem takeLine_col (rest : List Stimulus) (s : State) : (takeLine rest s).col = s.col := rfl
@[simp] theorem takeLine_nbrow (rest : List Stimulus) (s : State) : (takeLine rest s).nbrow = s.nbrow := rfl
@[simp] theorem takeLine_nbbyte (rest : List Stimulus) (s : State) : (takeLine rest s).nbbyte = s.nbbyte := rfl
@[simp] theorem takeLine_tstamp (rest : List Stimulus) (s : State) : (takeLine rest s).tstamp = s.tstamp := rfl
@[simp] theorem takeLine_inbuf (rest : List Stimulus) (s : State) : (takeLine rest s).inbuf = s.inbuf := rfl
@[simp] theorem takeLine_ph (rest : List Stimulus) (s : State) : (takeLine rest s).ph = s.ph := rfl
@[simp] theorem takeLine_blkd (rest : List Stimulus) (s : State) : (takeLine rest s).blkd = s.blkd := rfl
@[simp] theorem takeLine_blkp (rest : List Stimulus) (s : State) : (takeLine rest s).blkp = s.blkp := rfl
@[simp] theorem takeLine_cfg (rest : List Stimulus) (s : State) : (takeLine rest s).cfg = s.cfg := rfl
@[simp] theorem takeLine_fecWin (rest : List Stimulus) (s : State) : (takeLine rest s).fecWin = s.fecWin := rfl
@[simp] theorem takeLine_fecNext (rest : List Stimulus) (s : State) : (takeLine rest s).fecNext = s.fecNext := rfl
@[simp] theorem takeLine_inq (rest : List Stimulus) (s : State) : (takeLine rest s).inq = rest := rfl
@[simp] theorem takeLine_out (rest : List Stimulus) (s : State) : (takeLine rest s).out = [] := rfl
@[simp] theorem takeLine_wires (rest : List Stimulus) (s : State) : (takeLine rest s).wires = s.wires := rfl

/-! ### pushWord -/

@[simp] theorem pushWord_err (w : OpWord) (s : State) : (pushWord w s).err = s.err := rfl
@[simp] theorem pushWord_perr (w : OpWord) (s : State) : (pushWord w s).perr = s.perr := rfl
@[simp] theorem pushWord_p2err (w : OpWord) (s : State) : (pushWord w s).p2err = s.p2err := rfl
@[simp] theorem pushWord_fr (w : OpWord) (s : State) : (pushWord w s).fr = s.fr := rfl
@[simp] theorem pushWord_pfr (w : OpWord) (s : State) : (pushWord w s).pfr = s.pfr := rfl
@[simp] theorem pushWord_df (w : OpWord) (s : State) : (pushWord w s).df = s.df := rfl
@[simp] theorem pushWord_prevph (w : OpWord) (s : State) : (pushWord w s).prevph = s.prevph := rfl
@[simp] theorem pushWord_pr (w : OpWord) (s : State) : (pushWord w s).pr = s.pr := rfl
@[simp] theorem pushWord_state (w : OpWord) (s : State) : (pushWord w s).state = s.state := rfl
@[simp] theorem pushWord_dec (w : OpWord) (s : State) : (pushWord w s).dec = s.dec := rfl
@[simp] theorem pushWord_ink (w : OpWord) (s : State) : (pushWord w s).ink = s.ink := rfl
@[simp] theorem pushWord_phidx (w : OpWord) (s : State) : (pushWord w s).phidx = s.phidx := rfl
@[simp] theorem pushWord_clk (w : OpWord) (s : State) : (pushWord w s).clk = s.clk := rfl
@[simp] theorem pushWord_off (w : OpWord) (s : State) : (pushWord w s).off = s.off := rfl
@[simp] theorem pushWord_scr (w : OpWord) (s : State) : (pushWord w s).scr = s.scr := rfl
@[simp] theorem pushWord_nbits (w : OpWord) (s : State) : (pushWord w s).nbits = s.nbits := rfl
@[simp] theorem pushWord_bits (w : OpWord) (s : State) : (pushWord w s).bits = s.bits := rfl
@[simp] theorem pushWord_row (w : OpWord) (s : State) : (pushWord w s).row = s.row := rfl
@[simp] theorem pushWord_col (w : OpWord) (s : State) : (pushWord w s).col = s.col := rfl
@[simp] theorem pushWord_nbrow (w : OpWord) (s : State) : (pushWord w s).nbrow = s.nbrow := rfl
@[simp] theorem pushWord_nbbyte (w : OpWord) (s : State) : (pushWord w s).nbbyte = s.nbbyte := rfl
@[simp] theorem pushWord_tstamp (w : OpWord) (s : State) : (pushWord w s).tstamp = s.tstamp := rfl
@[simp] theorem pushWord_inbuf (w : OpWord) (s : State) : (pushWord w s).inbuf = s.inbuf := rfl
@[simp] theorem pushWord_ph (w : OpWord) (s : State) : (pushWord w s).ph = s.ph := rfl
@[simp] theorem pushWord_blkd (w : OpWord) (s : State) : (pushWord w s).blkd = s.blkd := rfl
@[simp] theorem pushWord_blkp (w : OpWord) (s : State) : (pushWord w s).blkp = s.blkp := rfl
@[simp] theorem pushWord_cfg (w : OpWord) (s : State) : (pushWord w s).cfg = s.cfg := rfl
@[simp] theorem pushWord_fecWin (w : OpWord) (s : State) : (pushWord w s).fecWin = s.fecWin := rfl
@[simp] theorem pushWord_fecNext (w : OpWord) (s : State) : (pushWord w s).fecNext = s.fecNext := rfl
@[simp] theorem pushWord_inq (w : OpWord) (s : State) : (pushWord w s).inq = .op w :: s.inq := rfl
@[simp] theorem pushWord_out (w : OpWord) (s : State) : (pushWord w s).out = s.out := rfl
@[simp] theorem pushWord_wires (w : OpWord) (s : State) : (pushWord w s).wires = s.wires := rfl

end Sys2Proof.Machine
end

