-- ==== Sys2Proof/Tests/Slice0.lean ====
section
/-! SUPPORT. The model's own tests: ill-formed words and configurations that the checks refuse, the decoding of every constructor's
word written out from its pattern, one-step tests with the expected values of 95_test_vectors.md, and a witness for the hypotheses
of every statement that has some. -/

namespace Sys2Proof.Tests

open Sys2Proof.Machine

/-! ### Helpers -/

/-- One field of the next state, if there is one. -/
def after {α : Type} (f : State → α) (r : Res) : Option α :=
  match r with
  | .next s => some (f s)
  | _ => none

/-- Whether there is a next state and it passes a check. -/
def holds (p : State → Bool) (r : Res) : Bool :=
  match r with
  | .next s => p s
  | _ => false

/-- A rational number. -/
abbrev num (q : Rat) : Scalar := .rat q

/-- A rational multiple of pi. -/
abbrev piTimes (q : Rat) : Scalar := Scalar.mul (.rat q) .pi

/-- A complex number with rational parts. -/
abbrev cnum (x y : Rat) : Cplx := ⟨num x, num y⟩

/-- The configuration CFG-A of 95_test_vectors.md section 1, with zeros for the gray tables. -/
def dataA : ConfigData where
  ntap := 1
  noff := 1
  hdepth := 3
  l := 3
  seed := 0x4D4B
  mflt := [[cnum 1 0]]
  sw := [.zero, .zero, .zero]
  gray := List.replicate 3 (List.replicate 256 .zero)

/-- The gray fixture FIXG of 95_test_vectors.md section 1. -/
def fixg : List (List Scalar) :=
  (List.range 3).map fun t => (List.range 256).map fun j =>
    if ([0b000, 0b001, 0b011, 0b010, 0b110, 0b111, 0b101, 0b100].getD ((j + 144) / 32 % 8) 0 : Nat).testBit (2 - t)
    then .one else .zero

def cfgA : Config := ⟨dataA, by decide +kernel⟩
def cfgG : Config := ⟨{ dataA with gray := fixg }, by decide +kernel⟩

/-- A configuration with `ntap` taps and three variants, whose variant 1 has the taps given. -/
def dataTaps (ntap : Nat) (taps : List Cplx) : ConfigData :=
  { dataA with
    ntap := ntap, noff := 3, mflt := [List.replicate ntap Cplx.zero, taps, List.replicate ntap Cplx.zero] }

def cfgTaps3 : Config := ⟨dataTaps 3 [cnum 1 0, cnum 0 1, cnum (-1) 0], by decide +kernel⟩
def cfgTaps4 : Config := ⟨dataTaps 4 (List.replicate 4 (cnum 1 0)), by decide +kernel⟩

/-- A configuration with L = 4, whose default FRNORM is 5. -/
def cfgL4 : Config := ⟨{ dataA with hdepth := 4, l := 4, sw := List.replicate 4 .zero }, by decide +kernel⟩

/-- A configuration with 13 filter variants. -/
def cfgOff13 : Config := ⟨{ dataA with noff := 13, mflt := List.replicate 13 [cnum 1 0] }, by decide +kernel⟩

/-- A configuration with a number format of its own. -/
def cfgFormat : Config := ⟨{ dataA with num := { arith := .format 0 } }, by decide +kernel⟩

/-- The machine after reset with the configuration CFG-A. -/
def s0 : State := { State.reset with cfg := cfgA }

/-! ### WellFormed: each check refuses a term that breaks it and no other -/

theorem test_wf_good_word : OpWord.wf ⟨0b011110, 25⟩ = true := by decide
theorem test_wf_cv_out_of_range : OpWord.cvInRange ⟨0b1000000, 2⟩ = false ∧ OpWord.wf ⟨0b1000000, 2⟩ = false := by decide
theorem test_wf_reserved_state : OpWord.stateKnown ⟨0b000001, 2⟩ = false ∧ OpWord.wf ⟨0b000001, 2⟩ = false := by decide
theorem test_wf_no_such_row : OpWord.rowKnown ⟨0b000000, 44⟩ = false ∧ OpWord.wf ⟨0b000000, 44⟩ = false := by decide
theorem test_wf_cv_mismatch : OpWord.cvMatches ⟨0b000000, 4⟩ = false ∧ OpWord.wf ⟨0b000000, 4⟩ = false := by decide
theorem test_wf_instr : Instr.wf .hdrfin = true := by decide
theorem test_decode_refuses_out_of_range : decode [0b1000000, 2] = .error .reservedCvBits := by rfl
theorem test_decode_refuses_reserved_state : decode [0b000101, 4] = .error .reservedState := by rfl
theorem test_decode_refuses_row : decode [0b000000, 44] = .error .noSuchRow := by rfl
theorem test_decode_refuses_mismatch : decode [0b000000, 4] = .error .cvMismatch := by rfl
theorem test_decode_refuses_one_byte : decode [0b000000] = .error .truncated := by rfl

theorem test_config_good : ConfigData.valid dataA = true := by decide +kernel
theorem test_config_no_taps : ConfigData.valid { dataA with ntap := 0, mflt := [[]] } = false := by decide +kernel
theorem test_config_even_variants :
    ConfigData.valid { dataA with noff := 2, mflt := [[cnum 1 0], [cnum 1 0]] } = false := by decide +kernel
theorem test_config_short_template : ConfigData.valid { dataA with l := 1, sw := [.zero] } = false := by decide +kernel
theorem test_config_short_history : ConfigData.valid { dataA with hdepth := 2 } = false := by decide +kernel
theorem test_config_norm_not_positive : ConfigData.valid { dataA with frnorm := .custom .zero } = false := by decide +kernel
theorem test_config_norm_custom : ConfigData.valid { dataA with frnorm := .custom .pi } = true := by decide +kernel
theorem test_config_missing_variant : ConfigData.valid { dataA with mflt := [] } = false := by decide +kernel
theorem test_config_missing_tap : ConfigData.valid { dataA with mflt := [[]] } = false := by decide +kernel
theorem test_config_template_length : ConfigData.valid { dataA with sw := [.zero, .zero] } = false := by decide +kernel
theorem test_config_missing_table : ConfigData.valid { dataA with gray := [] } = false := by decide +kernel
theorem test_config_table_length : ConfigData.valid { dataA with gray := [[], [], []] } = false := by decide +kernel
theorem test_config_gray_above_one :
    ConfigData.valid { dataA with gray := List.replicate 3 (List.replicate 256 (num 2)) } = false := by decide +kernel
theorem test_config_gray_below_zero :
    ConfigData.valid { dataA with gray := List.replicate 3 (List.replicate 256 (num (-1))) } = false := by decide +kernel

/-! ### Decoding: for every constructor a word written out from its pattern (30_encoding.md R98, R107), the bits the pattern
leaves open set, its row number in the second byte -/

theorem test_decode_reset : decode [0b111111, 1] = .ok (.reset, []) := by rfl   -- 1xxxxx
theorem test_decode_spush : decode [0b011111, 2] = .ok (.spush, []) := by rfl   -- 0xxxxx
theorem test_decode_dtick : decode [0b011111, 3] = .ok (.dtick, []) := by rfl   -- 0xxxxx
theorem test_decode_mfilt : decode [0b011111, 4] = .ok (.mfilt, []) := by rfl   -- 0xx1xx
theorem test_decode_phase : decode [0b011111, 5] = .ok (.phase, []) := by rfl   -- 0xx1xx
theorem test_decode_sy_sample : decode [0b011100, 6] = .ok (.sySample, []) := by rfl   -- 0xx100
theorem test_decode_sy_resid : decode [0b011100, 7] = .ok (.syResid, []) := by rfl   -- 0xx100
theorem test_decode_sy_unwrap : decode [0b011100, 8] = .ok (.syUnwrap, []) := by rfl   -- 0xx100
theorem test_decode_sy_dc : decode [0b011100, 9] = .ok (.syDc, []) := by rfl   -- 0xx100
theorem test_decode_sy_fit : decode [0b011100, 10] = .ok (.syFit, []) := by rfl   -- 0xx100
theorem test_decode_sy_err : decode [0b011100, 11] = .ok (.syErr, []) := by rfl   -- 0xx100
theorem test_decode_sy_peak : decode [0b011100, 12] = .ok (.syPeak, []) := by rfl   -- 0xx100
theorem test_decode_sy_acq : decode [0b011100, 13] = .ok (.syAcq, []) := by rfl   -- 0xx100
theorem test_decode_sy_interp : decode [0b011100, 14] = .ok (.syInterp, []) := by rfl   -- 0xx100
theorem test_decode_sy_split : decode [0b011100, 15] = .ok (.sySplit, []) := by rfl   -- 0xx100
theorem test_decode_sy_shift : decode [0b011100, 16] = .ok (.syShift, []) := by rfl   -- 0xx100
theorem test_decode_sclk : decode [0b011111, 17] = .ok (.sclk, []) := by rfl   -- 0xx11x
theorem test_decode_dm_diff : decode [0b011111, 18] = .ok (.dmDiff, []) := by rfl   -- 0x111x
theorem test_decode_dm_corr : decode [0b011111, 19] = .ok (.dmCorr, []) := by rfl   -- 0x111x
theorem test_decode_dm_quant : decode [0b011111, 20] = .ok (.dmQuant, []) := by rfl   -- 0x111x
theorem test_decode_dm_gray : decode [0b011111, 21] = .ok (.dmGray, []) := by rfl   -- 0x111x
theorem test_decode_descr : decode [0b011111, 22] = .ok (.descr, []) := by rfl   -- 0x11xx
theorem test_decode_bitdrop : decode [0b011100, 23] = .ok (.bitdrop, []) := by rfl   -- 0x1100
theorem test_decode_hdrbit : decode [0b011110, 24] = .ok (.hdrbit, []) := by rfl   -- 0x1110
theorem test_decode_hdrfin : decode [0b011110, 25] = .ok (.hdrfin, []) := by rfl   -- 011110
theorem test_decode_hd_conf : decode [0b011110, 26] = .ok (.hdConf, []) := by rfl   -- 011110
theorem test_decode_hd_len : decode [0b011110, 27] = .ok (.hdLen, []) := by rfl   -- 011110
theorem test_decode_hd_short : decode [0b011110, 28] = .ok (.hdShort, []) := by rfl   -- 011110
theorem test_decode_hd_geom : decode [0b011110, 29] = .ok (.hdGeom, []) := by rfl   -- 011110
theorem test_decode_hd_long : decode [0b011110, 30] = .ok (.hdLong, []) := by rfl   -- 011110
theorem test_decode_hd_accept : decode [0b011110, 31] = .ok (.hdAccept, []) := by rfl   -- 011110
theorem test_decode_databit : decode [0b011111, 32] = .ok (.databit, []) := by rfl   -- 0x1111
theorem test_decode_bstore : decode [0b011111, 33] = .ok (.bstore, []) := by rfl   -- 011111
theorem test_decode_badv : decode [0b011111, 34] = .ok (.badv, []) := by rfl   -- 011111
theorem test_decode_bdone : decode [0b011111, 35] = .ok (.bdone, []) := by rfl   -- 011111
theorem test_decode_dispatch : decode [0b011111, 36] = .ok (.dispatch, []) := by rfl   -- 011111
theorem test_decode_dm_upd : decode [0b011111, 37] = .ok (.dmUpd, []) := by rfl   -- 0x111x
theorem test_decode_toidle : decode [0b011111, 38] = .ok (.toidle, []) := by rfl   -- 01111x
theorem test_decode_step : decode [0b011111, 39] = .ok (.step, []) := by rfl   -- 0xxxxx
theorem test_decode_fdisp : decode [0b011111, 40] = .ok (.fdisp, []) := by rfl   -- 0xx1xx
theorem test_decode_sync : decode [0b011100, 41] = .ok (.sync, []) := by rfl   -- 0xx100
theorem test_decode_demod : decode [0b011111, 42] = .ok (.demod, []) := by rfl   -- 0x111x
theorem test_decode_putbit : decode [0b011111, 43] = .ok (.putbit, []) := by rfl   -- 0x11xx

/-- The encoder's words of all instructions decode to them, and their row numbers follow the table. -/
theorem test_encode_all : (mapRows ++ compositeRows).all (fun i =>
    rowInstr i.rowNumber == some i && decodeTableWord 16 (i.cvMatch.toNat + 256 * i.rowNumber) == some i) = true := by
  decide +kernel

/-- A word that names no row stands for the most specific row its control vector selects (the model's choice, log 10). -/
theorem test_bare_words :
    decodeTableWord 8 0b100000 = some .reset ∧ decodeTableWord 8 0b000000 = some .spush ∧
    decodeTableWord 8 0b000100 = some .sySample ∧ decodeTableWord 8 0b000110 = some .sclk ∧
    decodeTableWord 8 0b001100 = some .bitdrop ∧ decodeTableWord 8 0b001110 = some .hdrbit ∧
    decodeTableWord 8 0b001111 = some .databit ∧ decodeTableWord 8 0b011110 = some .hdrfin ∧
    decodeTableWord 8 0b011111 = some .bstore ∧ decodeTableWord 8 0b000001 = none := by decide +kernel

/-- `withFetchWord` puts the word where the next step fetches it, and the step runs its instruction. -/
theorem test_fetch_word : after (fun t => (t.state, t.off, t.inq)) (step ({ s0 with state := .data, off := 3 }.withFetchWord 16
    (0b011110 + 256 * 38))) = some (.idle, 0, []) := by decide +kernel

/-! ### One step of each operation, on the vectors of 95_test_vectors.md -/

/-- Section 3.6: RESET from another context. -/
theorem test_reset : holds (fun t =>
    t.state == .idle && t.perr == num 500 && t.pr == .one && t.scr == 0 && t.nbrow == 0 && t.inbuf == [] && t.blkd == []
      && t.out == [])
    (exec .reset { s0 with
      state := .data, perr := .one, pr := num (1 / 2), scr := 5, nbrow := 3
      inbuf := [(0, cnum 1 1)], blkd := [(7, 8)] }) = true := by
  decide +kernel

/-- Section 3.1, F3. -/
theorem test_spush_wraps : after (fun t => (t.inbuf, t.ink))
    (exec .spush { s0 with cfg := cfgTaps4, ink := 3, wires := { Wires.none with x := cnum 2 2 } })
    = some ([(3, cnum 2 2)], 0) := by decide +kernel

/-- Section 3.1, F11: the tick is the old `dec`. -/
theorem test_dtick : after (fun t => (t.wires.tick, t.dec)) (exec .dtick { s0 with dec := 1 }) = some (1, 0) := by
  decide +kernel

/-- Section 3.1, F5: oldest sample first, and no conjugate. -/
theorem test_mfilt_window_order : after (fun t => t.wires.filtered)
    (exec .mfilt { s0 with cfg := cfgTaps3, off := 1, ink := 1, inbuf := [(0, cnum 2 0), (1, cnum 0 1), (2, cnum 1 1)] })
    = some (cnum (-3) 2) := by decide +kernel

/-- Section 3.1, F10. -/
theorem test_phase_wraps : after (fun t => (t.ph, t.phidx, t.wires.slot))
    (exec .phase { s0 with phidx := 23, wires := { Wires.none with filtered := cnum 0 1 } })
    = some ([(23, piTimes (1 / 2))], 0, 23) := by decide +kernel

/-- Section 3.1, F8 and F5: the negative real axis has the angle +pi, and the angle of -3 + 2i, about 2.5535901, is kept exactly. -/
theorem test_phase_angles :
    after (fun t => t.wires.phase) (exec .phase { s0 with wires := { Wires.none with filtered := cnum (-2) 0 } }) = some .pi ∧
    after (fun t => (t.wires.phase, Scalar.lt (num 2.55359005) t.wires.phase && Scalar.lt t.wires.phase (num 2.55359015)))
      (exec .phase { s0 with wires := { Wires.none with filtered := cnum (-3) 2 } })
      = some (.angle (num (-3)) (num 2), true) := by decide +kernel

/-- The phases of 2 + i and -2 - i: no enclosure separates their difference from pi. -/
abbrev exactlyPi : Scalar := .diff (.angle (num 2) (num 1)) (.angle (num (-2)) (num (-1)))

/-- R14 and R172: a difference of exactly pi is not wrapped, however it is written. -/
theorem test_difference_of_exactly_pi_is_not_wrapped : cfgA.num.wrap exactlyPi = exactlyPi := by
  have hd : exactlyPi.toReal = Real.pi := by
    simp only [Scalar.toReal, Scalar.toReal_rat]
    rw [arg_of_im_pos (by norm_num), arg_of_im_neg (by norm_num)]
    norm_num
  have h1 : cfgA.num.gt exactlyPi .pi = false := by
    rw [Numerics.gt_exact (n := cfgA.num) rfl, Scalar.lt_eq_false_iff, hd]; simp
  have h2 : cfgA.num.gt exactlyPi .negPi = true := by
    rw [Numerics.gt_exact (n := cfgA.num) rfl, Scalar.lt_iff, hd]; simp [Real.pi_pos]
  simp [Numerics.wrap, h1, h2]

/-- R150: `of` = 3 e / e, for an angle e, gives the symbol clock 2, though no enclosure settles the rounding. -/
theorem test_split_at_three_written_as_a_quotient :
    clkInit cfgA (Scalar.div (.mul (num 3) (.angle (num 1) (num 2))) (.angle (num 1) (num 2))) = 2 := by
  have he : (Scalar.angle (num 1) (num 2)).toReal ≠ 0 := by
    have h := (Scalar.lt_iff .zero (.angle (num 1) (num 2))).1 (by decide +kernel)
    exact h.ne'
  have hr : splitRound cfgA (Scalar.div (.mul (num 3) (.angle (num 1) (num 2))) (.angle (num 1) (num 2))) = 2 := by
    rw [splitRound, Numerics.round_exact (n := cfgA.num) rfl, Numerics.div_exact (n := cfgA.num) rfl, Scalar.round_eq,
      Scalar.toReal_div (by simp), Scalar.toReal_div he, Scalar.toReal_mul, mul_div_assoc, div_self he]
    norm_num [roundReal]
  simp only [clkInit, hr]
  rfl

/-- Section 3.2: w = 2 takes the elements 10, 18, 2. -/
theorem test_sy_sample_addresses : after (fun t => t.wires.h)
    (exec .sySample { s0 with ph := [(2, num 1), (9, num 7), (10, num 2), (18, num 3)], wires := { Wires.none with slot := 2 } })
    = some [num 2, num 3, num 1] := by decide +kernel

/-- Section 3.2, D on the program: c = h - SW. -/
theorem test_sy_resid : after (fun t => t.wires.c)
    (exec .syResid { s0 with
      cfg := ⟨{ dataA with sw := [num 0, num 1, num 2] }, by decide +kernel⟩
      wires := { Wires.none with h := [num 1, num 2, num (-1)] } })
    = some [num 1, num 1, num (-3)] := by decide +kernel

/-- Section 3.2, U2. -/
theorem test_sy_unwrap : after (fun t => t.wires.r) (exec .syUnwrap { s0 with wires := { Wires.none with
    c := [3 / 4, -3 / 4, -1 / 4, 1 / 4, 3 / 4].map piTimes } })
    = some ([3 / 4, 5 / 4, 7 / 4, 9 / 4, 11 / 4].map piTimes) := by decide +kernel

/-- Section 3.2, U4: differences of exactly pi are not corrected. -/
theorem test_sy_unwrap_exact_pi : after (fun t => t.wires.r)
    (exec .syUnwrap { s0 with wires := { Wires.none with c := [0, 1, 0, -1, 0].map piTimes } })
    = some ([0, 1, 0, -1, 0].map piTimes) := by
  decide +kernel

/-- Section 3.2, U10. -/
theorem test_sy_dc : after (fun t => t.wires.z)
    (exec .syDc { s0 with cfg := cfgL4, wires := { Wires.none with r := [0, 1, 0, 1].map num } })
    = some ([-1 / 2, 1 / 2, -1 / 2, 1 / 2].map num) := by decide +kernel

/-- Section 3.2, U10: the abscissa of even L is half-integer. -/
theorem test_sy_fit : after (fun t => t.fr)
    (exec .syFit { s0 with cfg := cfgL4, wires := { Wires.none with z := [-1 / 2, 1 / 2, -1 / 2, 1 / 2].map num } })
    = some (num (1 / 5)) := by decide +kernel

/-- Section 3.2, U10. -/
theorem test_sy_err : after (fun t => t.err)
    (exec .syErr { s0 with
      cfg := cfgL4, fr := num (1 / 5), wires := { Wires.none with z := [-1 / 2, 1 / 2, -1 / 2, 1 / 2].map num } })
    = some (num (4 / 5)) := by decide +kernel

/-- Section 3.2: both comparisons of SY.PEAK are strict. -/
theorem test_sy_peak_true : after (fun t => t.wires.peak) (exec .syPeak { s0 with perr := num (3999 / 1000), err := num 4 })
    = some true := by decide +kernel
theorem test_sy_peak_threshold : after (fun t => t.wires.peak) (exec .syPeak { s0 with perr := num 4, err := num 5 })
    = some false := by decide +kernel

/-- Section 3.2: SY.ACQ. -/
theorem test_sy_acq : holds (fun t =>
    t.tstamp == 77 && t.state == .header && t.nbits == 0 && t.col == 0 && t.scr == 0x4D4B && t.df == num (1 / 100)
      && t.clk == 1 && t.off == 3 && t.perr == num 500 && t.p2err == num 500
      && t.out == [.fecReset, .event (.acq (num (3 / 2)) 1 3 (num (1 / 100)))])
    (exec .syAcq { s0 with
      cfg := cfgOff13, p2err := num (25 / 16), perr := num (1 / 16), err := num (9 / 16), pfr := num (1 / 100), nbits := 25
      col := 251, scr := 0xCE1E, wires := { Wires.none with now := 77 } }) = true := by
  decide +kernel

/-- Section 3.2: (4, 3.9, 3.95) gives 5/3. -/
theorem test_sy_interp : after (fun t => t.wires.fracOff)
    (exec .syInterp { s0 with p2err := num 4, perr := num (39 / 10), err := num (395 / 100) }) = some (num (5 / 3)) := by
  decide +kernel

/-- Section 3.2: 7/4 gives (1, 4), since -1.5 rounds away from zero; 3 gives (2, 0). -/
theorem test_sy_split_ties : after (fun t => (t.clk, t.off))
    (exec .sySplit { s0 with cfg := cfgOff13, wires := { Wires.none with fracOff := num (7 / 4) } }) = some (1, 4) := by
  decide +kernel
theorem test_sy_split_at_three : after (fun t => (t.clk, t.off))
    (exec .sySplit { s0 with cfg := cfgOff13, wires := { Wires.none with fracOff := num 3 } }) = some (2, 0) := by
  decide +kernel

/-- Section 3.2: SY.SHIFT. -/
theorem test_sy_shift : after (fun t => (t.p2err, t.perr, t.pfr, t.prevph))
    (exec .syShift { s0 with err := num (3 / 10), fr := num (2 / 100), wires := { Wires.none with phase := .one } })
    = some (num 500, num (3 / 10), num (2 / 100), .one) := by decide +kernel

/-- Section 3.3: SCLK 6 to 7, and 7 to 0 with DEMOD, which retains the phase. -/
theorem test_sclk_counts : after (fun t => (t.clk, t.prevph))
    (exec .sclk { s0 with state := .header, clk := 6, wires := { Wires.none with phase := .one } }) = some (7, .zero) := by
  decide +kernel
theorem test_sclk_demodulates : after (fun t => (t.clk, t.prevph))
    (exec .sclk { s0 with state := .header, clk := 7, wires := { Wires.none with phase := .one } }) = some (0, .one) := by
  decide +kernel

/-- Section 3.3: a raw difference of -pi becomes +pi. -/
theorem test_dm_diff_half_turn : after (fun t => t.wires.d0) (exec .dmDiff { s0 with prevph := .pi }) = some .pi := by
  decide +kernel
theorem test_dm_diff_wraps : after (fun t => t.wires.d0)
    (exec .dmDiff { s0 with prevph := piTimes (-3 / 4), wires := { Wires.none with phase := piTimes (3 / 4) } })
    = some (piTimes (-1 / 2)) := by decide +kernel

/-- Section 3.3: the corrected difference is not wrapped again. -/
theorem test_dm_corr : after (fun t => t.wires.d)
    (exec .dmCorr { s0 with df := piTimes (-1 / 4), wires := { Wires.none with d0 := .pi } }) = some (piTimes (5 / 4)) := by
  decide +kernel

/-- Section 3.3: 1/256 gives 129 (128.5 rounds away from zero), 255/256 is clamped to 255. -/
theorem test_dm_quant_tie : after (fun t => t.wires.idx)
    (exec .dmQuant { s0 with wires := { Wires.none with d := piTimes (1 / 256) } }) = some 129 := by decide +kernel
theorem test_dm_quant_clamps : after (fun t => t.wires.idx)
    (exec .dmQuant { s0 with wires := { Wires.none with d := piTimes (255 / 256) } }) = some 255 := by decide +kernel

/-- Section 3.3: the fixture at 192 is (0, 1, 1), at 96 (1, 0, 0). -/
theorem test_dm_gray : after (fun t => (t.wires.s0, t.wires.s1, t.wires.s2))
    (exec .dmGray { s0 with cfg := cfgG, wires := { Wires.none with idx := 192 } }) = some (.zero, .one, .one) := by decide +kernel

/-- 42_demod.md R176. -/
theorem test_dm_upd : after (fun t => t.prevph) (exec .dmUpd { s0 with wires := { Wires.none with phase := .one } })
    = some .one := by decide +kernel

/-- Section 3.3: the seed 0x4000 gives the feedback bit 1 and the word 0x8001. -/
theorem test_descr_inverts : after (fun t => (t.scr, t.wires.v))
    (exec .descr { s0 with scr := 0x4000, wires := { Wires.none with sv := num (1 / 4) } }) = some (0x8001, num (3 / 4)) := by
  decide +kernel
/-- Section 3.3: the seed 0x4D4B gives the feedback bit 0 and the word 0x9A96. -/
theorem test_descr_passes : after (fun t => (t.scr, t.wires.v))
    (exec .descr { s0 with scr := 0x4D4B, wires := { Wires.none with sv := num (1 / 4) } }) = some (0x9A96, num (1 / 4)) := by
  decide +kernel

/-- 42_demod.md R179. -/
theorem test_bitdrop : after (fun t => (t.nbits, t.out)) (exec .bitdrop { s0 with nbits := 3 }) = some (3, []) := by
  decide +kernel

/-- Section 3.4: HDRBIT with `nbits` = 7. -/
theorem test_hdrbit : after (fun t => (t.nbits, t.out))
    (exec .hdrbit { s0 with state := .header, nbits := 7, wires := { Wires.none with v := num (1 / 4) } })
    = some (8, [.fecPush (num (1 / 4)) 7]) := by decide +kernel

/-- Section 2, S5: 0.03 is rejected with a valid length, and 0.04 is accepted. -/
theorem test_hdrfin_confidence : after (fun t => (t.state, t.nbrow, t.out))
    (exec .hdrfin { s0 with state := .header, fecNext := some (num (3 / 100), 0x04C000) })
    = some (.idle, 0, [.fecFin (num (3 / 100)) 0x04C000, .event (.failConf (num (3 / 100)))]) := by decide +kernel
theorem test_hdrfin_accepts : after (fun t => (t.state, t.nbrow, t.nbbyte, t.fecNext))
    (exec .hdrfin { s0 with state := .header, fecNext := some (num (4 / 100), 0x04C000) })
    = some (.data, 1, 25, none) := by decide +kernel

/-- Section 2, S5: the comparison is strict. -/
theorem test_hd_conf_boundary : after (fun t => (t.wires.ok, t.state))
    (exec .hdConf { s0 with state := .header, wires := { Wires.none with vp := num (4 / 100) } }) = some (true, .header) := by
  decide +kernel
theorem test_hd_conf_below : after (fun t => (t.wires.ok, t.state))
    (exec .hdConf { s0 with state := .header, wires := { Wires.none with vp := num (39999 / 1000000) } })
    = some (false, .idle) := by decide +kernel

/-- Section 3.4: the ignored bits change nothing. -/
theorem test_hd_len : after (fun t => t.wires.len)
    (exec .hdLen { s0 with wires := { Wires.none with decodedBits := 0xFFC4C01F } }) = some 200 := by decide +kernel
theorem test_hd_len_largest : after (fun t => t.wires.len)
    (exec .hdLen { s0 with wires := { Wires.none with decodedBits := 0x38E7E0 } }) = some 129479 := by decide +kernel

/-- Section 3.4: 103 is short, 104 is not. -/
theorem test_hd_short : after (fun t => (t.wires.ok, t.out))
    (exec .hdShort { s0 with wires := { Wires.none with len := 103 } }) = some (false, [.event (.failShort 103)]) := by
  decide +kernel
theorem test_hd_short_minimum : after (fun t => (t.wires.ok, t.out))
    (exec .hdShort { s0 with wires := { Wires.none with len := 104 } }) = some (true, []) := by decide +kernel

/-- Section 3.4: 1992 gives (2, 0), 65536 gives (33, 224). -/
theorem test_hd_geom : after (fun t => (t.wires.nr, t.wires.nb))
    (exec .hdGeom { s0 with wires := { Wires.none with len := 1992 } }) = some (2, 0) := by decide +kernel
theorem test_hd_geom_large : after (fun t => (t.wires.nr, t.wires.nb))
    (exec .hdGeom { s0 with wires := { Wires.none with len := 65536 } }) = some (33, 224) := by decide +kernel

/-- Section 3.4: 66 rows are too many, 65 are not. -/
theorem test_hd_long : after (fun t => (t.wires.ok, t.out))
    (exec .hdLong { s0 with wires := { Wires.none with len := 129480, nr := 66 } })
    = some (false, [.event (.failLong 129480 66)]) := by decide +kernel
theorem test_hd_long_largest : after (fun t => (t.wires.ok, t.out))
    (exec .hdLong { s0 with wires := { Wires.none with len := 129479, nr := 65 } }) = some (true, []) := by decide +kernel

/-- Section 3.4: HD.ACCEPT. -/
theorem test_hd_accept : holds (fun t =>
    t.nbrow == 1 && t.nbbyte == 25 && t.state == .data && t.row == 0 && t.col == 0 && t.nbits == 0 && t.bits == 0
      && t.pr == .one && t.out == [.event (.hdrOk 200 1 25)])
    (exec .hdAccept { s0 with
      state := .header, nbits := 25, row := 3, col := 9, bits := 0x5A, pr := num (3 / 10)
      wires := { Wires.none with len := 200, nr := 1, nb := 25 } }) = true := by
  decide +kernel

/-- Section 3.5: V = 0.75 and V = 0.5 from `nbits` = 3, `bits` = 5, `pr` = 0.9. -/
theorem test_databit_one : after (fun t => (t.bits, t.pr, t.nbits)) (exec .databit { s0 with
    state := .data, nbits := 3, bits := 5, pr := num (9 / 10), wires := { Wires.none with v := num (3 / 4) } })
    = some (0x0D, num (675 / 1000), 4) := by decide +kernel
theorem test_databit_half : after (fun t => (t.bits, t.pr, t.nbits)) (exec .databit { s0 with
    state := .data, nbits := 3, bits := 5, pr := num (9 / 10), wires := { Wires.none with v := num (1 / 2) } })
    = some (5, num (45 / 100), 4) := by decide +kernel

/-- 44_block.md R211. -/
theorem test_bstore : after (fun t => (blkdAt t 1 2, blkpAt t 1 2, t.bits, t.pr, t.nbits))
    (exec .bstore { s0 with row := 1, col := 2, bits := 0xAA, pr := num (1 / 4), nbits := 8 })
    = some (0xAA, num (1 / 4), 0, .one, 0) := by decide +kernel

/-- Section 3.5: the jump of a one-row block, and the last row skipped. -/
theorem test_badv_jump : after (fun t => (t.row, t.col)) (exec .badv { s0 with nbrow := 1, nbbyte := 25, col := 24 })
    = some (0, 249) := by decide +kernel
theorem test_badv_skips_last_row : after (fun t => (t.row, t.col)) (exec .badv { s0 with nbrow := 2, nbbyte := 1, col := 1 })
    = some (0, 2) := by decide +kernel

/-- Section 3.5: (2, 1) is complete at (1, 251), (1, 30) is not at (0, 251). -/
theorem test_bdone : after (fun t => t.wires.done) (exec .bdone { s0 with nbrow := 2, nbbyte := 1, row := 1, col := 251 })
    = some true := by decide +kernel
theorem test_bdone_size_class : after (fun t => t.wires.done) (exec .bdone { s0 with nbrow := 1, nbbyte := 30, col := 251 })
    = some false := by decide +kernel

/-- 44_block.md R214. -/
theorem test_dispatch : after (fun t => (t.state, t.off, t.out)) (exec .dispatch { s0 with
    state := .data, off := 2, nbrow := 1, nbbyte := 25, tstamp := 42, blkd := [(0, 1)], blkp := [(0, .one)] })
    = some (.idle, 0, [.block 1 25 [(0, 1)] [(0, .one)] 42, .event .blockDone]) := by decide +kernel

/-- Section 3.6: TOIDLE. -/
theorem test_toidle : after (fun t => (t.state, t.off, t.nbits, t.df))
    (exec .toidle { s0 with state := .header, off := 7, nbits := 25, df := num (1 / 10) }) = some (.idle, 0, 25, num (1 / 10)) := by
  decide +kernel

/-- Section 4, program A, sample 6: STEP, FDISP and SYNC acquire with `of` = 3. -/
theorem test_step_acquires : holds (fun t =>
    t.ph == [(2, piTimes (1 / 2))] && t.fr == piTimes (1 / 4) && t.err == .poly [0, 0, 1 / 24] && t.state == .header && t.clk == 2
      && t.scr == 0x4D4B && t.tstamp == 1006 && t.prevph == .zero && t.out == [.fecReset, .event (.acq (num 3) 2 0 .zero)])
    (step { s0 with
      dec := 1, phidx := 2, perr := .zero, p2err := .zero
      inq := [.sample (.finite .zero) (.finite .one) 1006] }) = true := by
  decide +kernel

/-- Section 3.1, F1: no filter tick. -/
theorem test_step_no_tick : holds (fun t =>
    t.inbuf == [(0, cnum 1 0)] && t.ink == 0 && t.dec == 1 && t.ph == [] && t.out == [])
    (step { s0 with inq := [.sample (.finite .one) (.finite .zero) 1001] }) = true := by
  decide +kernel

/-- Section 3.1, F12: outside IDLE only SCLK runs. -/
theorem test_fdisp_locked : after (fun t => (t.clk, t.err)) (exec .fdisp { s0 with state := .header, clk := 3, err := num 9 })
    = some (4, num 9) := by decide +kernel

/-- Section 4, program A, sample 2: SYNC without a peak ages the trackers. -/
theorem test_sync_shifts : after (fun t => (t.err, t.perr, t.p2err, t.state))
    (exec .sync { s0 with wires := { Wires.none with slot := 0 } }) = some (.zero, .zero, num 500, .idle) := by decide +kernel

/-- Section 4, program A, sample 18: DEMOD. -/
theorem test_demod : after (fun t => (t.out, t.nbits, t.scr, t.prevph)) (exec .demod { s0 with
    cfg := cfgG, state := .header, scr := 0x4D4B, wires := { Wires.none with phase := piTimes (1 / 2) } })
    = some ([.fecPush .zero 0, .fecPush .one 1, .fecPush .one 2], 3, 0x6A58, piTimes (1 / 2)) := by decide +kernel

/-- Section 4, program B, bit 240: PUTBIT completes and dispatches the block. -/
theorem test_putbit_dispatches : after (fun t => (t.state, t.row, t.col, t.nbits, t.scr, blkdAt t 0 250))
    (step { s0 with
      state := .data, nbrow := 1, nbbyte := 25, nbits := 7, bits := 0x55, col := 250, scr := 0x670F, inq := [.putbit .zero] })
    = some (.idle, 0, 251, 0, 0xCE1E, 0x55) := by decide +kernel
/-- Section 4, program D, variant V1: a bit in IDLE only advances the descrambler. -/
theorem test_putbit_idle : after (fun t => (t.scr, t.nbits, t.out)) (step { s0 with scr := 0x4D4B, inq := [.putbit .one] })
    = some (0x9A96, 0, []) := by decide +kernel

/-! ### Witnesses: for every statement with hypotheses, concrete states and operands that meet them, one for each clause and at the
boundaries of its ranges -/

/-- A state in DATA at the start of the smallest block, (1, 13). -/
def sData : State := { s0 with state := .data, nbrow := 1, nbbyte := 13 }

/-- A state in HEADER. -/
def sHeader : State := { s0 with state := .header }

theorem witness_DecodeAgreesWithTheOperationMap :
    OpWord.wf ⟨0b011100, BitVec.ofNat 8 Instr.spush.rowNumber⟩ = true ∧ decode [0b011110, 25] = .ok (.hdrfin, []) :=
  ⟨by decide, rfl⟩

theorem witness_StepRunsTheInstructionOfTheNextLine :
    { s0 with inq := [.op ⟨0b011110, 38⟩] }.inq = .op ⟨0b011110, 38⟩ :: [] ∧
    decode (OpWord.bytes ⟨0b011110, 38⟩) = .ok (.toidle, []) ∧ decode (OpWord.bytes ⟨0, 44⟩) = .error .noSuchRow ∧
    { s0 with inq := [.sample (.finite .one) (.finite .zero) 5] }.inq = .sample (.finite .one) (.finite .zero) 5 :: [] ∧
    { s0 with inq := [.reset] }.inq = .reset :: [] ∧ { s0 with inq := [.putbit .one] }.inq = .putbit .one :: [] ∧
    { s0 with inq := [.fec (.finite .one) 0] }.inq = .fec (.finite .one) 0 :: [] ∧ s0.inq = [] :=
  ⟨rfl, rfl, rfl, rfl, rfl, rfl, rfl, rfl⟩

theorem witness_StopsOutsideTheContract :
    { s0 with inq := [.sample .nonFinite (.finite .zero) 5] }.inq = .sample .nonFinite (.finite .zero) 5 :: [] ∧
    { s0 with inq := [.sample (.finite .zero) .nonFinite 5] }.inq = .sample (.finite .zero) .nonFinite 5 :: [] ∧
    { s0 with inq := [.fec .nonFinite 0] }.inq = .fec .nonFinite 0 :: [] ∧
    65 ≤ ({ s0 with row := 65 }).row.toNat ∧ 255 ≤ ({ s0 with col := 255 }).col.toNat ∧
    s0.cfg.noff ≤ ({ s0 with off := 1 }).off := ⟨rfl, rfl, rfl, by decide, by decide, by decide⟩

theorem witness_SpushStoresTheSampleAndAdvances : Memory.wf Cplx.zero s0.inbuf = true := by decide

theorem witness_DtickTogglesTheDecimationPhase : s0.dec = 0 ∧ ({ s0 with dec := 1 }).dec = 1 := by decide

theorem witness_MfiltIsTheInnerProduct :
    s0.off < s0.cfg.noff ∧ ({ s0 with cfg := cfgTaps3, off := 2 }).off < cfgTaps3.noff ∧ s0.cfg.num.arith = .exact := by
  decide

theorem witness_PhaseAppendsTheAngle :
    Memory.wf .zero s0.ph = true ∧ s0.phidx < s0.cfg.phlen ∧ ({ s0 with phidx := 23 }).phidx < s0.cfg.phlen ∧
    s0.wires.filtered = ⟨.zero, .zero⟩ ∧ s0.cfg.num.arith = .exact ∧ cfgFormat.num.arith = .format 0 ∧
    (cnum (-2) 0).im.toReal = 0 ∧ (cnum (-2) 0).re.toReal < 0 ∧ (cnum (-2) 0).im = .zero ∧ (cnum (-2) 0).re ≠ .zero := by
  refine ⟨rfl, by decide, by decide, rfl, rfl, rfl, ?_, ?_, by decide +kernel, by decide +kernel⟩ <;> norm_num

theorem witness_AngleOnAxesAndDiagonals :
    cfgA.num.arith = .exact ∧ (0 : Rat) < 1 ∧ Scalar.one.toReal ≠ 0 ∧ 0 < Scalar.one.toReal :=
  ⟨rfl, by decide +kernel, by simp, by simp⟩

/-- A quotient by a number that is not 0, a tie of `round`, and the three cases of `wrap`. -/
theorem witness_ExactArithmeticIsThatOfTheReals :
    s0.cfg.num.arith = .exact ∧ Scalar.one.toReal ≠ 0 ∧ |(num (1 / 2)).toReal - s0.cfg.num.round (num (1 / 2))| = 1 / 2 ∧
    (piTimes 2).toReal > Real.pi ∧ Scalar.negPi.toReal ≤ -Real.pi ∧
    (-Real.pi < Scalar.pi.toReal ∧ Scalar.pi.toReal ≤ Real.pi) := by
  have hpi := Real.pi_pos
  refine ⟨rfl, by simp, ?_, by simp [piTimes]; linarith, by simp, by simp [hpi]⟩
  rw [show s0.cfg.num.round (num (1 / 2)) = 1 by decide +kernel]
  norm_num

theorem witness_SySampleTakesEvenlySpacedEntries : 0 < s0.cfg.l ∧ 2 < s0.cfg.l := by decide

theorem witness_SyncWindowAddressesAreDistinct :
    0 < cfgA.l ∧ 2 < cfgA.l ∧ eaPh cfgA 2 1 = eaPh cfgA 2 1 ∧ cfgA.data.hdepth = cfgA.l ∧ 23 < cfgA.phlen := by decide

theorem witness_SyResidSubtractsTheTemplate :
    ({ s0 with wires := { Wires.none with h := [num 1, num 2, num 3] } }).wires.h.length = s0.cfg.l ∧
    s0.cfg.num.arith = .exact ∧
    2 < s0.cfg.l := by decide

/-- The three cases of the correction, at the raw differences 4, -4 and exactly pi. -/
theorem witness_SyUnwrapFollowsTheRunningCorrection :
    0 + 1 < [Scalar.zero, num 4, .zero, .pi].length ∧
    s0.cfg.num.gt (s0.cfg.num.sub (num 4) .zero) .pi = true ∧
    s0.cfg.num.gt (s0.cfg.num.sub .zero (num 4)) .pi = false ∧ s0.cfg.num.lt (s0.cfg.num.sub .zero (num 4)) .negPi = true ∧
    s0.cfg.num.gt (s0.cfg.num.sub .pi .zero) .pi = false ∧ s0.cfg.num.lt (s0.cfg.num.sub .pi .zero) .negPi = false := by
  decide +kernel

/-- Raw residuals, and the phases (pi, 0, pi), whose raw differences are -pi and pi. -/
theorem witness_UnwrapIsContinuousBelowThreePi :
    cfgA.num.arith = .exact ∧ 0 + 1 < [Scalar.zero, piTimes 3].length ∧
    [Scalar.pi, .zero, .pi].length = cfgA.l ∧
    (∀ v ∈ [Scalar.pi, .zero, .pi], -Real.pi < v.toReal ∧ v.toReal ≤ Real.pi) ∧
    (∀ k, k + 1 < cfgA.l →
      |(cfgA.data.sw.getD (k + 1) .zero).toReal - (cfgA.data.sw.getD k .zero).toReal| ≤ Real.pi) ∧ 1 + 1 < cfgA.l := by
  have hpi := Real.pi_pos
  refine ⟨rfl, by decide, rfl, ?_, ?_, by decide⟩
  · simp [hpi, hpi.le]
  · intro k hk
    have e : ∀ j < 3, cfgA.data.sw.getD j .zero = .zero := by decide
    rw [e (k + 1) hk, e k (Nat.lt_of_succ_lt hk)]
    simp [hpi.le]

theorem witness_SyDcRemovesTheMean :
    ({ s0 with wires := { Wires.none with r := [num 1, num 2, num 3] } }).wires.r.length = s0.cfg.l ∧ 2 < s0.cfg.l ∧
    s0.cfg.num.arith = .exact := by decide

theorem witness_SyFitAndSyErrFormulas : s0.cfg.num.arith = .exact ∧ s0.cfg.data.frnorm = .default := by decide

theorem witness_LineFitIsLeastSquares :
    s0.cfg.num.arith = .exact ∧
    ({ s0 with wires := { Wires.none with z := [-1, 2, -1].map num } }).wires.z.length = s0.cfg.l ∧
    ∑ k ∈ Finset.range s0.cfg.l, (([-1, 2, -1].map num).getD k .zero).toReal = 0 ∧ s0.cfg.data.frnorm = .default := by
  refine ⟨rfl, rfl, ?_, rfl⟩
  simp only [s0, cfgA, dataA, Finset.sum_range_succ, Finset.sum_range_zero]
  norm_num

/-- Program C of 95_test_vectors.md, in whole numbers: 9/8, 1/8, 9/8 is the parabola (x - 1)^2 + 1/8. -/
theorem witness_SyInterpInterpolatesTheParabola :
    s0.cfg.num.arith = .exact ∧ (num 2).toReal - 2 * (num 1).toReal + (num 2).toReal ≠ 0 ∧ (1 : ℝ) ≠ 0 ∧
    (num (9 / 8)).toReal = 1 * (0 - 1) ^ 2 + 1 / 8 ∧ (num (1 / 8)).toReal = 1 * (1 - 1) ^ 2 + 1 / 8 ∧
    (num (9 / 8)).toReal = 1 * (2 - 1) ^ 2 + 1 / 8 := by
  refine ⟨rfl, ?_, ?_, ?_, ?_, ?_⟩ <;> norm_num

/-- The trackers 1, 1, 2 (`of` = 3) and 2, 1, 2 (`of` below 3). -/
theorem witness_InterpolationLiesInOneToThree :
    s0.cfg.num.arith = .exact ∧ TrackersOk { s0 with p2err := num 1, perr := num 1, err := num 2 } ∧
    TrackersOk { s0 with p2err := num 2, perr := num 1, err := num 2 } ∧
    after (fun t => t.wires.peak) (exec .syPeak { s0 with p2err := num 1, perr := num 1, err := num 2 }) = some true ∧
    after (fun t => t.wires.peak) (exec .syPeak { s0 with p2err := num 2, perr := num 1, err := num 2 }) = some true :=
  ⟨rfl, fun _ _ => by norm_num, fun _ _ => by norm_num, by decide +kernel, by decide +kernel⟩

/-- `of` at 2 and at the boundary 3, with 13 filter variants. -/
theorem witness_SySplitGivesClockAndVariant :
    cfgOff13.data.split = .default ∧ cfgOff13.num.arith = .exact ∧
    (1 < (num 2).toReal ∧ (num 2).toReal < 3) ∧ (1 < (num 3).toReal ∧ (num 3).toReal ≤ 3 ∧ (num 3).toReal = 3) ∧
    clkInit cfgOff13 (num 2) = 1 ∧ clkInit cfgOff13 (num 3) = 2 := by
  refine ⟨rfl, rfl, by norm_num, by norm_num, by decide +kernel, by decide +kernel⟩

/-- The peak of program A at sample 6, and the absence of one right after reset. -/
theorem witness_SyncAcquiresOrShifts :
    (after (fun t => t.cfg.num.lt .zero (.rat 4) && t.cfg.num.gt t.err .zero) (exec .sync { s0 with
      perr := .zero, p2err := .zero, ph := [(2, piTimes (1 / 2))], wires := { Wires.none with slot := 2 } }) = some true) ∧
    s0.cfg.num.lt s0.perr (.rat 4) = false := by decide +kernel

theorem witness_SclkCountsOrDemodulates :
    s0.clk.toNat < 7 ∧ ({ s0 with clk := 6 }).clk.toNat < 7 ∧ ({ s0 with clk := 7 }).clk.toNat = 7 := by decide

/-- The three cases of the wrap: the raw differences 3 pi / 2, exactly -pi and exactly pi. -/
theorem witness_DmDiffWrapsThePhaseDifference :
    s0.cfg.num.arith = .exact ∧
    (phaseOk s0.cfg.num .pi ∧ phaseOk s0.cfg.num (piTimes (-1 / 2)) ∧ phaseOk s0.cfg.num .zero) ∧
    (s0.cfg.num.gt (s0.cfg.num.sub .pi (piTimes (-1 / 2))) .pi = true ∧
      Scalar.pi.toReal - (piTimes (-1 / 2)).toReal > Real.pi) ∧
    (s0.cfg.num.gt (s0.cfg.num.sub .zero .pi) .pi = false ∧ s0.cfg.num.gt (s0.cfg.num.sub .zero .pi) .negPi = false ∧
      Scalar.zero.toReal - Scalar.pi.toReal ≤ -Real.pi) ∧
    (s0.cfg.num.gt (s0.cfg.num.sub .pi .zero) .pi = false ∧ s0.cfg.num.gt (s0.cfg.num.sub .pi .zero) .negPi = true ∧
      Scalar.pi.toReal - Scalar.zero.toReal ≤ Real.pi) := by
  have hpi := Real.pi_pos
  have hh : (piTimes (-1 / 2)).toReal = -(1 / 2) * Real.pi := by simp [piTimes]; ring
  refine ⟨rfl, ⟨?_, ?_, ?_⟩, ⟨by decide +kernel, ?_⟩, ⟨by decide +kernel, by decide +kernel, by simp⟩,
    ⟨by decide +kernel, by decide +kernel, by simp⟩⟩
  · show -Real.pi < Scalar.pi.toReal ∧ Scalar.pi.toReal ≤ Real.pi
    simp [hpi]
  · show -Real.pi < (piTimes (-1 / 2)).toReal ∧ (piTimes (-1 / 2)).toReal ≤ Real.pi
    rw [hh]; constructor <;> linarith
  · show -Real.pi < Scalar.zero.toReal ∧ Scalar.zero.toReal ≤ Real.pi
    simp [hpi, hpi.le]
  · rw [hh, show Scalar.pi.toReal = Real.pi by simp]; linarith

theorem witness_DmCorrSubtractsAndDmUpdRetains : s0.cfg.num.arith = .exact := by decide

/-- The boundaries of the clauses, and a tie. -/
theorem witness_DmQuantRoundsAndClamps :
    s0.cfg.num.arith = .exact ∧ (Scalar.zero.toReal = 0) ∧ 255 * Real.pi / 256 ≤ (piTimes (255 / 256)).toReal ∧
    Scalar.negPi.toReal ≤ -Real.pi ∧ |(1 / 2 : ℝ) - roundReal (1 / 2)| = 1 / 2 := by
  refine ⟨rfl, by simp, ?_, by simp, ?_⟩
  · simp [piTimes]; linarith [Real.pi_pos]
  · norm_num [roundReal]

theorem witness_DemodDeliversThreeBitsAndRetainsThePhase :
    (sData.state = .data → sData.row.toNat < 65 ∧ sData.col.toNat < 255) ∧
    (s0.state = .data → s0.row.toNat < 65 ∧ s0.col.toNat < 255) := by decide

theorem witness_DescrShiftsAndConditionallyInverts :
    ((0x4000#16).getLsbD 0 ^^ (0x4000#16).getLsbD 14) = true ∧ ((0x4D4B#16).getLsbD 0 ^^ (0x4D4B#16).getLsbD 14) = false ∧
    14 < 15 ∧ s0.cfg.num.arith = .exact ∧ 0 ≤ Scalar.one.toReal ∧ Scalar.one.toReal ≤ 1 :=
  ⟨by decide, by decide, by decide, rfl, by simp, by simp⟩

theorem witness_DescramblerIsSelfInverse :
    dataA.num.arith = .exact ∧ (0xCD4B#16).extractLsb' 0 15 = (0x4D4B#16).extractLsb' 0 15 ∧
    (0x8000#16).extractLsb' 0 15 = 0 := by decide

theorem witness_HeaderBitsReachTheDecoderDescrambled :
    sHeader.state = .header ∧ sHeader.nbits.toNat + (List.replicate 24 Scalar.one).length ≤ 24 := by decide

theorem witness_PutbitDeliversByState : s0.state = .idle ∧ sHeader.state = .header ∧ sData.state = .data := by decide

theorem witness_HdrbitPushesAndCounts :
    ({ sHeader with nbits := 23 }).nbits.toNat < 24 ∧ ({ sHeader with nbits := 24 }).nbits.toNat = 24 ∧
    ({ sHeader with nbits := 24 }).nbits.toNat < 25 := by decide

/-- The four outcomes of a header, at the boundaries: a metric just below 0.04, and with 0.04 the lengths 103, 129480, 104 and 129479
(95_test_vectors.md section 3.4). -/
theorem witness_HdrfinValidatesInOrder :
    fecAnswer { sHeader with fecNext := some (num 0.039999, 0x04C000) } = (num 0.039999, 0x04C000) ∧
    s0.cfg.num.lt (num 0.039999) hdrConf = true ∧ s0.cfg.num.lt (num 0.04) hdrConf = false ∧
    fecAnswer { sHeader with fecNext := some (num 0.04, 0x398000) } = (num 0.04, 0x398000) ∧
    (lengthField 0x398000).toNat = 103 ∧ (lengthField 0x04E7E0).toNat = 129480 ∧ (lengthField 0x058000).toNat = 104 ∧
    (lengthField 0x38E7E0).toNat = 129479 := by decide +kernel

theorem witness_HeaderChecksRaiseTheirFailures :
    s0.cfg.num.arith = .exact ∧ s0.cfg.num.lt (num 0.039999) hdrConf = true ∧ s0.cfg.num.lt (num 0.04) hdrConf = false ∧
    (103#17).toNat < 104 ∧ 104 ≤ (104#17).toNat ∧ (66#7).toNat > 65 ∧ (65#7).toNat ≤ 65 := by decide +kernel

theorem witness_HdLenReversesTheLengthField : 0 ≤ 16 ∧ 16 ≤ 16 := by decide

theorem witness_AcceptedLengthsAndGeometry :
    104 ≤ (104#17).toNat ∧ (104#17).toNat ≤ 129479 ∧ (geomRows 104).toNat = 1 ∧
    104 ≤ (1992#17).toNat ∧ (1992#17).toNat ≤ 129479 ∧ (geomBytes 1992).toNat = 0 ∧
    104 ≤ (129479#17).toNat ∧ (129479#17).toNat ≤ 129479 := by decide

theorem witness_DatabitAssemblesTheByte :
    (sData.nbits.toNat < 8 ∧ sData.nbits.toNat < 7 ∧ sData.cfg.num.gt .one (.rat (1 / 2)) = true ∧
      sData.cfg.num.gt (.rat (1 / 2)) (.rat (1 / 2)) = false) ∧
    (({ sData with nbits := 7 }).nbits.toNat = 7 ∧ sData.row.toNat < 65 ∧ ({ sData with col := 254 }).col.toNat < 255) ∧
    after (fun t => t.wires.done) (Res.andThen (Res.andThen (exec .bstore { sData with nbits := 8, col := 250 }) (exec .badv))
      (exec .bdone)) = some true ∧
    after (fun t => t.wires.done) (Res.andThen (Res.andThen (exec .bstore { sData with nbits := 8 }) (exec .badv)) (exec .bdone))
      = some false := by decide +kernel

theorem witness_BstoreStoresTheByteAndItsConfidence :
    Memory.wf 0 sData.blkd = true ∧ Memory.wf .zero sData.blkp = true ∧ ({ sData with row := 64 }).row.toNat < 65 ∧
    ({ sData with col := 254 }).col.toNat < 255 := by decide +kernel

/-- A finished column with the jump, one without, a last row skipped, and an unfinished column. -/
theorem witness_BadvAdvancesRowAndColumn :
    ((0#7).toNat + 1 = (1#7).toNat ∧ (1#7).toNat = 1 ∧ (12#8).toNat + 1 = (13#8).toNat) ∧
    ((0#7).toNat + 1 = (1#7).toNat ∧ ¬((1#7).toNat = 1 ∧ (254#8).toNat + 1 = (13#8).toNat) ∧ (254#8).toNat < 255) ∧
    ((1#8).toNat ≤ (248#8).toNat ∧ (248#8).toNat < 249 ∧ (63#7).toNat + 2 = (65#7).toNat) ∧
    (¬((0#7).toNat + 1 = (3#7).toNat ∨ ((5#8).toNat ≤ (4#8).toNat ∧ (4#8).toNat < 249 ∧ (0#7).toNat + 2 = (3#7).toNat)) ∧
      (0#7).toNat < 65 ∧ (4#8).toNat < 255) := by decide

theorem witness_BdoneTestsCompletion : 1 ≤ sData.nbrow.toNat := by decide

theorem witness_BlockCellsAreTheWrittenSet :
    geometryAccepted 1 13 ∧ geometryAccepted 65 249 ∧ 14 < blockBytes 1 13 ∧ writtenCell 1 13 0 250 ∧ 13 < 14 :=
  ⟨⟨by decide, by decide, by decide, by decide⟩, ⟨by decide, by decide, by decide, by decide⟩, by decide,
    .inr (.inr (.inl (by decide))), by decide⟩

theorem witness_BlockIsDispatchedAfterItsBits :
    sData.state = .data ∧ sData.nbits = 0 ∧ sData.row = 0 ∧ sData.col = 0 ∧
    geometryAccepted sData.nbrow sData.nbbyte ∧
    (List.replicate 119 Scalar.one).length < 8 * blockBytes sData.nbrow.toNat sData.nbbyte.toNat ∧
    (List.replicate 120 Scalar.one).length = 8 * blockBytes sData.nbrow.toNat sData.nbbyte.toNat :=
  ⟨rfl, rfl, rfl, rfl, ⟨by decide, by decide, by decide, by decide⟩, by decide, by decide⟩

theorem witness_DispatchedBlockHoldsTheDescrambledBits :
    sData.state = .data ∧ sData.nbits = 0 ∧ sData.bits = 0 ∧ sData.row = 0 ∧ sData.col = 0 ∧
    geometryAccepted sData.nbrow sData.nbbyte ∧ Memory.wf 0 sData.blkd = true ∧
    (List.replicate 120 Scalar.one).length = 8 * blockBytes sData.nbrow.toNat sData.nbbyte.toNat ∧
    14 < blockBytes sData.nbrow.toNat sData.nbbyte.toNat ∧ 7 < 8 :=
  ⟨rfl, rfl, rfl, rfl, rfl, ⟨by decide, by decide, by decide, by decide⟩, by decide, by decide, by decide, by decide⟩

theorem witness_StepFollowsTheSchedule :
    (Memory.wf Cplx.zero s0.inbuf = true ∧ s0.dec = 0) ∧ (({ s0 with dec := 1 }).dec = 1 ∧ s0.off < s0.cfg.noff) ∧
    s0.state = .idle ∧ (sHeader.state ≠ .idle ∧ ({ sHeader with clk := 6 }).clk.toNat < 7) := by decide +kernel

/-- The lines a step of the hardware takes, and a step of the state machine for each way out of a state. -/
theorem witness_AtMostOneTransitionPerStep :
    Stimulus.hardware (.sample (.finite .zero) (.finite .one) 6) ∧ Stimulus.hardware (.fec (.finite .one) 0) ∧
    Stimulus.hardware (.putbit .one) ∧ (Stimulus.putbit .one ≠ .reset) ∧
    after (fun t => t.state) (step { s0 with
      dec := 1, phidx := 2, perr := .zero, p2err := .zero, inq := [.sample (.finite .zero) (.finite .one) 6] }) = some .header ∧
    after (fun t => t.state) (step { sHeader with nbits := 24, fecNext := some (.one, 0x04C000), inq := [.putbit .one] })
      = some .data ∧
    after (fun t => t.state) (step { sHeader with nbits := 24, fecNext := some (.zero, 0x04C000), inq := [.putbit .one] })
      = some .idle ∧
    after (fun t => t.state) (step { sData with nbits := 7, col := 250, inq := [.putbit .one] }) = some .idle := by
  refine ⟨trivial, trivial, ⟨by simp, by simp⟩, by decide, ?_, ?_, ?_, ?_⟩ <;> decide +kernel

theorem witness_TablesAndGeometryAreImmutable :
    after (fun t => t.nbrow) (step { sData with inq := [.putbit .one] }) = some 1 ∧
    Stimulus.hardware (.putbit .one) ∧ Stimulus.putbit .one ≠ .reset ∧ sData.state = .data :=
  ⟨by decide +kernel, ⟨by simp, by simp⟩, by decide, rfl⟩

/-- The state after reset has the invariant. -/
theorem safe_s0 : SafeState s0 where
  memories := ⟨rfl, rfl, rfl, rfl, by simp [s0, State.reset], by simp [s0, State.reset], by simp [s0, State.reset],
    by simp [s0, State.reset]⟩
  indices := by refine ⟨?_, ?_, ?_, ?_, ?_⟩ <;> decide
  bitCount := by show (0#5).toNat ≤ 25; decide
  block := fun h => by cases h
  geometry := .inl ⟨rfl, rfl⟩
  accumulators := ⟨fun _ => ⟨rfl, rfl⟩, fun h => by cases h⟩
  phases := ⟨by show -Real.pi < Scalar.zero.toReal ∧ Scalar.zero.toReal ≤ Real.pi; simp [Real.pi_pos, Real.pi_pos.le],
    by simp [s0, State.reset]⟩
  trackers := fun _ _ => le_refl _
  window := fun h => by cases h
  confidences := fun _ => ⟨fun h => (by cases h), by simp [s0, State.reset]⟩

theorem witness_StepKeepsTheInvariant :
    SafeState s0 ∧ (∀ line rest, s0.inq = line :: rest → line.hardware) ∧ step s0 = .next { s0 with out := [] } :=
  ⟨safe_s0, fun _ _ h => (by cases h), rfl⟩

theorem witness_ResetHasTheInvariant : after (fun t => t.perr) (exec .reset s0) = some (num 500) := by decide +kernel

theorem witness_StepNeverStopsFromTheInvariant :
    SafeState { s0 with inq := [.reset] } ∧ { s0 with inq := [.reset] }.inq = .reset :: [] ∧
    Stimulus.hardware .reset ∧ Stimulus.finite .reset :=
  ⟨⟨safe_s0.memories, safe_s0.indices, safe_s0.bitCount, safe_s0.block, safe_s0.geometry, safe_s0.accumulators,
    safe_s0.phases, safe_s0.trackers, safe_s0.window, safe_s0.confidences⟩, rfl, trivial, trivial⟩

end Sys2Proof.Tests
end

/-! ## The proofs of 00_scope.md: exact arithmetic, the angle, the step

SUPPORT. First the rules about the operations that the statements speak of (the numerics record with exact arithmetic, the angle, the
decoder on words that name their row, one step on each kind of line), then the statements. -/

section
namespace Sys2Proof

/-! ### The operations of the exact record on the real numbers (00_scope.md R10) -/

section
variable {n : Numerics} (h : n.arith = .exact)
include h

theorem Numerics.toReal_add (a b : Scalar) : (n.add a b).toReal = a.toReal + b.toReal := by
  rw [Numerics.add_exact h, Scalar.toReal_add]

theorem Numerics.toReal_sub (a b : Scalar) : (n.sub a b).toReal = a.toReal - b.toReal := by
  rw [Numerics.sub_exact h, Scalar.toReal_sub]

theorem Numerics.toReal_mul (a b : Scalar) : (n.mul a b).toReal = a.toReal * b.toReal := by
  rw [Numerics.mul_exact h, Scalar.toReal_mul]

theorem Numerics.toReal_div {b : Scalar} (hb : b.toReal ≠ 0) (a : Scalar) :
    (n.div a b).toReal = a.toReal / b.toReal := by
  rw [Numerics.div_exact h, Scalar.toReal_div hb]

theorem Numerics.lt_iff (a b : Scalar) : n.lt a b = true ↔ a.toReal < b.toReal := by
  rw [Numerics.lt_exact h, Scalar.lt_iff]

theorem Numerics.gt_iff (a b : Scalar) : n.gt a b = true ↔ b.toReal < a.toReal := by
  rw [Numerics.gt_exact h, Scalar.lt_iff]

theorem Numerics.round_eq (a : Scalar) : n.round a = roundReal a.toReal := by
  rw [Numerics.round_exact h, Scalar.round_eq]

/-- `wrap` in its three cases (00_scope.md R14). -/
theorem Numerics.toReal_wrap (a : Scalar) :
    (n.wrap a).toReal =
      if Real.pi < a.toReal then a.toReal - 2 * Real.pi
      else if a.toReal ≤ -Real.pi then a.toReal + 2 * Real.pi else a.toReal := by
  have hpi : n.gt a .pi = true ↔ Real.pi < a.toReal := by simp [Numerics.gt_iff h]
  have hneg : (!n.gt a .negPi) = true ↔ a.toReal ≤ -Real.pi := by
    simp [← Bool.not_eq_true, Numerics.gt_iff h]
  have htwo : Scalar.twoPi.toReal = 2 * Real.pi := by simp [mul_comm]
  simp only [Numerics.wrap, hpi, hneg]
  split_ifs
  · rw [Numerics.toReal_sub h, htwo]
  · rw [Numerics.toReal_add h, htwo]
  · rfl

end

/-- A nearest integer: the distance is at most one half. -/
theorem abs_sub_roundReal_le (x : ℝ) : |x - roundReal x| ≤ 1 / 2 := by
  unfold roundReal
  split_ifs
  · have hlo := Int.floor_le (1 / 2 - x)
    have hhi := Int.lt_floor_add_one (1 / 2 - x)
    rw [abs_le]; push_cast; constructor <;> linarith
  · have hlo := Int.floor_le (x + 1 / 2)
    have hhi := Int.lt_floor_add_one (x + 1 / 2)
    rw [abs_le]; constructor <;> linarith

/-- At a tie the integer farther from zero is taken (00_scope.md R14, D5). -/
theorem abs_lt_abs_roundReal_of_tie {x : ℝ} (htie : |x - roundReal x| = 1 / 2) : |x| < |(roundReal x : ℝ)| := by
  unfold roundReal at htie ⊢
  split_ifs at htie ⊢ with hx
  · have hhi := Int.lt_floor_add_one (1 / 2 - x)
    push_cast at htie ⊢
    rcases (abs_eq (by norm_num)).1 htie with ht | ht
    · rw [abs_of_neg hx, abs_neg]
      exact lt_of_lt_of_le (by linarith) (le_abs_self _)
    · linarith
  · have hhi := Int.lt_floor_add_one (x + 1 / 2)
    rcases (abs_eq (by norm_num)).1 htie with ht | ht
    · linarith
    · rw [abs_of_nonneg (not_lt.1 hx)]
      exact lt_of_lt_of_le (by linarith) (le_abs_self _)

/-! ### The angle (00_scope.md R14, 40_sample_filter.md R124) -/

/-- The form of an angle with rational parts stands for the angle: on the axes and the diagonals the arc tangent is that of 0, 1
or -1. -/
theorem Scalar.toReal_rationalAngle (x y : Rat) : (Scalar.rationalAngle x y).toReal = Complex.arg ⟨x, y⟩ := by
  unfold Scalar.rationalAngle
  by_cases hy : y = 0
  · rw [if_pos hy, hy, Rat.cast_zero, arg_of_im_zero]
    simp only [Rat.cast_lt_zero]
    split_ifs <;> simp
  have hyR : (y : ℝ) ≠ 0 := by exact_mod_cast hy
  have harg : Complex.arg ⟨x, y⟩ = (if 0 < y then Real.pi / 2 else -(Real.pi / 2)) - Real.arctan (x / y) := by
    split_ifs with hp
    · exact arg_of_im_pos (by exact_mod_cast hp)
    · exact arg_of_im_neg (by exact_mod_cast lt_of_le_of_ne (not_lt.1 hp) hy)
  rw [if_neg hy]
  by_cases hx : x = 0
  · rw [if_pos hx, harg, hx]
    split_ifs <;> simp <;> ring
  rw [if_neg hx]
  by_cases hdiag : x = y
  · rw [if_pos hdiag, harg, hdiag, div_self hyR, Real.arctan_one]
    split_ifs <;> simp <;> ring
  rw [if_neg hdiag]
  by_cases hanti : x = -y
  · rw [if_pos hanti, harg, hanti, Rat.cast_neg, neg_div (y : ℝ), div_self hyR, Real.arctan_neg, Real.arctan_one]
    split_ifs <;> simp <;> ring
  rw [if_neg hanti]
  simp [Scalar.toReal]

/-- `arg` is the angle of the complex number, for every number. -/
theorem Scalar.toReal_arg (z : Cplx) : (Scalar.arg z).toReal = Complex.arg z.toComplex := by
  unfold Scalar.arg Cplx.toComplex
  split
  · next x y hre him =>
    rw [Scalar.toReal_rationalAngle, Scalar.toReal_of_rational? hre, Scalar.toReal_of_rational? him]
  · rfl

theorem Numerics.toReal_arg {n : Numerics} (h : n.arith = .exact) (z : Cplx) :
    (n.arg z).toReal = Complex.arg z.toComplex := by
  rw [Numerics.arg_exact h, Scalar.toReal_arg]

theorem Scalar.arg_of_rational {re im : Scalar} {x y : Rat} (hre : re.rational? = some x) (him : im.rational? = some y) :
    Scalar.arg ⟨re, im⟩ = Scalar.rationalAngle x y := by
  simp [Scalar.arg, hre, him]

/-- The value on a ray that is an axis or a diagonal, in its simplest form (95_test_vectors.md section 3.1). -/
theorem Scalar.rationalAngle_on_rays {a : Rat} (ha : 0 < a) :
    Scalar.rationalAngle a 0 = .zero ∧ Scalar.rationalAngle a a = .poly [0, 1 / 4] ∧
    Scalar.rationalAngle 0 a = .poly [0, 1 / 2] ∧ Scalar.rationalAngle (-a) a = .poly [0, 3 / 4] ∧
    Scalar.rationalAngle (-a) 0 = .pi ∧ Scalar.rationalAngle (-a) (-a) = .poly [0, -3 / 4] ∧
    Scalar.rationalAngle 0 (-a) = .poly [0, -1 / 2] ∧ Scalar.rationalAngle a (-a) = .poly [0, -1 / 4] := by
  have hne : a ≠ 0 := ha.ne'
  have hflip : -a ≠ a := by linarith
  simp [Scalar.rationalAngle, ha, ha.not_gt, hne, hflip, hflip.symm]

/-- The value of vector F5: the angle of -3 + 2i. -/
theorem arg_neg_three_add_two_I : Complex.arg ⟨-3, 2⟩ = Real.pi - Real.arctan (2 / 3) := by
  have hinv : Real.arctan (2 / 3) = Real.pi / 2 - Real.arctan (3 / 2) := by
    rw [← Real.arctan_inv_of_pos (by norm_num)]; norm_num
  rw [arg_of_im_pos (by norm_num), neg_div, Real.arctan_neg, hinv]
  ring

/-- Reflection in the real axis changes the sign of an angle off that axis. -/
theorem arg_neg_im {x y : ℝ} (hy : y ≠ 0) : Complex.arg ⟨x, -y⟩ = -Complex.arg ⟨x, y⟩ := by
  have hne : Complex.arg ⟨x, y⟩ ≠ Real.pi := fun he => hy (Complex.arg_eq_pi_iff.1 he).2
  have hconj : (⟨x, -y⟩ : ℂ) = (starRingEnd ℂ) ⟨x, y⟩ := rfl
  rw [hconj, Complex.arg_conj, if_neg hne]

/-- The angle does not depend on the length. -/
theorem arg_scale {r : ℝ} (hr : 0 < r) (x y : ℝ) : Complex.arg ⟨r * x, r * y⟩ = Complex.arg ⟨x, y⟩ := by
  have hmul : (⟨r * x, r * y⟩ : ℂ) = r * ⟨x, y⟩ := by apply Complex.ext <;> simp
  rw [hmul, Complex.arg_real_mul _ hr]

/-! ### Words that name their row (30_encoding.md R97, R98) -/

theorem rowInstr_rowByte (i : Instr) : rowInstr (BitVec.ofNat 8 i.rowNumber).toNat = some i := by
  cases i <;> rfl

/-- The four checks of a word that names the row of an instruction. -/
theorem OpWord.wf_rowByte_iff (cv : Byte) (i : Instr) :
    OpWord.wf ⟨cv, BitVec.ofNat 8 i.rowNumber⟩ = true ↔
      OpWord.cvInRange ⟨cv, BitVec.ofNat 8 i.rowNumber⟩ = true ∧ OpWord.stateKnown ⟨cv, BitVec.ofNat 8 i.rowNumber⟩ = true ∧
      i.selectedBy cv = true := by
  simp only [OpWord.wf, OpWord.rowKnown, OpWord.cvMatches, rowInstr_rowByte, Option.isSome_some, Bool.and_true,
    Bool.and_eq_true, and_assoc]

/-- A well-formed word that names its row decodes to the instruction of that row. -/
theorem decode_bytes_of_wf {i : Instr} {cv : Byte} (hwf : OpWord.wf ⟨cv, BitVec.ofNat 8 i.rowNumber⟩ = true)
    (rest : List Byte) : decode (OpWord.bytes ⟨cv, BitVec.ofNat 8 i.rowNumber⟩ ++ rest) = .ok (i, rest) := by
  have hrow : BitVec.ofNat 8 i.rowNumber ≠ 0 := fun h0 => by
    have hi := rowInstr_rowByte i
    rw [h0] at hi
    cases hi
  obtain ⟨hrange, hstate, hselected⟩ := (OpWord.wf_rowByte_iff cv i).1 hwf
  have hword : decodeWord ⟨cv, BitVec.ofNat 8 i.rowNumber⟩ = .ok i := by
    simp only [decodeWord, hrange, hstate, Bool.not_true, Bool.false_eq_true, if_false, if_neg hrow, rowInstr_rowByte,
      if_pos hselected]
  simp only [OpWord.bytes, List.cons_append, List.nil_append, decode, hword]

namespace Machine

/-- A control vector has 6 bits (30_encoding.md R97). -/
theorem controlVector_cvInRange (rst lastbit stick ftick : Bool) (st : Mode) (row : Byte) :
    OpWord.cvInRange ⟨controlVector rst lastbit stick ftick st, row⟩ = true := by
  show (!(controlVector rst lastbit stick ftick st).getLsbD 6 && !(controlVector rst lastbit stick ftick st).getLsbD 7) = true
  cases st <;> revert rst lastbit stick ftick <;> decide

/-- The field `st` of a control vector is the code of a mode (30_encoding.md R97). -/
theorem controlVector_stateKnown (rst lastbit stick ftick : Bool) (st : Mode) (row : Byte) :
    OpWord.stateKnown ⟨controlVector rst lastbit stick ftick st, row⟩ = true := by
  show (!((controlVector rst lastbit stick ftick st).getLsbD 0 && !(controlVector rst lastbit stick ftick st).getLsbD 1)) = true
  cases st <;> revert rst lastbit stick ftick <;> decide

theorem reset_selectedBy_resetCv (s : State) : Instr.reset.selectedBy (resetCv s) = true := by
  unfold resetCv
  cases s.state <;> decide

theorem step_selectedBy_stepCv (s : State) : Instr.step.selectedBy (stepCv s) = true := by
  unfold stepCv
  cases symbolTick s <;> cases filterTick s <;> cases s.state <;> decide

theorem putbit_selectedBy_bitCv (s : State) : Instr.putbit.selectedBy (bitCv s) = true := by
  unfold bitCv
  cases lastBit s <;> cases s.state <;> decide

/-! ### One step (00_scope.md R12) -/

/-- A sequence that ends by answering its state is its first part. -/
@[simp] theorem Res.andThen_next_self (r : Res) : (r.andThen fun t => .next t) = r := by
  cases r <;> rfl

theorem runWord_of_decode {bs tail : List Byte} {i : Instr} (h : decode bs = .ok (i, tail)) (line : Stimulus) (s : State) :
    runWord line bs s = Res.andThen (exec i s) fun t => .next (settle line t) := by
  rw [runWord, h]

theorem runWord_of_decode_error {bs : List Byte} {e : DecodeError} (h : decode bs = .error e) (line : Stimulus) (s : State) :
    runWord line bs s = .refused (.badWord e) := by
  rw [runWord, h]

theorem step_of_no_line {s : State} (h : s.inq = []) : step s = .next { s with out := [] } := by
  rw [step, h]

section
variable {s t : State} {line : Stimulus} {rest : List Stimulus} (hq : s.inq = line :: rest)
include hq

theorem step_of_word {bs : List Byte} (h : fetchLine line (takeLine rest s) = .word bs t) : step s = runWord line bs t := by
  simp only [step, hq, h]

theorem step_of_line (h : fetchLine line (takeLine rest s) = .line t) : step s = .next t := by
  simp only [step, hq, h]

/-- A line whose word is a control vector and the row of an instruction that it selects runs this instruction. -/
theorem step_of_selected_row {i : Instr} {rst lastbit stick ftick : Bool} {st : Mode}
    (hsel : i.selectedBy (controlVector rst lastbit stick ftick st) = true)
    (h : fetchLine line (takeLine rest s) =
      .word (OpWord.bytes ⟨controlVector rst lastbit stick ftick st, BitVec.ofNat 8 i.rowNumber⟩) t) :
    step s = Res.andThen (exec i t) fun u => .next (settle line u) := by
  have hwf := (OpWord.wf_rowByte_iff _ i).2 ⟨controlVector_cvInRange .., controlVector_stateKnown .., hsel⟩
  have hdecode := decode_bytes_of_wf hwf []
  rw [List.append_nil] at hdecode
  rw [step_of_word hq h, runWord_of_decode hdecode]

end

end Machine

/-! ### The statements -/

/-- Settles O12: `arg` is the angle of the complex number (`Numerics.toReal_arg`), so the reflection and the scaling are those of
the complex numbers; the listed values are the branches of `rationalAngle`. -/
theorem angleOnAxesAndDiagonals : Obligations.AngleOnAxesAndDiagonals := by
  unfold Obligations.AngleOnAxesAndDiagonals
  intro c hc
  have hangle := Numerics.toReal_arg hc
  have hrational {re im : Scalar} {x y : Rat} (hre : re.rational? = some x) (him : im.rational? = some y) :
      c.num.arg ⟨re, im⟩ = Scalar.rationalAngle x y := by
    rw [Numerics.arg_exact hc, Scalar.arg_of_rational hre him]
  refine ⟨hangle, fun a ha => ?_, fun q => ?_, ?_, fun re im him => ?_, fun a re im ha => ?_⟩
  · have hrat := Scalar.rational?_rat
    have hzero : Scalar.zero.rational? = some 0 := rfl
    obtain ⟨hE, hNE, hN, hNW, hW, hSW, hS, hSE⟩ := Scalar.rationalAngle_on_rays ha
    refine ⟨?_, ?_, ?_, ?_, ?_, ?_, ?_, ?_, ?_⟩
    · exact hrational hzero hzero
    · rw [hrational (hrat a) hzero, hE]
    · rw [hrational hzero (hrat a), hN]
    · rw [hrational (hrat (-a)) hzero, hW]
    · rw [hrational hzero (hrat (-a)), hS]
    · rw [hrational (hrat a) (hrat a), hNE]
    · rw [hrational (hrat (-a)) (hrat a), hNW]
    · rw [hrational (hrat (-a)) (hrat (-a)), hSW]
    · rw [hrational (hrat a) (hrat (-a)), hSE]
  · simp [mul_comm]
  · rw [hangle, ← arg_neg_three_add_two_I]
    simp [Cplx.toComplex]
  · simp only [hangle, Cplx.toComplex, Scalar.toReal_sub, Scalar.toReal_poly, Poly.toReal_nil, zero_sub]
    exact arg_neg_im him
  · simp only [hangle, Cplx.toComplex, Scalar.toReal_mul]
    exact arg_scale ha _ _

/-- Settles O13: each operation by its rule about the exact record; the case of `wrap` is that of its argument. -/
theorem exactArithmeticIsThatOfTheReals : Obligations.ExactArithmeticIsThatOfTheReals := by
  unfold Obligations.ExactArithmeticIsThatOfTheReals
  intro n hn a b
  have hwrap := Numerics.toReal_wrap hn a
  have hround : |a.toReal - n.round a| ≤ 1 / 2 ∧
      (|a.toReal - n.round a| = 1 / 2 → |a.toReal| < |(n.round a : ℝ)|) := by
    rw [Numerics.round_eq hn]
    exact ⟨abs_sub_roundReal_le _, abs_lt_abs_roundReal_of_tie⟩
  refine ⟨Numerics.toReal_add hn a b, Numerics.toReal_sub hn a b, Numerics.toReal_mul hn a b,
    fun hb => Numerics.toReal_div hn hb a, Numerics.lt_iff hn a b, Numerics.gt_iff hn a b, hround, ?_, ?_, ?_⟩
  · intro habove
    rw [hwrap, if_pos habove]
  · intro hbelow
    rw [hwrap, if_neg (by linarith [Real.pi_pos]), if_pos hbelow]
  · intro hlo hhi
    rw [hwrap, if_neg (not_lt.2 hhi), if_neg (not_le.2 hlo)]

open Machine in
/-- Settles O4: a SAMPLE, a RESET and a PUTBIT carry the control vector of the state and their own row, which decodes to their
instruction (`step_of_selected_row`); an injected word is decoded as it is. -/
theorem stepRunsTheInstructionOfTheNextLine : Obligations.StepRunsTheInstructionOfTheNextLine := by
  unfold Obligations.StepRunsTheInstructionOfTheNextLine
  intro s rest
  refine ⟨fun w i tail hq hd => ?_, fun w e hq hd => ?_, fun re im now hq => ?_, fun hq => ?_, fun v hq => ?_,
    fun vp bits hq => step_of_line hq rfl, step_of_no_line⟩
  · rw [step_of_word hq rfl, runWord_of_decode hd]
    exact Res.andThen_next_self _
  · rw [step_of_word hq rfl, runWord_of_decode_error hd]
  · exact step_of_selected_row hq (step_selectedBy_stepCv _) rfl
  · exact step_of_selected_row hq (reset_selectedBy_resetCv _) rfl
  · exact step_of_selected_row hq (putbit_selectedBy_bitCv _) rfl

end Sys2Proof
end

/-! ## The proofs of 10_state.md: the invariant of a run

SUPPORT. The invariant sees some of the fields only, so most writes keep it (`SafeState.of_unseen`). Within a step it stands together
with a legal phase on the wires (`InStep`), and every operation that a SAMPLE, a RESET or a PUTBIT can reach keeps that. Where a
block or a header ends, the invariant is broken for a moment: what still holds there is that TOIDLE would restore it
(`HeaderFull`, `AtByteStart`). -/

section
namespace Sys2Proof.Machine

/-! ### What every next state of an answer has -/

/-- Every next state that the answer can be has the property. -/
def Res.Gives (r : Res) (P : State → Prop) : Prop := ∀ t, r = .next t → P t

@[simp] theorem Res.gives_next {s : State} {P : State → Prop} : Res.Gives (.next s) P ↔ P s :=
  ⟨fun h => h s rfl, fun h t ht => by cases ht; exact h⟩

@[simp] theorem Res.gives_refused {e : Refusal} {P : State → Prop} : Res.Gives (.refused e) P := nofun

/-- The rule of a sequence: what the first part gives is what the second starts from. -/
theorem Res.Gives.andThen {r : Res} {f : State → Res} {P Q : State → Prop} (hr : r.Gives P)
    (hf : ∀ s, P s → (f s).Gives Q) : (r.andThen f).Gives Q := by
  intro t ht
  obtain ⟨u, hu, hfu⟩ := Res.andThen_eq_next.1 ht
  exact hf u (hr u hu) t hfu

/-! ### Memories -/

/-- What all entries of a memory have, they have after a write of an entry that has it. -/
theorem Memory.forall_mem_write {α : Type} [DecidableEq α] {p : Nat × α → Prop} {d v : α} {a : Nat} {m : Memory α}
    (hm : ∀ e ∈ m, p e) (hav : p (a, v)) : ∀ e ∈ Memory.write d m a v, p e := by
  intro e he
  rcases Memory.mem_write he with rfl | he
  · exact hav
  · exact hm e he

theorem ringIndex_lt {capacity : Nat} (h : 0 < capacity) (i : Nat) : ringIndex capacity i < capacity := Nat.mod_lt i h

/-- A cell of the matrices has an index below their size (20_memory.md R64). -/
theorem cellIndex_lt {row col : Nat} (hrow : row < maxRow) (hcol : col < nCol) : cellIndex row col < maxRow * nCol := by
  simp only [cellIndex, maxRow, nCol] at *
  omega

/-! ### Phases and soft bits -/

theorem phaseOk_zero (n : Numerics) : phaseOk n .zero := by
  unfold phaseOk
  split
  · simp [Real.pi_pos, Real.pi_pos.le]
  · exact .inl rfl

/-- The angle of a complex number is a legal phase (00_scope.md R14). -/
theorem phaseOk_arg (n : Numerics) (z : Cplx) : phaseOk n (n.arg z) := by
  unfold phaseOk
  split
  · next h =>
    rw [Numerics.toReal_arg h]
    exact ⟨Complex.neg_pi_lt_arg _, Complex.arg_le_pi _⟩
  · next k h =>
    simp only [Numerics.arg, h, Numerics.argFormat, Bool.and_eq_true, Bool.not_eq_true']
    split_ifs with _ _ hrange
    · exact .inr (.inl rfl)
    · exact .inl rfl
    · exact .inr (.inr hrange)
    · exact .inl rfl

/-- A soft bit lies in [0, 1]. -/
def SoftBit (v : Scalar) : Prop := 0 ≤ v.toReal ∧ v.toReal ≤ 1

/-! ### The values that SY.SPLIT writes (41_sync.md R150) -/

theorem clkInit_lt (c : Config) (fracOff : Scalar) : (clkInit c fracOff).toNat < ovs := by
  have hfree (id : Nat) : (BitVec.ofNat 4 (Config.clkInit id fracOff)).toNat < ovs := by
    rw [BitVec.toNat_ofNat]
    exact lt_of_le_of_lt (Nat.mod_le _ _) (Fin.isLt _)
  unfold clkInit
  split
  · split_ifs with hrange
    · rw [BitVec.toNat_ofInt]
      simp only [ovs] at hrange ⊢
      omega
    · exact hfree 0
  · exact hfree _

theorem offSel_lt (c : Config) (fracOff : Scalar) : offSel c fracOff < c.noff := by
  have hpos := c.noff_pos
  unfold offSel
  split
  · simp only [clampInt]
    omega
  · exact Nat.mod_lt _ hpos

/-! ### The geometry of a block and the cells of it -/

/-- A header that passes HD.SHORT and HD.LONG gives an accepted geometry (43_header.md R199). -/
theorem geometryAccepted_of_checks {len : BitVec 17} (hshort : lenTooShort len = false)
    (hlong : rowsTooMany (geomRows len) = false) : geometryAccepted (geomRows len) (geomBytes len) := by
  have hlen := len.isLt
  simp only [lenTooShort, rowsTooMany, geomRows, geomBytes, geometryAccepted, minLen, maxRow, rowBits, decide_eq_false_iff_not,
    BitVec.toNat_ofNat] at *
  omega

/-- BADV from a cell inside the block leads to a cell inside it, unless the block is complete (44_block.md R216). -/
theorem advance_inside {nbrow row : BitVec 7} {nbbyte col : BitVec 8} (hrow : row.toNat < nbrow.toNat)
    (hcol : col.toNat ≤ 254)
    (hmore : blockComplete nbrow nbbyte (advance nbrow nbbyte row col).1 (advance nbrow nbbyte row col).2 = false) :
    (advance nbrow nbbyte row col).1.toNat < nbrow.toNat ∧ (advance nbrow nbbyte row col).2.toNat ≤ 254 := by
  unfold advance at *
  split at hmore
  · next hfinished =>
    rw [if_pos hfinished]
    simp only [blockComplete, nCol, Bool.or_eq_false_iff, decide_eq_false_iff_not] at hmore
    have hbound := (nextCol nbrow nbbyte col).isLt
    refine ⟨Nat.zero_lt_of_lt hrow, ?_⟩
    dsimp only
    omega
  · next hunfinished =>
    rw [if_neg hunfinished]
    simp only [columnFinished, Bool.or_eq_true, decide_eq_true_eq, not_or] at hunfinished
    have hne : (row + 1).toNat ≠ nbrow.toNat := fun he => hunfinished.1 (BitVec.eq_of_toNat_eq he)
    have hsucc : (row + 1).toNat = row.toNat + 1 := by
      have := nbrow.isLt
      rw [BitVec.toNat_add]
      simp
      omega
    exact ⟨by dsimp only; omega, hcol⟩

/-! ### One bit taken into a byte (44_block.md R210) -/

theorem takeBit_eq (s : State) :
    takeBit s = { s with bits := (takeBit s).bits, pr := (takeBit s).pr, nbits := s.nbits + 1 } := by
  unfold takeBit
  split <;> rfl

theorem setBit_lt {bits : BitVec 8} {p : BitVec 5} (hbits : bits.toNat < 2 ^ p.toNat) :
    (setBit bits p).toNat < 2 ^ (p.toNat + 1) := by
  have hpow : 2 ^ p.toNat < 2 ^ (p.toNat + 1) := Nat.pow_lt_pow_right (by omega) (by omega)
  rw [setBit, BitVec.toNat_or]
  refine Nat.or_lt_two_pow (by omega) (lt_of_le_of_lt ?_ hpow)
  rw [BitVec.toNat_shiftLeft, Nat.shiftLeft_eq]
  exact (Nat.mod_le _ _).trans (by simp)

theorem takeBit_bits_lt {s : State} (h : s.bits.toNat < 2 ^ s.nbits.toNat) :
    (takeBit s).bits.toNat < 2 ^ (s.nbits.toNat + 1) := by
  unfold takeBit
  split
  · exact setBit_lt h
  · exact h.trans (Nat.pow_lt_pow_right (by omega) (by omega))

theorem nbits_succ {nbits : BitVec 5} (h : nbits.toNat < 25) : (nbits + 1).toNat = nbits.toNat + 1 := by
  rw [BitVec.toNat_add]
  simp
  omega

/-! ### The invariant within a step -/

/-- The fields that the invariant does not see. -/
theorem SafeState.of_unseen {s t : State} (h : SafeState s)
    (ht : t = { s with
      err := t.err
      fr := t.fr
      pfr := t.pfr
      df := t.df
      dec := t.dec
      scr := t.scr
      tstamp := t.tstamp
      fecNext := t.fecNext
      inq := t.inq
      out := t.out
      wires := t.wires }) : SafeState t := by
  rw [ht]
  exact ⟨h.memories, h.indices, h.bitCount, h.block, h.geometry, h.accumulators, h.phases, h.trackers, h.window,
    h.confidences⟩

theorem SafeState.off_lt {s : State} (h : SafeState s) : s.off < s.cfg.noff := h.indices.2.2.1

theorem SafeState.clk_lt {s : State} (h : SafeState s) : s.clk.toNat < ovs := h.indices.2.2.2.1

theorem SafeState.nbits_lt_of_header {s : State} (h : SafeState s) (hstate : s.state = .header) : s.nbits.toNat < 25 := by
  simpa [BitCountOk, hstate] using h.bitCount

theorem SafeState.nbits_lt_of_data {s : State} (h : SafeState s) (hstate : s.state = .data) : s.nbits.toNat < 8 := by
  simpa [BitCountOk, hstate] using h.bitCount

/-- The invariant while a step runs: the phase that PHASE has left on the wires is one that `prevph` may hold. -/
structure InStep (s : State) : Prop where
  safe : SafeState s
  phase : phaseOk s.cfg.num s.wires.phase

/-- A step starts from wires that carry no phase. -/
theorem InStep.start {s t : State} (h : SafeState s)
    (ht : t = { s with inq := t.inq, out := t.out, wires := t.wires }) (hphase : t.wires.phase = .zero) : InStep t :=
  ⟨h.of_unseen (by rw [ht]), hphase ▸ phaseOk_zero _⟩

theorem InStep.of_unseen {s t : State} (h : InStep s)
    (ht : t = { s with
      err := t.err
      fr := t.fr
      pfr := t.pfr
      df := t.df
      dec := t.dec
      scr := t.scr
      tstamp := t.tstamp
      fecNext := t.fecNext
      inq := t.inq
      out := t.out
      wires := t.wires })
    (hphase : t.wires.phase = s.wires.phase) : InStep t := by
  have hcfg : t.cfg = s.cfg := by rw [ht]
  exact ⟨h.safe.of_unseen ht, hcfg ▸ hphase ▸ h.phase⟩

theorem InStep.withClk {s : State} (h : InStep s) {clk : BitVec 4} (hclk : clk.toNat < ovs) :
    InStep { s with clk := clk } := by
  obtain ⟨hink, hphidx, hoff, -, hidle⟩ := h.safe.indices
  exact ⟨{ h.safe with indices := ⟨hink, hphidx, hoff, hclk, hidle⟩ }, h.phase⟩

/-- Back in IDLE with cleared accumulators, whatever the mode was. -/
theorem SafeState.returnToIdle {s t : State} (h : SafeState s)
    (ht : t = { s with
      state := .idle
      off := 0
      nbits := t.nbits
      bits := t.bits
      pr := t.pr
      fecWin := t.fecWin
      out := t.out })
    (hnbits : t.nbits.toNat ≤ 25) (hbits : t.bits = 0) (hpr : t.pr = .one) : SafeState t := by
  obtain ⟨hink, hphidx, -, hclk, -⟩ := h.indices
  rw [ht]
  exact
    { h with
      indices := ⟨hink, hphidx, s.cfg.noff_pos, hclk, fun _ => rfl⟩
      bitCount := hnbits
      block := nofun
      accumulators := ⟨fun _ => ⟨hbits, hpr⟩, nofun⟩
      window := nofun
      confidences := fun hexact => ⟨nofun, (h.confidences hexact).2⟩ }

/-- A byte and its confidence written to a cell of the matrices (44_block.md R211). -/
theorem SafeState.storeCell {s : State} (h : SafeState s) {a : Nat} {byte : Byte} {conf : Scalar} (ha : a < maxRow * nCol)
    (hconf : s.cfg.num.arith = .exact → 1 / 256 ≤ conf.toReal ∧ conf.toReal ≤ 1) :
    SafeState { s with blkd := Memory.write 0 s.blkd a byte, blkp := Memory.write .zero s.blkp a conf } := by
  obtain ⟨hwfInbuf, hwfPh, hwfBlkd, hwfBlkp, hinbuf, hph, hblkd, hblkp⟩ := h.memories
  exact
    { h with
      memories := ⟨hwfInbuf, hwfPh, Memory.wf_write hwfBlkd, Memory.wf_write hwfBlkp, hinbuf, hph,
        Memory.forall_mem_write hblkd ha, Memory.forall_mem_write hblkp ha⟩
      confidences := fun hexact =>
        ⟨(h.confidences hexact).1, Memory.forall_mem_write (h.confidences hexact).2 (hconf hexact)⟩ }

/-! ### Where a header or a byte ends -/

/-- The header has all its bits: TOIDLE would restore the invariant, and the filter variant exists. -/
structure HeaderFull (s : State) : Prop where
  idle : InStep (toIdle s)
  off : s.off < s.cfg.noff

theorem HeaderFull.of_unseen {s t : State} (h : HeaderFull s)
    (ht : t = { s with fecNext := t.fecNext, out := t.out, wires := t.wires })
    (hphase : t.wires.phase = s.wires.phase) : HeaderFull t :=
  ⟨h.idle.of_unseen (by rw [ht]; rfl) hphase, by rw [ht]; exact h.off⟩

/-- Nothing of the next byte of a block has come yet. Where the byte is to be stored is not said. -/
structure AtByteStart (s : State) : Prop where
  idle : InStep (toIdle s)
  off : s.off < s.cfg.noff
  state : s.state = .data
  nbits : s.nbits = 0
  geometry : geometryAccepted s.nbrow s.nbbyte

/-- The cell at which the next byte is to be stored is one of the block (44_block.md R216). -/
def InsideBlock (s : State) : Prop := s.row.toNat < s.nbrow.toNat ∧ s.col.toNat ≤ 254

/-- At the start of a byte that has a cell, the invariant holds. -/
theorem AtByteStart.inStep {s : State} (h : AtByteStart s) (hinside : InsideBlock s) : InStep s := by
  obtain ⟨⟨hidle, hphase⟩, hoff, hstate, hnbits, hgeometry⟩ := h
  obtain ⟨hbits, hpr⟩ := hidle.accumulators.1 (by simp)
  obtain ⟨hink, hphidx, -, hclk, -⟩ := hidle.indices
  simp only [toIdle_bits, toIdle_pr] at hbits hpr
  refine ⟨?_, hphase⟩
  exact
    { memories := hidle.memories
      indices := ⟨hink, hphidx, hoff, hclk, by simp [hstate]⟩
      bitCount := by simp [BitCountOk, hstate, hnbits]
      block := fun _ => ⟨hgeometry, hinside⟩
      geometry := .inr hgeometry
      accumulators := ⟨fun hne => absurd hstate hne, fun _ => by simp [hbits, hnbits]⟩
      phases := hidle.phases
      trackers := hidle.trackers
      window := by simp [WindowOk, hstate]
      confidences := fun hexact =>
        ⟨fun _ => by simp [hnbits, hpr], (hidle.confidences hexact).2⟩ }

/-! ### DATABIT and the operations that it runs (44_block.md R210 to R214) -/

/-- The bound on the confidence of a byte halves with the bit (R217). -/
theorem takeBit_pr_bounds {s : State} (h : SafeState s) (hstate : s.state = .data)
    (hv : s.cfg.num.arith = .exact → SoftBit s.wires.v) (hexact : s.cfg.num.arith = .exact) :
    (1 / 2) ^ (s.nbits.toNat + 1) ≤ (takeBit s).pr.toReal ∧ (takeBit s).pr.toReal ≤ 1 := by
  obtain ⟨hlo, hhi⟩ := (h.confidences hexact).1 hstate
  have hpos : (0 : ℝ) < (1 / 2) ^ s.nbits.toNat := by positivity
  obtain ⟨hhalf, hdecrease⟩ := takeBit_pr_range hexact (hpos.le.trans hlo) (hv hexact)
  exact ⟨by rw [pow_succ]; linarith, hdecrease.trans hhi⟩

/-- A bit that does not finish its byte. -/
theorem takeBit_inStep {s : State} (h : InStep s) (hstate : s.state = .data)
    (hv : s.cfg.num.arith = .exact → SoftBit s.wires.v) (hmore : (takeBit s).nbits.toNat ≠ 8) : InStep (takeBit s) := by
  have hnbits := h.safe.nbits_lt_of_data hstate
  have hbits := takeBit_bits_lt (h.safe.accumulators.2 hstate)
  have hpr := takeBit_pr_bounds h.safe hstate hv
  have hsucc := nbits_succ (nbits := s.nbits) (by omega)
  rw [takeBit_eq] at hmore ⊢
  refine ⟨?_, h.phase⟩
  exact
    { h.safe with
      bitCount := by simp only [BitCountOk, hstate] at hmore ⊢; omega
      accumulators := ⟨fun hne => absurd hstate hne, fun _ => hsucc ▸ hbits⟩
      window := by simp [WindowOk, hstate]
      confidences := fun hexact => ⟨fun _ => hsucc ▸ hpr hexact, (h.safe.confidences hexact).2⟩ }

/-- The bit that finishes its byte, and the byte stored (R211). -/
theorem execBstore_takeBit_gives {s : State} (h : InStep s) (hstate : s.state = .data)
    (hv : s.cfg.num.arith = .exact → SoftBit s.wires.v) (hlast : (takeBit s).nbits.toNat = 8) :
    (execBstore (takeBit s)).Gives fun t => AtByteStart t ∧ InsideBlock t := by
  intro t ht
  have hnbits := h.safe.nbits_lt_of_data hstate
  have hpr := takeBit_pr_bounds h.safe hstate hv
  have hsucc := nbits_succ (nbits := s.nbits) (by omega)
  rw [takeBit_eq] at ht hlast
  have hseven : s.nbits.toNat = 7 := by dsimp only at hlast; omega
  rw [hseven] at hpr
  norm_num at hpr
  obtain ⟨⟨hrow, hcol⟩, rfl⟩ := execBstore_eq_next.1 ht
  obtain ⟨hgeometry, hinside⟩ := h.safe.block hstate
  have hidle := h.safe.returnToIdle (t := toIdle { s with nbits := 0, bits := 0, pr := .one }) rfl (Nat.zero_le _) rfl rfl
  have hstored := hidle.storeCell (byte := (takeBit s).bits) (cellIndex_lt hrow hcol) hpr
  exact ⟨⟨⟨hstored, h.phase⟩, h.safe.off_lt, hstate, rfl, hgeometry⟩, hinside⟩

/-- BADV: the next cell is inside the block unless the block is complete (R212). -/
theorem execBadv_gives {s : State} (h : AtByteStart s) (hinside : InsideBlock s) :
    (execBadv s).Gives fun t =>
      AtByteStart t ∧ (blockComplete t.nbrow t.nbbyte t.row t.col = false → InsideBlock t) := by
  have hidle : SafeState (toIdle { s with
      row := (advance s.nbrow s.nbbyte s.row s.col).1
      col := (advance s.nbrow s.nbbyte s.row s.col).2 }) := { h.idle.safe with block := nofun }
  exact Res.gives_next.2
    ⟨⟨⟨hidle, h.idle.phase⟩, h.off, h.state, h.nbits, h.geometry⟩, advance_inside hinside.1 hinside.2⟩

/-- BDONE: its answer stands on the wires (R213). -/
theorem execBdone_gives {s : State} (h : AtByteStart s)
    (hmore : blockComplete s.nbrow s.nbbyte s.row s.col = false → InsideBlock s) :
    (execBdone s).Gives fun t => AtByteStart t ∧ (t.wires.done = false → InsideBlock t) :=
  Res.gives_next.2 ⟨⟨h.idle.of_unseen rfl rfl, h.off, h.state, h.nbits, h.geometry⟩, hmore⟩

theorem execDispatch_gives {s : State} (h : InStep (toIdle s)) : (execDispatch s).Gives InStep :=
  Res.gives_next.2 (h.of_unseen rfl rfl)

theorem execDatabit_gives {s : State} (h : InStep s) (hstate : s.state = .data)
    (hv : s.cfg.num.arith = .exact → SoftBit s.wires.v) : (execDatabit s).Gives InStep := by
  simp only [execDatabit]
  split
  · next hlast =>
    have hadvanced := (execBstore_takeBit_gives h hstate hv hlast).andThen fun t ht => execBadv_gives ht.1 ht.2
    refine (hadvanced.andThen fun t ht => execBdone_gives ht.1 ht.2).andThen fun t ht => ?_
    obtain ⟨hstart, hmore⟩ := ht
    split
    · exact execDispatch_gives hstart.idle
    · next hdone => exact Res.gives_next.2 (hstart.inStep (hmore (by simpa using hdone)))
  · next hmore => exact Res.gives_next.2 (takeBit_inStep h hstate hv hmore)

/-! ### HDRBIT and the checks of the header (43_header.md R190 to R197) -/

/-- After a check: back in IDLE if it failed; the header still to be judged, and what the check has found, if not. -/
def Checked (Q : State → Prop) (s : State) : Prop :=
  (s.wires.ok = false ∧ InStep s) ∨ (s.wires.ok = true ∧ HeaderFull s ∧ Q s)

theorem check_checked {s : State} {fails : Bool} {e : Event} (h : HeaderFull s) (Q : State → Prop)
    (hQ : fails = false → Q (setOk true s)) : Checked Q (check fails e s) := by
  rcases check_cases fails e s with ⟨-, heq⟩ | ⟨hpass, heq⟩
  · rw [heq]
    exact .inl ⟨rfl, h.idle.of_unseen rfl rfl⟩
  · rw [heq]
    exact .inr ⟨rfl, h.of_unseen rfl rfl, hQ hpass⟩

/-- HDRFIN goes on after a check that passed, and ends after one that failed (R191). -/
theorem Checked.gives {Q : State → Prop} {s : State} {r : Res} (h : Checked Q s)
    (hr : HeaderFull s → Q s → r.Gives InStep) : (if !s.wires.ok then .next s else r : Res).Gives InStep := by
  rcases h with ⟨hok, hsafe⟩ | ⟨hok, hfull, hQ⟩
  · simpa [hok] using hsafe
  · simpa [hok] using hr hfull hQ

theorem execHdConf_gives {s : State} (h : HeaderFull s) : (execHdConf s).Gives (Checked fun _ => True) :=
  Res.gives_next.2 (check_checked h _ fun _ => trivial)

theorem execHdLen_gives {s : State} (h : HeaderFull s) : (execHdLen s).Gives HeaderFull :=
  Res.gives_next.2 (h.of_unseen rfl rfl)

theorem execHdShort_gives {s : State} (h : HeaderFull s) :
    (execHdShort s).Gives (Checked fun t => lenTooShort t.wires.len = false) :=
  Res.gives_next.2 (check_checked h _ id)

/-- HD.GEOM: of a length that is not too short, the geometry is an accepted one if HD.LONG lets it pass (R195, R199). -/
theorem execHdGeom_gives {s : State} (h : HeaderFull s) (hshort : lenTooShort s.wires.len = false) :
    (execHdGeom s).Gives fun t =>
      HeaderFull t ∧ (rowsTooMany t.wires.nr = false → geometryAccepted t.wires.nr t.wires.nb) :=
  Res.gives_next.2 ⟨h.of_unseen rfl rfl, geometryAccepted_of_checks hshort⟩

theorem execHdLong_gives {s : State} (h : HeaderFull s)
    (hgeometry : rowsTooMany s.wires.nr = false → geometryAccepted s.wires.nr s.wires.nb) :
    (execHdLong s).Gives (Checked fun t => geometryAccepted t.wires.nr t.wires.nb) :=
  Res.gives_next.2 (check_checked h _ hgeometry)

/-- HD.ACCEPT: the first byte of the block is to be stored at (0, 0) (R197). -/
theorem execHdAccept_gives {s : State} (h : HeaderFull s) (hgeometry : geometryAccepted s.wires.nr s.wires.nb) :
    (execHdAccept s).Gives InStep := by
  have hcleared : SafeState { toIdle s with nbits := 0, bits := 0, pr := .one } :=
    h.idle.safe.returnToIdle rfl (Nat.zero_le _) rfl rfl
  have hidle : SafeState { toIdle s with
      nbits := 0, bits := 0, pr := .one, row := 0, col := 0, nbrow := s.wires.nr, nbbyte := s.wires.nb } :=
    { hcleared with block := nofun, geometry := .inr hgeometry }
  refine Res.gives_next.2 (AtByteStart.inStep ?_ ⟨hgeometry.1, Nat.zero_le _⟩)
  exact ⟨⟨hidle.of_unseen rfl, h.idle.phase⟩, h.off, rfl, rfl, hgeometry⟩

theorem execHdrfin_gives {s : State} (h : HeaderFull s) : (execHdrfin s).Gives InStep := by
  have hfin : HeaderFull (fecFinalize s) := h.of_unseen rfl rfl
  refine (execHdConf_gives hfin).andThen fun t ht => ht.gives fun hfull _ => ?_
  have hlen := (execHdLen_gives hfull).andThen fun t => execHdShort_gives
  refine hlen.andThen fun t ht => ht.gives fun hfull hshort => ?_
  have hgeom := (execHdGeom_gives hfull hshort).andThen fun t ht => execHdLong_gives ht.1 ht.2
  refine hgeom.andThen fun t ht => ht.gives fun hfull hgeometry => ?_
  exact execHdAccept_gives hfull hgeometry

theorem execHdrbit_gives {s : State} (h : InStep s) (hstate : s.state = .header) : (execHdrbit s).Gives InStep := by
  have hnbits := h.safe.nbits_lt_of_header hstate
  have hsucc := nbits_succ hnbits
  have hnotData : s.state ≠ .data := by simp [hstate]
  simp only [execHdrbit]
  split
  · obtain ⟨hbits, hpr⟩ := h.safe.accumulators.1 hnotData
    refine execHdrfin_gives ⟨⟨h.safe.returnToIdle rfl ?_ hbits hpr, h.phase⟩, h.safe.off_lt⟩
    simp only [toIdle_nbits]
    omega
  · next hmore =>
    refine Res.gives_next.2 ⟨?_, h.phase⟩
    exact
      { h.safe with
        bitCount := by simp only [BitCountOk, fecPush_state, hstate, hdrBits] at hmore ⊢; omega
        accumulators := ⟨h.safe.accumulators.1, fun hd => absurd hd hnotData⟩
        window := fun _ => by
          rw [hsucc, List.range_succ, ← h.safe.window hstate, fecPush_fecWin, List.map_append]
          rfl
        confidences := fun hexact => ⟨fun hd => absurd hd hnotData, (h.safe.confidences hexact).2⟩ }

/-! ### The demodulation of a symbol (42_demod.md R170 to R180) -/

/-- DESCR: a soft bit that is inverted lies in [0, 1] if it did before (R177). -/
theorem execDescr_gives {s : State} (h : InStep s) (hsv : SoftBit s.wires.sv) :
    (execDescr s).Gives fun t => InStep t ∧ (t.cfg.num.arith = .exact → SoftBit t.wires.v) := by
  refine Res.gives_next.2 ⟨h.of_unseen rfl rfl, fun hexact => ?_⟩
  dsimp only
  split
  · rw [SoftBit, Numerics.toReal_sub hexact]
    simp [hsv.1, hsv.2]
  · exact hsv

theorem execPutbit_gives {s : State} (h : InStep s) (hsv : SoftBit s.wires.sv) : (execPutbit s).Gives InStep := by
  refine (execDescr_gives h hsv).andThen fun t ht => ?_
  obtain ⟨hsafe, hv⟩ := ht
  cases hstate : t.state with
  | idle => exact Res.gives_next.2 hsafe
  | header => exact execHdrbit_gives hsafe hstate
  | data => exact execDatabit_gives hsafe hstate hv

theorem execPutbit_withRawBit_gives {s : State} {v : Scalar} (h : InStep s) (hv : SoftBit v) :
    (execPutbit (withRawBit v s)).Gives InStep :=
  execPutbit_gives (h.of_unseen rfl rfl) hv

/-- DM.GRAY leaves three soft bits (R175; 00_scope.md R9). -/
theorem execDmGray_gives {s : State} (h : InStep s) :
    (execDmGray s).Gives fun t => InStep t ∧ SoftBit t.wires.s0 ∧ SoftBit t.wires.s1 ∧ SoftBit t.wires.s2 :=
  Res.gives_next.2 ⟨h.of_unseen rfl rfl, s.cfg.gray_range 0 _, s.cfg.gray_range 1 _, s.cfg.gray_range 2 _⟩

/-- DM.UPD retains the phase that PHASE has left (R176). -/
theorem execDmUpd_gives {s : State} (h : InStep s) : (execDmUpd s).Gives InStep :=
  Res.gives_next.2 ⟨{ h.safe with phases := ⟨h.phase, h.safe.phases.2⟩ }, h.phase⟩

theorem execDemod_gives {s : State} (h : InStep s) : (execDemod s).Gives InStep := by
  have hquant : (((execDmDiff s).andThen execDmCorr).andThen execDmQuant).Gives InStep :=
    Res.gives_next.2 (h.of_unseen rfl rfl)
  refine ((hquant.andThen fun t => execDmGray_gives).andThen fun t ht => ?_).andThen fun t => execDmUpd_gives
  obtain ⟨hsafe, h0, h1, h2⟩ := ht
  exact ((execPutbit_withRawBit_gives hsafe h0).andThen fun u hu => execPutbit_withRawBit_gives hu h1).andThen
    fun u hu => execPutbit_withRawBit_gives hu h2

theorem execSclk_gives {s : State} (h : InStep s) : (execSclk s).Gives InStep := by
  have hclk := h.safe.clk_lt
  unfold execSclk
  split
  · exact execDemod_gives (h.withClk (by simp))
  · next hmore =>
    refine Res.gives_next.2 (h.withClk ?_)
    simp only [ovs, BitVec.toNat_add] at hclk hmore ⊢
    simp at hmore ⊢
    omega

/-! ### Sync acquisition (41_sync.md R140 to R152) -/

/-- SYNC writes the fit to `fr` and `err`, and SY.PEAK chooses what follows (R140). -/
theorem execSync_eq (s : State) : ∃ u : State,
    execSync s = (if u.wires.peak then execSyAcq u else execSyShift u) ∧
    u = { s with fr := u.fr, err := u.err, wires := u.wires } ∧
    u.wires.phase = s.wires.phase ∧ u.wires.peak = peakTest u.cfg.num u.perr u.err :=
  ⟨_, rfl, rfl, rfl, rfl⟩

/-- An acquisition starts a header in which no bit has come (R148). -/
theorem execSyAcq_gives {s : State} (h : InStep s) (hstate : s.state = .idle) : (execSyAcq s).Gives InStep := by
  obtain ⟨hink, hphidx, -⟩ := h.safe.indices
  have hnotData : s.state ≠ .data := by simp [hstate]
  rw [execSyAcq, execSyInterp, Res.andThen_next, execSySplit, Res.andThen_next, Res.gives_next]
  refine ⟨?_, h.phase⟩
  exact
    { memories := h.safe.memories
      indices := ⟨hink, hphidx, offSel_lt _ _, clkInit_lt _ _, nofun⟩
      bitCount := by simp [BitCountOk]
      block := nofun
      geometry := h.safe.geometry
      accumulators := ⟨fun _ => h.safe.accumulators.1 hnotData, nofun⟩
      phases := h.safe.phases
      trackers := fun _ _ => le_refl _
      window := fun _ => rfl
      confidences := fun hexact => ⟨nofun, (h.safe.confidences hexact).2⟩ }

/-- SY.PEAK compares the real numbers (R147). -/
theorem peakTest_iff {n : Numerics} (hexact : n.arith = .exact) (perr err : Scalar) :
    peakTest n perr err = true ↔ perr.toReal < 4 ∧ perr.toReal < err.toReal := by
  simp [peakTest, Numerics.lt_iff hexact, Numerics.gt_iff hexact]

/-- Without a peak the new fit error, if it is below the threshold, is not above the last one (R152). -/
theorem execSyShift_gives {s : State} (h : InStep s) (hpeak : peakTest s.cfg.num s.perr s.err = false) :
    (execSyShift s).Gives InStep := by
  refine Res.gives_next.2 ⟨?_, h.phase⟩
  exact
    { h.safe with
      phases := ⟨h.phase, h.safe.phases.2⟩
      trackers := fun hexact hbelow => by
        have hnot := (peakTest_iff hexact s.perr s.err).not.1 (by simp [hpeak])
        by_contra habove
        have hrises := not_le.1 habove
        exact hnot ⟨hrises.trans hbelow, hrises⟩ }

theorem execSync_gives {s : State} (h : InStep s) (hstate : s.state = .idle) : (execSync s).Gives InStep := by
  obtain ⟨u, heq, hu, hphase, hpeak⟩ := execSync_eq s
  have hsafe : InStep u := h.of_unseen (by rw [hu]) hphase
  have hidle : u.state = .idle := by rw [hu]; exact hstate
  rw [heq]
  split
  · exact execSyAcq_gives hsafe hidle
  · next hno => exact execSyShift_gives hsafe (by rw [← hpeak]; simpa using hno)

/-! ### One sample (40_sample_filter.md R120 to R125) -/

theorem execFdisp_gives {s : State} (h : InStep s) : (execFdisp s).Gives InStep := by
  unfold execFdisp
  split
  · next hstate => exact execSync_gives h hstate
  · exact execSclk_gives h
  · exact execSclk_gives h

theorem execSpush_gives {s : State} (h : InStep s) : (execSpush s).Gives InStep := by
  obtain ⟨hwf, hwfPh, hwfBlkd, hwfBlkp, hinbuf, hph, hblkd, hblkp⟩ := h.safe.memories
  obtain ⟨-, hphidx, hoff, hclk, hidle⟩ := h.safe.indices
  refine Res.gives_next.2 ⟨?_, h.phase⟩
  exact
    { h.safe with
      memories := ⟨Memory.wf_write hwf, hwfPh, hwfBlkd, hwfBlkp,
        Memory.forall_mem_write hinbuf (ringIndex_lt s.cfg.ntap_pos _), hph, hblkd, hblkp⟩
      indices := ⟨Nat.mod_lt _ s.cfg.ntap_pos, hphidx, hoff, hclk, hidle⟩ }

theorem execMfilt_gives {s : State} (h : InStep s) : (execMfilt s).Gives InStep := by
  intro t ht
  obtain ⟨-, rfl⟩ := execMfilt_eq_next.1 ht
  exact h.of_unseen rfl rfl

theorem execPhase_gives {s : State} (h : InStep s) : (execPhase s).Gives InStep := by
  obtain ⟨hwf, hwfPh, hwfBlkd, hwfBlkp, hinbuf, hph, hblkd, hblkp⟩ := h.safe.memories
  obtain ⟨hink, -, hoff, hclk, hidle⟩ := h.safe.indices
  have harg := phaseOk_arg s.cfg.num s.wires.filtered
  refine Res.gives_next.2 ⟨?_, harg⟩
  exact
    { h.safe with
      memories := ⟨hwf, Memory.wf_write hwfPh, hwfBlkd, hwfBlkp, hinbuf,
        Memory.forall_mem_write hph (ringIndex_lt s.cfg.phlen_pos _), hblkd, hblkp⟩
      indices := ⟨hink, Nat.mod_lt _ s.cfg.phlen_pos, hoff, hclk, hidle⟩
      phases := ⟨h.safe.phases.1, Memory.forall_mem_write h.safe.phases.2 harg⟩ }

theorem execDtick_gives {s : State} (h : InStep s) : (execDtick s).Gives InStep :=
  Res.gives_next.2 (h.of_unseen rfl rfl)

theorem execStep_gives {s : State} (h : InStep s) : (execStep s).Gives InStep := by
  refine ((execSpush_gives h).andThen fun t => execDtick_gives).andThen fun t ht => ?_
  split
  · exact Res.gives_next.2 ht
  · exact ((execMfilt_gives ht).andThen fun u => execPhase_gives).andThen fun u => execFdisp_gives

/-! ### RESET (70_reset_and_hazards.md R260) -/

/-- RESET gives the invariant whatever the state was. -/
theorem execReset_gives (s : State) : (execReset s).Gives SafeState := by
  refine Res.gives_next.2 ?_
  exact
    { memories := ⟨rfl, rfl, rfl, rfl, nofun, nofun, nofun, nofun⟩
      indices := ⟨s.cfg.ntap_pos, s.cfg.phlen_pos, s.cfg.noff_pos, by simp, fun _ => rfl⟩
      bitCount := Nat.zero_le _
      block := nofun
      geometry := .inl ⟨rfl, rfl⟩
      accumulators := ⟨fun _ => ⟨rfl, rfl⟩, nofun⟩
      phases := ⟨phaseOk_zero _, nofun⟩
      trackers := fun _ _ => le_refl _
      window := nofun
      confidences := fun _ => ⟨nofun, nofun⟩ }

/-! ### One step -/

theorem step_of_reject {s : State} {line : Stimulus} {rest : List Stimulus} {e : Refusal} (hq : s.inq = line :: rest)
    (h : fetchLine line (takeLine rest s) = .reject e) : step s = .refused e := by
  simp only [step, hq, h]

/-- Clearing the wires after a transaction. -/
theorem Res.Gives.clear {r : Res} (h : r.Gives SafeState) :
    (r.andThen fun t => .next { t with wires := Wires.none }).Gives SafeState :=
  h.andThen fun _ ht => Res.gives_next.2 (ht.of_unseen rfl)

theorem Res.Gives.safe {r : Res} (h : r.Gives InStep) : r.Gives SafeState := fun t ht => (h t ht).safe

/-- Settles O57: by the kind of the next line (`stepRunsTheInstructionOfTheNextLine`). A SAMPLE, a RESET and a PUTBIT run STEP, RESET
and PUTBIT, each of which keeps the invariant; a line of the FEC decoder and an empty queue write nothing that it sees. -/
theorem stepKeepsTheInvariant : Obligations.StepKeepsTheInvariant := by
  unfold Obligations.StepKeepsTheInvariant
  intro s t h hline
  suffices hrun : Res.Gives (step s) SafeState from hrun t
  cases hq : s.inq with
  | nil =>
    rw [step_of_no_line hq]
    exact Res.gives_next.2 (h.of_unseen rfl)
  | cons line rest =>
    obtain ⟨-, -, hsample, hreset, hputbit, hfec, -⟩ := stepRunsTheInstructionOfTheNextLine s rest
    have hhardware := hline line rest hq
    match line, hhardware with
    | .reset, _ =>
      rw [hreset hq]
      exact (execReset_gives _).clear
    | .sample (.finite re) (.finite im) now, _ =>
      rw [hsample re im now hq]
      exact (execStep_gives (.start h rfl rfl)).safe.clear
    | .sample .nonFinite _ _, _ | .sample (.finite _) .nonFinite _, _ | .fec .nonFinite _, _ =>
      rw [step_of_reject hq rfl]
      exact Res.gives_refused
    | .fec (.finite vp) bits, _ =>
      rw [hfec vp bits hq]
      exact Res.gives_next.2 (h.of_unseen rfl)
    | .putbit v, hv =>
      have hbit : SoftBit v := hv
      rw [hputbit v hq]
      exact (execPutbit_gives (.start h rfl rfl) hbit).safe.clear

end Sys2Proof.Machine
end

/-! ## The proofs of 20_memory.md: the sync window

SUPPORT. Two facts about an index expression of a ring buffer, then the L addresses of R63: they are strides of OVS in a window of
L * OVS elements, which is never longer than the phase history (00_scope.md R8). -/

section
namespace Sys2Proof.Machine

/-! ### Index expressions of a ring buffer (20_memory.md R61) -/

/-- No element of a window that fits the ring is addressed twice. -/
theorem ringIndex_add_inj {capacity base i j : Nat} (hi : i < capacity) (hj : j < capacity)
    (h : ringIndex capacity (base + i) = ringIndex capacity (base + j)) : i = j :=
  (Nat.ModEq.add_left_cancel' base h).eq_of_lt_of_lt hi hj

/-- One whole turn of the ring comes back to the same element. -/
theorem ringIndex_add_capacity {capacity i : Nat} (hi : i < capacity) : ringIndex capacity (i + capacity) = i :=
  (Nat.add_mod_right i capacity).trans (Nat.mod_eq_of_lt hi)

/-! ### The addresses of SY.SAMPLE (20_memory.md R63) -/

/-- The offsets of the window stay below PHLEN, because L * OVS does. -/
theorem mul_ovs_lt_phlen {c : Config} {k : Nat} (hk : k < c.l) : k * ovs < c.phlen :=
  calc k * ovs < c.l * ovs := Nat.mul_lt_mul_of_pos_right hk (by decide)
    _ ≤ c.phlen := c.l_mul_ovs_le_phlen

theorem eaPh_inj {c : Config} {slot k k' : Nat} (hk : k < c.l) (hk' : k' < c.l)
    (h : eaPh c slot k = eaPh c slot k') : k = k' := by
  have hoffset : k * ovs = k' * ovs := ringIndex_add_inj (mul_ovs_lt_phlen hk) (mul_ovs_lt_phlen hk') h
  exact Nat.eq_of_mul_eq_mul_right (by decide) hoffset

/-- The last address is L * OVS elements after the slot. -/
theorem eaPh_last (c : Config) (slot : Nat) : eaPh c slot (c.l - 1) = ringIndex c.phlen (slot + c.l * ovs) := by
  have hl : c.l - 1 + 1 = c.l := Nat.sub_add_cancel (Nat.le_of_lt c.two_le_l)
  have hstride : ovs + (c.l - 1) * ovs = c.l * ovs := by rw [Nat.add_comm, ← Nat.succ_mul, Nat.succ_eq_add_one, hl]
  rw [eaPh, Nat.add_assoc, hstride]

/-- Settles O15: the window fits the phase history (`eaPh_inj`), and with HDEPTH = L it is one whole turn of it. -/
theorem syncWindowAddressesAreDistinct : Obligations.SyncWindowAddressesAreDistinct := by
  unfold Obligations.SyncWindowAddressesAreDistinct
  refine fun c w => ⟨fun _ _ => eaPh_inj, fun hdepth hw => ?_⟩
  have hturn : c.l * ovs = c.phlen := by rw [Config.phlen, hdepth]
  rw [eaPh_last, hturn, ringIndex_add_capacity hw]

end Sys2Proof.Machine
end

/-! ## The proofs of 30_encoding.md: the decoder and the control vector

SUPPORT. First what the decoder can answer: the row that a word names, or the row that the fold of `mostSpecific` keeps. Then the
operation map read in the fields of the control vector (`cvCondition`), and when the state sets these fields. -/

section
namespace Sys2Proof

/-! ### Words that name their row (30_encoding.md R98) -/

/-- The row numbers count the operation map from 1, the composites after it. -/
theorem map_rowNumber_rows : (mapRows ++ compositeRows).map Instr.rowNumber = List.range' 1 43 := rfl

theorem rowNumber_of_rowInstr {n : Nat} {i : Instr} (h : rowInstr n = some i) : i.rowNumber = n := by
  obtain ⟨hpos, hrow⟩ : n ≠ 0 ∧ (mapRows ++ compositeRows)[n - 1]? = some i := by simpa [rowInstr] using h
  have hnumber : (List.range' 1 43)[n - 1]? = some i.rowNumber := by
    rw [← map_rowNumber_rows, List.getElem?_map, hrow, Option.map_some]
  obtain ⟨hlt, hget⟩ := List.getElem?_eq_some_iff.1 hnumber
  rw [List.getElem_range'] at hget
  omega

theorem Instr.selectedBy_cvMatch (i : Instr) : i.selectedBy i.cvMatch = true := by
  cases i <;> rfl

theorem Instr.wf_eq_true (i : Instr) : i.wf = true := by
  refine (OpWord.wf_rowByte_iff i.cvMatch i).2 ⟨?_, ?_, i.selectedBy_cvMatch⟩ <;> cases i <;> rfl

theorem decode_encode (i : Instr) (rest : List Byte) : decode (encode i ++ rest) = .ok (i, rest) :=
  decode_bytes_of_wf i.wf_eq_true rest

/-! ### Words that name no row (log 10) -/

/-- One step of the fold of `mostSpecific`: the row kept when `i` comes after `best`. -/
def preferred (cv : Byte) (best i : Instr) : Instr :=
  if i.selectedBy cv && (!best.selectedBy cv || decide (best.fixedBits < i.fixedBits)) then i else best

theorem mostSpecific_eq_foldl (cv : Byte) : mostSpecific cv = mapRows.foldl (preferred cv) .spush := rfl

/-- `i` can stand in the place of `j`: if `cv` selects `j`, it selects `i`, and `i` fixes at least as many bits. -/
def AsSpecific (cv : Byte) (j i : Instr) : Prop :=
  j.selectedBy cv = true → i.selectedBy cv = true ∧ j.fixedBits ≤ i.fixedBits

theorem AsSpecific.refl (cv : Byte) (i : Instr) : AsSpecific cv i i := fun h => ⟨h, le_rfl⟩

theorem AsSpecific.trans {cv : Byte} {j k i : Instr} (hjk : AsSpecific cv j k) (hki : AsSpecific cv k i) :
    AsSpecific cv j i := fun hj =>
  have ⟨hk, hle⟩ := hjk hj
  have ⟨hi, hle'⟩ := hki hk
  ⟨hi, hle.trans hle'⟩

theorem asSpecific_preferred (cv : Byte) (best i : Instr) :
    AsSpecific cv best (preferred cv best i) ∧ AsSpecific cv i (preferred cv best i) := by
  unfold preferred
  split
  case isTrue htake =>
    simp only [Bool.and_eq_true, Bool.or_eq_true, Bool.not_eq_true', decide_eq_true_eq] at htake
    obtain ⟨hi, hbetter⟩ := htake
    refine ⟨fun hbest => ⟨hi, ?_⟩, .refl cv i⟩
    cases hbetter with
    | inl hnot => exact absurd hbest (by simp [hnot])
    | inr hlt => exact hlt.le
  case isFalse hkeep =>
    simp only [Bool.and_eq_true, Bool.or_eq_true, Bool.not_eq_true', decide_eq_true_eq, not_and, not_or, not_lt,
      Bool.not_eq_false] at hkeep
    exact ⟨.refl cv best, hkeep⟩

/-- The fold ends with a row that can stand in the place of its start and of every row it has met. -/
theorem asSpecific_foldl (cv : Byte) (rows : List Instr) (best : Instr) :
    AsSpecific cv best (rows.foldl (preferred cv) best) ∧
    ∀ j ∈ rows, AsSpecific cv j (rows.foldl (preferred cv) best) := by
  induction rows generalizing best with
  | nil => exact ⟨.refl cv best, by simp⟩
  | cons i rows ih =>
    obtain ⟨hbest, hi⟩ := asSpecific_preferred cv best i
    obtain ⟨hkept, hrows⟩ := ih (preferred cv best i)
    refine ⟨hbest.trans hkept, List.forall_mem_cons.2 ⟨hi.trans hkept, hrows⟩⟩

theorem asSpecific_mostSpecific {cv : Byte} {j : Instr} (hj : j ∈ mapRows) : AsSpecific cv j (mostSpecific cv) := by
  rw [mostSpecific_eq_foldl]
  exact (asSpecific_foldl cv mapRows .spush).2 j hj

/-- The bit `rst` alone decides between RESET and SPUSH, so some row is always selected (30_encoding.md R98). -/
theorem reset_or_spush_selectedBy (cv : Byte) : Instr.reset.selectedBy cv = true ∨ Instr.spush.selectedBy cv = true := by
  have hmask : cv &&& (0x20 : Byte) = if cv.getLsbD 5 then 0x20 else 0 := BitVec.and_twoPow cv 5
  simp only [Instr.selectedBy, Instr.cvMask, Instr.cvMatch, beq_iff_eq, hmask]
  cases cv.getLsbD 5 <;> simp

theorem mostSpecific_selectedBy (cv : Byte) : (mostSpecific cv).selectedBy cv = true := by
  cases reset_or_spush_selectedBy cv with
  | inl hreset => exact (asSpecific_mostSpecific (by decide) hreset).1
  | inr hspush => exact (asSpecific_mostSpecific (by decide) hspush).1

/-! ### What the decoder can answer -/

theorem decodeWord_eq_ok_iff (w : OpWord) (i : Instr) :
    decodeWord w = .ok i ↔
      w.cvInRange = true ∧ w.stateKnown = true ∧
      (w.row = 0 ∧ mostSpecific w.cv = i ∨ w.row ≠ 0 ∧ rowInstr w.row.toNat = some i ∧ i.selectedBy w.cv = true) := by
  unfold decodeWord
  cases w.cvInRange <;> cases w.stateKnown <;> simp only [Bool.not_true, Bool.not_false, Bool.false_eq_true, if_true,
    if_false, reduceCtorEq, false_and, and_false, true_and]
  by_cases hrow : w.row = 0
  · simp only [hrow, if_true, ne_eq, not_true_eq_false, false_and, or_false, true_and, Except.ok.injEq]
  · simp only [hrow, if_false, ne_eq, not_false_eq_true, false_and, false_or, true_and]
    cases rowInstr w.row.toNat with
    | none => simp only [reduceCtorEq, false_and]
    | some j =>
      by_cases hsel : j.selectedBy w.cv = true
      · simp only [hsel, if_true, Except.ok.injEq, Option.some.injEq]
        exact ⟨fun h => ⟨h, h ▸ hsel⟩, And.left⟩
      · simp only [hsel, if_false, Option.some.injEq, reduceCtorEq, false_iff, Bool.false_eq_true]
        rintro ⟨rfl, h⟩
        exact hsel h

theorem decode_eq_ok {bs rest : List Byte} {i : Instr} (h : decode bs = .ok (i, rest)) :
    ∃ cv row : Byte, bs = cv :: row :: rest ∧ decodeWord ⟨cv, row⟩ = .ok i := by
  match bs with
  | [] | [_] => cases h
  | cv :: row :: tail =>
    cases hword : decodeWord ⟨cv, row⟩ with
    | error e =>
      rw [decode, hword] at h
      cases h
    | ok j =>
      rw [decode, hword] at h
      cases h
      exact ⟨cv, row, rfl, hword⟩

/-! ### The operation map in the fields of the control vector (30_encoding.md R97, R98, R107) -/

namespace Machine

/-- The pattern of a row, in the fields of the control vector. -/
def cvCondition (rst lastbit stick ftick : Bool) (st : Mode) : Instr → Bool
  | .reset => rst
  | .spush | .dtick | .step => !rst
  | .mfilt | .phase | .fdisp => !rst && ftick
  | .sySample | .syResid | .syUnwrap | .syDc | .syFit | .syErr | .syPeak | .syAcq | .syInterp | .sySplit | .syShift
  | .sync => !rst && ftick && decide (st = .idle)
  | .sclk => !rst && ftick && decide (st ≠ .idle)
  | .dmDiff | .dmCorr | .dmQuant | .dmGray | .dmUpd | .demod => !rst && stick && ftick && decide (st ≠ .idle)
  | .descr | .putbit => !rst && stick && ftick
  | .bitdrop => !rst && stick && ftick && decide (st = .idle)
  | .hdrbit => !rst && stick && ftick && decide (st = .header)
  | .databit => !rst && stick && ftick && decide (st = .data)
  | .hdrfin | .hdConf | .hdLen | .hdShort | .hdGeom | .hdLong | .hdAccept =>
    !rst && stick && ftick && lastbit && decide (st = .header)
  | .bstore | .badv | .bdone | .dispatch => !rst && stick && ftick && lastbit && decide (st = .data)
  | .toidle => !rst && stick && ftick && lastbit && decide (st ≠ .idle)

/-- The mask and match of every row say what its pattern says of the fields. -/
theorem selectedBy_controlVector (i : Instr) (rst lastbit stick ftick : Bool) (st : Mode) :
    i.selectedBy (controlVector rst lastbit stick ftick st) = cvCondition rst lastbit stick ftick st i := by
  cases i <;> cases st <;> revert rst lastbit stick ftick <;> decide

/-- A control vector with `rst` selects RESET alone. -/
theorem selectedBy_resetCv (i : Instr) (s : State) : i.selectedBy (resetCv s) = decide (i = .reset) := by
  rw [resetCv, selectedBy_controlVector]
  cases i <;> rfl

theorem selected_resetCv (s : State) : selected (resetCv s) = [.reset] := by
  simp only [selected, selectedBy_resetCv]
  rfl

theorem selectedBy_stepCv (i : Instr) (s : State) :
    i.selectedBy (stepCv s) = cvCondition false false (symbolTick s) (filterTick s) s.state i :=
  selectedBy_controlVector ..

theorem selectedBy_bitCv (i : Instr) (s : State) :
    i.selectedBy (bitCv s) = cvCondition false (lastBit s) true true s.state i :=
  selectedBy_controlVector ..

/-! ### The fields computed from the state (30_encoding.md R97) -/

theorem filterTick_iff (s : State) : filterTick s = true ↔ s.dec = 1 := decide_eq_true_iff

/-- Bit 1 of `state` is "locked" (30_encoding.md R96). -/
theorem code_getLsbD_one (m : Mode) : m.code.getLsbD 1 = decide (m ≠ .idle) := by
  cases m <;> rfl

theorem symbolTick_iff (s : State) : symbolTick s = true ↔ s.dec = 1 ∧ s.state ≠ .idle ∧ s.clk = 7 := by
  have hclk : s.clk.toNat + 1 = ovs ↔ s.clk = 7 := by
    rw [← BitVec.toNat_inj]
    exact Nat.succ_inj
  simp only [symbolTick, Bool.and_eq_true, filterTick_iff, code_getLsbD_one, decide_eq_true_eq, hclk, and_assoc]

/-- A symbol tick is a filter tick of a locked state, so the pattern's other fields add nothing to it. -/
theorem symbolTick_and_locked_iff (s : State) :
    (symbolTick s && filterTick s && decide (s.state ≠ .idle)) = true ↔ s.dec = 1 ∧ s.state ≠ .idle ∧ s.clk = 7 := by
  simp only [Bool.and_eq_true, symbolTick_iff, filterTick_iff, decide_eq_true_eq]
  tauto

theorem lastBit_and_header_iff (s : State) :
    (lastBit s && decide (s.state = .header)) = true ↔ s.state = .header ∧ s.nbits = 24 := by
  cases hstate : s.state <;> simp [lastBit, hstate]

theorem lastBit_and_data_iff (s : State) :
    (lastBit s && decide (s.state = .data)) = true ↔ s.state = .data ∧ s.nbits = 7 := by
  cases hstate : s.state <;> simp [lastBit, hstate]

theorem lastBit_and_locked_iff (s : State) :
    (lastBit s && decide (s.state ≠ .idle)) = true ↔
      (s.state = .header ∧ s.nbits = 24) ∨ (s.state = .data ∧ s.nbits = 7) := by
  cases hstate : s.state <;> simp [lastBit, hstate]

/-- Rows with one pattern are selected under one condition. -/
theorem forall_rows_iff {rows : List Instr} {sel : Instr → Bool} {pattern : Bool} {P : Prop}
    (hpattern : pattern = true ↔ P) (hrows : ∀ i ∈ rows, sel i = pattern) : ∀ i ∈ rows, sel i = true ↔ P :=
  fun i hi => by rw [hrows i hi, hpattern]

end Machine

/-! ### The statements -/

/-- Settles O1: a word that names its row by `decode_bytes_of_wf`; conversely the decoder answers the row named
(`rowNumber_of_rowInstr`) or what the fold over the map ends with (`asSpecific_foldl`). -/
theorem decodeAgreesWithTheOperationMap : Obligations.DecodeAgreesWithTheOperationMap := by
  unfold Obligations.DecodeAgreesWithTheOperationMap
  refine ⟨fun i cv rest hwf => decode_bytes_of_wf hwf rest, decode_encode, fun bs rest i h => ?_⟩
  obtain ⟨cv, row, hbytes, hword⟩ := decode_eq_ok h
  obtain ⟨-, -, hanswer⟩ := (decodeWord_eq_ok_iff _ i).1 hword
  refine ⟨cv, row, hbytes, ?_⟩
  obtain ⟨hbare, rfl⟩ | ⟨-, hnamed, hsel⟩ := hanswer
  · exact ⟨mostSpecific_selectedBy cv, .inr ⟨hbare, fun j hj hsel => (asSpecific_mostSpecific hj hsel).2⟩⟩
  · exact ⟨hsel, .inl (rowNumber_of_rowInstr hnamed).symm⟩

open Machine in
/-- Settles O3: each clause reads the pattern of its rows in the fields of the control vector (`cvCondition`), and the state sets
these fields under the condition that the clause states. -/
theorem operationMapAgreesWithTheSchedule : Obligations.OperationMapAgreesWithTheSchedule := by
  unfold Obligations.OperationMapAgreesWithTheSchedule
  intro s
  have hidle : (filterTick s && decide (s.state = .idle)) = true ↔ s.dec = 1 ∧ s.state = .idle := by
    rw [Bool.and_eq_true, filterTick_iff, decide_eq_true_eq]
  have hlocked : (filterTick s && decide (s.state ≠ .idle)) = true ↔ s.dec = 1 ∧ s.state ≠ .idle := by
    rw [Bool.and_eq_true, filterTick_iff, decide_eq_true_eq]
  simp only [selectedBy_stepCv, selectedBy_bitCv]
  refine ⟨selected_resetCv s, ?_, forall_rows_iff (filterTick_iff s) ?_, forall_rows_iff hidle ?_, hlocked,
    forall_rows_iff (symbolTick_and_locked_iff s) ?_, rfl, decide_eq_true_iff, decide_eq_true_iff, decide_eq_true_iff,
    forall_rows_iff (lastBit_and_header_iff s) ?_, forall_rows_iff (lastBit_and_data_iff s) ?_, lastBit_and_locked_iff s⟩
  -- what is left: the rows that a clause lists have its pattern
  all_goals simp [cvCondition]

/-- Settles O2: the words are the canonical ones of their rows (`decode_encode`), and the last has the reserved state code. -/
theorem writtenWordsDecode : Obligations.WrittenWordsDecode := by
  unfold Obligations.WrittenWordsDecode
  exact ⟨decode_encode .reset [], decode_encode .spush [], decode_encode .mfilt [], decode_encode .syAcq [],
    decode_encode .sclk [], decode_encode .dmDiff [], decode_encode .bitdrop [], decode_encode .hdrfin [],
    decode_encode .bstore [], decode_encode .toidle [], decode_encode .step [], rfl⟩

end Sys2Proof
end

/-! ## The proofs of 40_sample_filter.md: the sample buffer, the filter, the phase tracker, the step

SUPPORT. First the complex operations of the exact record, which make MFILT an inner product of complex numbers, and the angle on the
real axis; then how STEP, FDISP, SYNC and SCLK run the other operations; then the statements. -/

section
namespace Sys2Proof

/-! ### Complex numbers of the exact record (40_sample_filter.md R123) -/

section
variable {n : Numerics} (h : n.arith = .exact)
include h

theorem Numerics.toComplex_cmul (a b : Cplx) : (n.cmul a b).toComplex = a.toComplex * b.toComplex := by
  apply Complex.ext
  · rw [Complex.mul_re]
    simp only [Numerics.cmul, Cplx.toComplex, Numerics.toReal_sub h, Numerics.toReal_mul h]
  · rw [Complex.mul_im]
    simp only [Numerics.cmul, Cplx.toComplex, Numerics.toReal_add h, Numerics.toReal_mul h]

theorem Numerics.toComplex_csum (l : List Cplx) : (n.csum l).toComplex = (l.map Cplx.toComplex).sum := by
  have hre (zs : List ℂ) : zs.sum.re = (zs.map Complex.re).sum := map_list_sum Complex.reAddGroupHom zs
  have him (zs : List ℂ) : zs.sum.im = (zs.map Complex.im).sum := map_list_sum Complex.imAddGroupHom zs
  apply Complex.ext
  · simp only [hre, Numerics.csum, Cplx.toComplex, Numerics.toReal_sum h, List.map_map, Function.comp_def]
  · simp only [him, Numerics.csum, Cplx.toComplex, Numerics.toReal_sum h, List.map_map, Function.comp_def]

end

/-! ### The angle on the real axis (00_scope.md R14, 40_sample_filter.md R124) -/

theorem Numerics.isZero_zero (n : Numerics) : n.isZero .zero = true := by
  simp [Numerics.isZero]

/-- `arg(0) = 0`, whatever the arithmetic is. -/
theorem Numerics.arg_zero (n : Numerics) : n.arg Cplx.zero = .zero := by
  cases h : n.arith with
  | exact => rw [Numerics.arg_exact h]; rfl
  | format k => simp [Numerics.arg, h, Numerics.argFormat, Numerics.isZero_zero]

/-- A format gives the negative real axis, as it compares, the angle pi. -/
theorem Numerics.arg_neg_axis_of_format {n : Numerics} {k : Nat} (h : n.arith = .format k) {z : Cplx}
    (him : z.im = .zero) (hre : z.re ≠ .zero) (hneg : n.lt z.re .zero = true) : n.arg z = .pi := by
  have hnonzero : n.isZero z.re = false := by simp [Numerics.isZero, hre, hneg]
  simp [Numerics.arg, h, Numerics.argFormat, him, Numerics.isZero_zero, hnonzero, hneg]

namespace Machine

/-! ### How the composites run the operations (40_sample_filter.md R120, R125) -/

/-- SPUSH always completes, and writes INBUF and `ink` only (R121). -/
theorem execSpush_frame (s : State) :
    ∃ a : State, execSpush s = .next a ∧ a = { s with inbuf := a.inbuf, ink := a.ink } :=
  ⟨_, rfl, rfl⟩

/-- The tick that DTICK hands on in a step is `dec` as the step finds it. -/
theorem tick_of_execSpush_execDtick {s a b : State} (ha : execSpush s = .next a) (hb : execDtick a = .next b) :
    b.wires.tick = s.dec := by
  cases ha
  cases hb
  rfl

theorem execStep_of_no_tick {s a b : State} (h : s.dec = 0) (ha : execSpush s = .next a) (hb : execDtick a = .next b) :
    execStep s = .next b := by
  have htick := (tick_of_execSpush_execDtick ha hb).trans h
  simp [execStep, ha, hb, htick]

theorem execStep_of_tick {s a b c u : State} (h : s.dec = 1) (ha : execSpush s = .next a) (hb : execDtick a = .next b)
    (hc : execMfilt b = .next c) (hu : execPhase c = .next u) : execStep s = execFdisp u := by
  have htick := (tick_of_execSpush_execDtick ha hb).trans h
  simp [execStep, ha, hb, htick, hc, hu]

theorem execFdisp_of_idle {s : State} (h : s.state = .idle) : execFdisp s = execSync s := by
  rw [execFdisp, h]

theorem execFdisp_of_locked {s : State} (h : s.state ≠ .idle) : execFdisp s = execSclk s := by
  unfold execFdisp
  cases hstate : s.state with
  | idle => exact absurd hstate h
  | header | data => rfl

/-- SYNC always completes: SY.ACQ and SY.SHIFT do. -/
theorem execSync_completes (s : State) : ∃ t, execSync s = .next t := by
  obtain ⟨u, heq, -⟩ := execSync_eq s
  rw [heq]
  cases u.wires.peak with
  | true => exact ⟨_, rfl⟩
  | false => exact ⟨_, rfl⟩

/-- Below its last count the symbol clock does not overflow. -/
theorem toNat_clk_add_one {clk : BitVec 4} (h : clk.toNat < 7) : (clk + 1).toNat = clk.toNat + 1 := by
  bv_omega

theorem execSclk_of_lt {s : State} (h : s.clk.toNat < 7) : execSclk s = .next { s with clk := s.clk + 1 } := by
  have hcount : (s.clk + 1).toNat ≠ ovs := by
    rw [toNat_clk_add_one h]
    exact Nat.ne_of_lt (Nat.succ_lt_succ h)
  rw [execSclk, if_neg hcount]

end Machine

/-! ### The statements -/

open Machine in
/-- Settles O8: the sample is written at `ink mod NTAP` (`Memory.read_write`). -/
theorem spushStoresTheSampleAndAdvances : Obligations.SpushStoresTheSampleAndAdvances := by
  unfold Obligations.SpushStoresTheSampleAndAdvances
  intro s hwf
  exact ⟨_, rfl, fun _ => Memory.read_write hwf, rfl, rfl⟩

open Machine in
/-- Settles O9: the two values of the bit `dec`. -/
theorem dtickTogglesTheDecimationPhase : Obligations.DtickTogglesTheDecimationPhase := by
  unfold Obligations.DtickTogglesTheDecimationPhase
  intro s
  refine ⟨_, rfl, rfl, fun hzero => ?_, fun hone => ?_, rfl⟩
  · show s.dec ^^^ 1 = 1
    rw [hzero]; rfl
  · show s.dec ^^^ 1 = 0
    rw [hone]; rfl

open Machine in
/-- Settles O10: the sum of the terms of R123, whose complex value is that of the products (`Numerics.toComplex_csum`,
`Numerics.toComplex_cmul`). -/
theorem mfiltIsTheInnerProduct : Obligations.MfiltIsTheInnerProduct := by
  unfold Obligations.MfiltIsTheInnerProduct
  intro s hoff
  refine ⟨_, execMfilt_eq_next.2 ⟨hoff, rfl⟩, rfl, fun hexact => ?_, rfl⟩
  calc (s.cfg.num.csum (filterTerms s)).toComplex
      = ((List.range s.cfg.ntap).map fun i => (inbufAt s (s.ink + i)).toComplex * (s.cfg.tap s.off i).toComplex).sum := by
        rw [Numerics.toComplex_csum hexact, filterTerms, List.map_map]
        simp only [Function.comp_def, Numerics.toComplex_cmul hexact]
        rfl
    _ = ∑ i ∈ Finset.range s.cfg.ntap, (inbufAt s (s.ink + i)).toComplex * (s.cfg.tap s.off i).toComplex := rfl

open Machine in
/-- Settles O11: the angle by its rules (`Numerics.toReal_arg`, `phaseOk_arg` and those of the real axis), the slot because `phidx`
is below PHLEN. -/
theorem phaseAppendsTheAngle : Obligations.PhaseAppendsTheAngle := by
  unfold Obligations.PhaseAppendsTheAngle
  intro s hwf hphidx
  have hslot : ringIndex s.cfg.phlen s.phidx = s.phidx := Nat.mod_eq_of_lt hphidx
  have hangle (hexact : s.cfg.num.arith = .exact) := Numerics.toReal_arg hexact s.wires.filtered
  refine ⟨_, rfl, rfl, hslot, hangle, phaseOk_arg _ _, fun hzero => ?_, fun hexact him hre => ?_,
    fun k hformat him hre hneg => ?_, fun i => ?_, rfl, rfl⟩
  · show s.cfg.num.arg s.wires.filtered = .zero
    rw [hzero, Numerics.arg_zero]
  · exact (hangle hexact).trans (Complex.arg_eq_pi_iff.2 ⟨hre, him⟩)
  · exact Numerics.arg_neg_axis_of_format hformat him hre hneg
  · show Memory.read .zero (Memory.write .zero s.ph (ringIndex s.cfg.phlen s.phidx) (s.cfg.num.arg s.wires.filtered)) i = _
    rw [Memory.read_write hwf, hslot]

open Machine in
/-- Settles O54: without a tick STEP is SPUSH and DTICK (O8, O9); with one MFILT, PHASE and FDISP follow, and nothing before FDISP
writes `state`. In IDLE FDISP is SYNC, which completes; otherwise it is SCLK. -/
theorem stepFollowsTheSchedule : Obligations.StepFollowsTheSchedule := by
  unfold Obligations.StepFollowsTheSchedule
  refine fun s => ⟨fun hwf hdec => ?_, fun hdec hoff => ?_, fun hidle => ?_,
    fun hlocked => ⟨execFdisp_of_locked hlocked, fun hclk => ?_⟩⟩
  · obtain ⟨a, ha, hread, hink, hframe⟩ := spushStoresTheSampleAndAdvances s hwf
    have hdecA : a.dec = 0 := by rw [hframe]; exact hdec
    obtain ⟨t, ht, -, htoggle, -, hframe'⟩ := dtickTogglesTheDecimationPhase a
    have hinbuf : t.inbuf = a.inbuf := by rw [hframe']
    have hinkT : t.ink = a.ink := by rw [hframe']
    refine ⟨t, execStep_of_no_tick hdec ha ht, by rwa [hinbuf], hinkT.trans hink, htoggle hdecA, ?_⟩
    rw [hframe', hframe, hdec]
  · obtain ⟨a, ha, hframe⟩ := execSpush_frame s
    have hdecA : a.dec = 1 := by rw [hframe]; exact hdec
    obtain ⟨b, hb, -, -, htoggle, hframe'⟩ := dtickTogglesTheDecimationPhase a
    have hoffB : b.off < b.cfg.noff := by rw [hframe', hframe]; exact hoff
    have hmfilt := execMfilt_eq_next.2 ⟨hoffB, rfl⟩
    refine ⟨a, b, _, _, ha, hb, hmfilt, rfl, ?_, htoggle hdecA, execStep_of_tick hdec ha hb hmfilt rfl⟩
    show b.state = s.state
    rw [hframe', hframe]
  · obtain ⟨t, ht⟩ := execSync_completes s
    exact ⟨t, (execFdisp_of_idle hidle).trans ht, ht⟩
  · exact ⟨_, (execFdisp_of_locked hlocked).trans (execSclk_of_lt hclk), toNat_clk_add_one hclk, rfl⟩

end Sys2Proof
end

/-! ## The proofs of 41_sync.md: sync acquisition

SUPPORT. First the facts about lists that the rules speak of; then, operation by operation in the order of the chapter, what each
computes on the real numbers with exact arithmetic; then the statements. The unwrapper is read through its running correction
(`correction`), whose steps are turns of 2 pi (`turn`), and the line fit through the sums of squares over any finite set of points
(`sum_sq_sub_line`). -/

section
namespace Sys2Proof

/-! ### Sums over a list, by index -/

theorem sum_map_eq_sum_range {α : Type} (l : List α) (d : α) (f : α → ℝ) :
    (l.map f).sum = ∑ k ∈ Finset.range l.length, f (l.getD k d) := by
  rw [← Fin.sum_univ_fun_getElem, Finset.sum_range]
  exact Finset.sum_congr rfl fun k _ => by rw [List.getD_eq_getElem _ _ k.isLt]

/-- The element of an indexed map, under any default. -/
theorem getD_mapIdx_of_lt {α β : Type} {l : List α} {k : Nat} (hk : k < l.length) (f : Nat → α → β) (d : α) (e : β) :
    (l.mapIdx f).getD k e = f k (l.getD k d) := by
  rw [List.getD_eq_getElem _ _ (by rwa [List.length_mapIdx]), List.getElem_mapIdx, List.getD_eq_getElem _ _ hk]

theorem getD_map_of_lt {α β : Type} {l : List α} {k : Nat} (hk : k < l.length) (f : α → β) (d : α) (e : β) :
    (l.map f).getD k e = f (l.getD k d) := by
  rw [List.getD_eq_getElem _ _ (by rwa [List.length_map]), List.getElem_map, List.getD_eq_getElem _ _ hk]

theorem getD_zipWith_of_lt {α β γ : Type} {l : List α} {m : List β} {k : Nat} (hl : k < l.length) (hm : k < m.length)
    (f : α → β → γ) (a : α) (b : β) (c : γ) : (List.zipWith f l m).getD k c = f (l.getD k a) (m.getD k b) := by
  rw [List.getD_eq_getElem _ _ (by rw [List.length_zipWith]; exact lt_min hl hm), List.getElem_zipWith,
    List.getD_eq_getElem _ _ hl, List.getD_eq_getElem _ _ hm]

section
variable {n : Numerics} (h : n.arith = .exact)
include h

theorem Numerics.toReal_sum_eq_sum_range (l : List Scalar) :
    (n.sum l).toReal = ∑ k ∈ Finset.range l.length, (l.getD k .zero).toReal := by
  rw [Numerics.toReal_sum h, sum_map_eq_sum_range l .zero]

theorem Numerics.toReal_sum_mapIdx (f : Nat → Scalar → Scalar) (l : List Scalar) :
    (n.sum (l.mapIdx f)).toReal = ∑ k ∈ Finset.range l.length, (f k (l.getD k .zero)).toReal := by
  rw [Numerics.toReal_sum_eq_sum_range h, List.length_mapIdx]
  exact Finset.sum_congr rfl fun k hk => by rw [getD_mapIdx_of_lt (Finset.mem_range.1 hk) f .zero]

end

/-! ### The unwrapper (41_sync.md R143) -/

theorem Scalar.toReal_pi : Scalar.pi.toReal = Real.pi := by simp
theorem Scalar.toReal_negPi : Scalar.negPi.toReal = -Real.pi := by simp
theorem Scalar.toReal_twoPi : Scalar.twoPi.toReal = 2 * Real.pi := by simp [mul_comm]

/-- What the running correction changes by after a raw difference `d`: both comparisons are strict. -/
noncomputable def turn (d : ℝ) : ℝ := if Real.pi < d then -(2 * Real.pi) else if d < -Real.pi then 2 * Real.pi else 0

theorem turn_of_above {d : ℝ} (h : Real.pi < d) : turn d = -(2 * Real.pi) := if_pos h

theorem turn_of_below {d : ℝ} (h : d < -Real.pi) : turn d = 2 * Real.pi := by
  rw [turn, if_neg (by linarith [Real.pi_pos]), if_pos h]

theorem turn_of_between {d : ℝ} (hlo : -Real.pi ≤ d) (hhi : d ≤ Real.pi) : turn d = 0 := by
  rw [turn, if_neg (not_lt.2 hhi), if_neg (not_lt.2 hlo)]

/-- One turn brings a difference within pi exactly when it is within 3 pi (R153). -/
theorem abs_add_turn_le_iff (d : ℝ) : |d + turn d| ≤ Real.pi ↔ |d| ≤ 3 * Real.pi := by
  have hpi := Real.pi_pos
  rcases lt_or_ge Real.pi d with habove | hhi
  · rw [turn_of_above habove, abs_of_pos (hpi.trans habove), abs_le]
    exact ⟨fun ⟨_, hle⟩ => by linarith, fun hle => ⟨by linarith, by linarith⟩⟩
  rcases lt_or_ge d (-Real.pi) with hbelow | hlo
  · rw [turn_of_below hbelow, abs_of_neg (a := d) (by linarith), abs_le]
    exact ⟨fun ⟨hle, _⟩ => by linarith, fun hle => ⟨by linarith, by linarith⟩⟩
  · have hsmall : |d| ≤ Real.pi := abs_le.2 ⟨hlo, hhi⟩
    rw [turn_of_between hlo hhi, add_zero]
    exact iff_of_true hsmall (by linarith)

namespace Machine

/-- The running correction of R143 at each position of the raw residuals `c`, from the value `u` at position 0. -/
def correction (n : Numerics) (u : Scalar) (c : List Scalar) : Nat → Scalar
  | 0 => u
  | k + 1 => unwrapStep n (correction n u c k) (n.sub (c.getD (k + 1) .zero) (c.getD k .zero))

theorem correction_zero (n : Numerics) (u : Scalar) (c : List Scalar) : correction n u c 0 = u := rfl

theorem correction_succ (n : Numerics) (u : Scalar) (c : List Scalar) (k : Nat) : correction n u c (k + 1) =
    unwrapStep n (correction n u c k) (n.sub (c.getD (k + 1) .zero) (c.getD k .zero)) := rfl

/-- Seen from the second residual, the correction is the one that starts with the first step made. -/
theorem correction_cons (n : Numerics) (u prev c : Scalar) (cs : List Scalar) (k : Nat) :
    correction n u (prev :: c :: cs) (k + 1) = correction n (unwrapStep n u (n.sub c prev)) (c :: cs) k := by
  induction k with
  | zero => rfl
  | succ k ih => rw [correction_succ, ih]; rfl

theorem length_unwrapFrom (n : Numerics) (u prev : Scalar) (cs : List Scalar) : (unwrapFrom n u prev cs).length = cs.length := by
  induction cs generalizing u prev with
  | nil => rfl
  | cons c cs ih => rw [unwrapFrom, List.length_cons, ih, List.length_cons]

theorem getD_unwrapFrom (n : Numerics) (u prev : Scalar) {cs : List Scalar} {k : Nat} (hk : k < cs.length) :
    (unwrapFrom n u prev cs).getD k .zero = n.add (cs.getD k .zero) (correction n u (prev :: cs) (k + 1)) := by
  induction cs generalizing u prev k with
  | nil => cases hk
  | cons c cs ih =>
    rw [correction_cons]
    cases k with
    | zero => rfl
    | succ k => exact ih _ _ (Nat.lt_of_succ_lt_succ hk)

theorem length_unwrap (n : Numerics) (c : List Scalar) : (unwrap n c).length = c.length := by
  cases c with
  | nil => rfl
  | cons c cs => exact congrArg Nat.succ (length_unwrapFrom n .zero c cs)

theorem getD_unwrap_zero (n : Numerics) (c : List Scalar) : (unwrap n c).getD 0 .zero = c.getD 0 .zero := by
  cases c <;> rfl

theorem getD_unwrap_succ (n : Numerics) {c : List Scalar} {k : Nat} (hk : k + 1 < c.length) :
    (unwrap n c).getD (k + 1) .zero = n.add (c.getD (k + 1) .zero) (correction n .zero c (k + 1)) := by
  cases c with
  | nil => cases hk
  | cons c cs => exact getD_unwrapFrom n .zero c (Nat.lt_of_succ_lt_succ hk)

section
variable {n : Numerics} (h : n.arith = .exact)
include h

theorem toReal_unwrapStep (u d : Scalar) : (unwrapStep n u d).toReal = u.toReal + turn d.toReal := by
  simp only [unwrapStep, Numerics.gt_iff h, Numerics.lt_iff h, Scalar.toReal_pi, Scalar.toReal_negPi, turn]
  split_ifs
  · rw [Numerics.toReal_sub h, Scalar.toReal_twoPi, sub_eq_add_neg]
  · rw [Numerics.toReal_add h, Scalar.toReal_twoPi]
  · rw [add_zero]

/-- Over the real numbers a step of the running correction is the turn of the raw difference. -/
theorem toReal_correction_succ (u : Scalar) (c : List Scalar) (k : Nat) :
    (correction n u c (k + 1)).toReal = (correction n u c k).toReal +
      turn ((c.getD (k + 1) .zero).toReal - (c.getD k .zero).toReal) := by
  rw [correction_succ, toReal_unwrapStep h, Numerics.toReal_sub h]

/-- As real numbers every unwrapped residual, the first too, is the raw one and the running correction. -/
theorem toReal_getD_unwrap {c : List Scalar} {k : Nat} (hk : k < c.length) :
    ((unwrap n c).getD k .zero).toReal = (c.getD k .zero).toReal + (correction n .zero c k).toReal := by
  cases k with
  | zero => rw [getD_unwrap_zero, correction_zero, Scalar.toReal_poly, Poly.toReal_nil, add_zero]
  | succ k => rw [getD_unwrap_succ n hk, Numerics.toReal_add h]

/-- Consecutive unwrapped residuals differ by at most pi exactly when the raw ones differ by at most 3 pi (R153). -/
theorem abs_unwrapped_diff_le_iff {c : List Scalar} {k : Nat} (hk : k + 1 < c.length) :
    |((unwrap n c).getD (k + 1) .zero).toReal - ((unwrap n c).getD k .zero).toReal| ≤ Real.pi ↔
      |(c.getD (k + 1) .zero).toReal - (c.getD k .zero).toReal| ≤ 3 * Real.pi := by
  rw [← abs_add_turn_le_iff, toReal_getD_unwrap h hk, toReal_getD_unwrap h (Nat.lt_of_succ_lt hk),
    toReal_correction_succ h]
  ring_nf

end

end Machine

/-! ### The mean (41_sync.md R144) -/

theorem Config.l_ne_zero (c : Config) : (c.l : ℝ) ≠ 0 := by
  have := c.two_le_l
  exact_mod_cast (by omega : c.l ≠ 0)

namespace Machine

theorem toReal_meanOf {c : Config} (h : c.num.arith = .exact) {r : List Scalar} (hr : r.length = c.l) :
    (meanOf c r).toReal = (∑ k ∈ Finset.range c.l, (r.getD k .zero).toReal) / c.l := by
  have hl : (Scalar.rat c.l).toReal = c.l := by simp
  rw [meanOf, Numerics.toReal_div h (by rw [hl]; exact c.l_ne_zero), hl, Numerics.toReal_sum_eq_sum_range h, hr]

end Machine

/-- What is left of real numbers less their mean sums to 0. -/
theorem sum_sub_mean {m : Nat} (hm : (m : ℝ) ≠ 0) (f : Nat → ℝ) :
    ∑ k ∈ Finset.range m, (f k - (∑ j ∈ Finset.range m, f j) / m) = 0 := by
  rw [Finset.sum_sub_distrib, Finset.sum_const, Finset.card_range, nsmul_eq_mul, mul_div_cancel₀ _ hm, sub_self]

/-! ### The line fit (41_sync.md R145, R146) -/

/-- The abscissas lie evenly about 0. -/
theorem sum_abscissas (l : Nat) : ∑ k ∈ Finset.range l, ((k : ℝ) - ((l : ℝ) - 1) / 2) = 0 := by
  have hpartial (a : ℝ) (m : Nat) : ∑ k ∈ Finset.range m, ((k : ℝ) - a) = m * ((m : ℝ) - 1) / 2 - m * a := by
    induction m with
    | zero => simp
    | succ m ih => rw [Finset.sum_range_succ, ih]; push_cast; ring
  rw [hpartial]
  ring

theorem Config.toReal_frnorm_default {c : Config} (h : c.data.frnorm = .default) :
    c.frnorm.toReal = ∑ k ∈ Finset.range c.l, ((k : ℝ) - ((c.l : ℝ) - 1) / 2) ^ 2 := by
  rw [Config.frnorm, h, Scalar.toReal_rat, frnormDefault, Rat.cast_list_sum, List.map_map]
  refine congrArg List.sum (List.map_congr_left fun k _ => ?_)
  simp only [Function.comp_apply, abscissaOf]
  push_cast
  ring

section
variable {ι : Type} {s : Finset ι} {x z : ι → ℝ} {m : ℝ}

/-- The sum of squares about any line `a + b x`, when `x` and `z` have mean 0 and `m` solves the normal equation: it is that about the line
`m x` and two squares more. -/
theorem sum_sq_sub_line (hx : ∑ i ∈ s, x i = 0) (hz : ∑ i ∈ s, z i = 0)
    (hm : m * ∑ i ∈ s, x i ^ 2 = ∑ i ∈ s, z i * x i) (a b : ℝ) :
    ∑ i ∈ s, (z i - a - b * x i) ^ 2 =
      ∑ i ∈ s, (z i - x i * m) ^ 2 + s.card * a ^ 2 + (b - m) ^ 2 * ∑ i ∈ s, x i ^ 2 := by
  have hterm (i : ι) : (z i - a - b * x i) ^ 2 =
      (z i - x i * m) ^ 2 + a ^ 2 + (b - m) ^ 2 * x i ^ 2 - 2 * a * z i + 2 * a * b * x i
        - 2 * (b - m) * (z i * x i) + 2 * (b - m) * m * x i ^ 2 := by ring
  simp only [hterm, Finset.sum_add_distrib, Finset.sum_sub_distrib, ← Finset.mul_sum, hx, hz, ← hm, Finset.sum_const,
    nsmul_eq_mul]
  ring

/-- No line leaves less than the one of the normal equation. -/
theorem sum_sq_sub_fit_le (hx : ∑ i ∈ s, x i = 0) (hz : ∑ i ∈ s, z i = 0)
    (hm : m * ∑ i ∈ s, x i ^ 2 = ∑ i ∈ s, z i * x i) (a b : ℝ) :
    ∑ i ∈ s, (z i - x i * m) ^ 2 ≤ ∑ i ∈ s, (z i - a - b * x i) ^ 2 := by
  rw [sum_sq_sub_line hx hz hm, add_assoc]
  exact le_add_of_nonneg_right (by positivity)

/-- It leaves nothing exactly when the points lie on a line. -/
theorem sum_sq_sub_fit_eq_zero_iff (hx : ∑ i ∈ s, x i = 0) (hz : ∑ i ∈ s, z i = 0)
    (hm : m * ∑ i ∈ s, x i ^ 2 = ∑ i ∈ s, z i * x i) :
    ∑ i ∈ s, (z i - x i * m) ^ 2 = 0 ↔ ∃ a b : ℝ, ∀ i ∈ s, z i = a + b * x i := by
  have hnonneg : ∀ i ∈ s, 0 ≤ (z i - x i * m) ^ 2 := fun i _ => sq_nonneg _
  constructor
  · intro hzero
    refine ⟨0, m, fun i hi => ?_⟩
    have hdev := sq_eq_zero_iff.1 ((Finset.sum_eq_zero_iff_of_nonneg hnonneg).1 hzero i hi)
    linarith
  · rintro ⟨a, b, hline⟩
    have hnone : ∑ i ∈ s, (z i - a - b * x i) ^ 2 = 0 :=
      Finset.sum_eq_zero fun i hi => by rw [hline i hi]; ring
    exact le_antisymm (hnone ▸ sum_sq_sub_fit_le hx hz hm a b) (Finset.sum_nonneg hnonneg)

end

namespace Machine

/-- The abscissas are exact whatever the arithmetic is (log 2). -/
theorem toReal_abscissa (c : Config) (k : Nat) : (abscissa c k).toReal = (k : ℝ) - ((c.l : ℝ) - 1) / 2 := by
  simp [abscissa, abscissaOf]

section
variable {c : Config} (h : c.num.arith = .exact)
include h

theorem toReal_fitSlope (z : List Scalar) :
    (fitSlope c z).toReal = (∑ k ∈ Finset.range z.length,
      (z.getD k .zero).toReal * ((k : ℝ) - ((c.l : ℝ) - 1) / 2)) / c.frnorm.toReal := by
  rw [fitSlope, Numerics.toReal_div h c.frnorm_pos.ne', Numerics.toReal_sum_mapIdx h]
  simp only [Numerics.toReal_mul h, toReal_abscissa]

theorem toReal_fitError (fr : Scalar) (z : List Scalar) :
    (fitError c fr z).toReal = ∑ k ∈ Finset.range z.length,
      ((z.getD k .zero).toReal - ((k : ℝ) - ((c.l : ℝ) - 1) / 2) * fr.toReal) ^ 2 := by
  rw [fitError, Numerics.toReal_sum_mapIdx h]
  simp only [deviation, Numerics.toReal_mul h, Numerics.toReal_sub h, toReal_abscissa, sq]

/-- With the default FRNORM the slope solves the normal equation. -/
theorem fitSlope_normal_equation (hnorm : c.data.frnorm = .default) {z : List Scalar} (hz : z.length = c.l) :
    (fitSlope c z).toReal * ∑ k ∈ Finset.range c.l, ((k : ℝ) - ((c.l : ℝ) - 1) / 2) ^ 2 =
      ∑ k ∈ Finset.range c.l, (z.getD k .zero).toReal * ((k : ℝ) - ((c.l : ℝ) - 1) / 2) := by
  rw [← Config.toReal_frnorm_default hnorm, toReal_fitSlope h, hz, div_mul_cancel₀ _ c.frnorm_pos.ne']

end

/-! ### The peak and the interpolation of the minimum (41_sync.md R147, R149, R152) -/

/-- SY.PEAK in the comparisons of the record (R147). -/
theorem peakTest_eq_true (n : Numerics) (perr err : Scalar) :
    peakTest n perr err = true ↔ n.lt perr (.rat 4) = true ∧ n.gt err perr = true := by
  rw [peakTest, Bool.and_eq_true]

/-- The interpolation formula (R149), where its divisor is not 0 (log 5). -/
theorem toReal_interpolate {n : Numerics} (h : n.arith = .exact) {p2err perr err : Scalar}
    (hdiv : p2err.toReal - 2 * perr.toReal + err.toReal ≠ 0) :
    (interpolate n p2err perr err).toReal =
      (p2err.toReal - 4 * perr.toReal + 3 * err.toReal) / (p2err.toReal - 2 * perr.toReal + err.toReal) := by
  have hdivisor : (n.add (n.sub p2err (n.mul (.rat 2) perr)) err).toReal =
      p2err.toReal - 2 * perr.toReal + err.toReal := by
    simp [Numerics.toReal_add h, Numerics.toReal_sub h, Numerics.toReal_mul h]
  rw [interpolate, Numerics.toReal_div h (by rwa [hdivisor]), hdivisor]
  simp [Numerics.toReal_add h, Numerics.toReal_sub h, Numerics.toReal_mul h]

end Machine

/-- The mean of 1 and 3 with weights `p` and `q`, of which `q` is positive, lies in (1, 3] (R152). -/
theorem interpolation_range {p q : ℝ} (hp : 0 ≤ p) (hq : 0 < q) :
    1 < (p + 3 * q) / (p + q) ∧ (p + 3 * q) / (p + q) ≤ 3 ∧ ((p + 3 * q) / (p + q) = 3 ↔ p = 0) := by
  have hpos : 0 < p + q := by linarith
  refine ⟨(one_lt_div hpos).2 (by linarith), (div_le_iff₀ hpos).2 (by linarith), ?_⟩
  rw [div_eq_iff hpos.ne']
  exact ⟨fun heq => by linarith, fun heq => by rw [heq]; ring⟩

/-! ### The split into clock phase and filter variant (41_sync.md R150) -/

theorem roundReal_of_nonneg {x : ℝ} (hx : 0 ≤ x) : roundReal x = ⌊x + 1 / 2⌋ := by
  rw [roundReal, if_neg (not_lt.2 hx)]

theorem roundReal_intCast (m : ℤ) : roundReal m = m := by
  have hhalf : ⌊(1 / 2 : ℝ)⌋ = 0 := Int.floor_eq_iff.2 (by norm_num)
  have hup : ⌊(m : ℝ) + 1 / 2⌋ = m := by rw [Int.floor_intCast_add, hhalf, add_zero]
  have hdown : ⌊1 / 2 - (m : ℝ)⌋ = -m := by rw [Int.floor_sub_intCast, hhalf, zero_sub]
  rw [roundReal, hup, hdown, neg_neg, ite_self]

/-- Half of an `of` in (1, 3) rounds to 1, and at 3 the tie goes away from zero. -/
theorem roundReal_half_of_lt {f : ℝ} (hlo : 1 < f) (hhi : f < 3) : roundReal (f / 2) = 1 := by
  rw [roundReal_of_nonneg (by linarith), Int.floor_eq_iff]
  push_cast
  constructor <;> linarith

theorem roundReal_half_three : roundReal (3 / 2) = 2 := by
  rw [roundReal_of_nonneg (by norm_num), Int.floor_eq_iff]
  norm_num

namespace Machine

section
variable {c : Config} (h : c.num.arith = .exact)
include h

theorem splitRound_eq (f : Scalar) : splitRound c f = roundReal (f.toReal / 2) := by
  have htwo : (Scalar.rat 2).toReal = 2 := by simp
  rw [splitRound, Numerics.round_eq h, Numerics.toReal_div h (by rw [htwo]; exact two_ne_zero), htwo]

/-- The default CLKINIT, where its formula stays below OVS. -/
theorem toNat_clkInit_default (hsplit : c.data.split = .default) {f : Scalar} (hlo : 0 ≤ roundReal (f.toReal / 2))
    (hhi : roundReal (f.toReal / 2) < ovs) : ((clkInit c f).toNat : Int) = roundReal (f.toReal / 2) := by
  rw [← splitRound_eq h] at hlo hhi ⊢
  simp only [clkInit, hsplit, if_pos (And.intro hlo hhi), BitVec.toNat_ofInt]
  simp only [ovs] at hhi
  omega

/-- The default OFFSEL (00_scope.md R8). -/
theorem offSel_default (hsplit : c.data.split = .default) (f : Scalar) :
    (offSel c f : Int) = clampInt
      (roundReal ((f.toReal / 2 - (roundReal (f.toReal / 2) : ℝ)) * ((c.noff : ℝ) - 1)) + ((c.noff : Int) - 1) / 2) 0
      ((c.noff : Int) - 1) := by
  have hnoff := c.noff_pos
  have htwo : (Scalar.rat 2).toReal = 2 := by simp
  have hscale : ((c.noff - 1 : Nat) : ℝ) = (c.noff : ℝ) - 1 := Nat.cast_pred hnoff
  have hbias : (((c.noff - 1) / 2 : Nat) : Int) = ((c.noff : Int) - 1) / 2 := by omega
  have htop : ((c.noff - 1 : Nat) : Int) = (c.noff : Int) - 1 := by omega
  simp only [offSel, hsplit, splitRound_eq h, Numerics.round_eq h, Numerics.toReal_mul h, Numerics.toReal_sub h,
    Numerics.toReal_div h (b := .rat 2) (by rw [htwo]; exact two_ne_zero), Scalar.toReal_rat, Rat.cast_intCast,
    Rat.cast_natCast, Rat.cast_ofNat, hscale, hbias, htop]
  exact Int.toNat_of_nonneg (by simp only [clampInt]; omega)

end

/-- NOFF is odd (00_scope.md R8), so at `of` = 3 the scaled fraction is minus the bias. -/
theorem offSel_default_three {c : Config} (h : c.num.arith = .exact) (hsplit : c.data.split = .default) {f : Scalar}
    (hf : f.toReal = 3) : offSel c f = 0 := by
  have hodd := c.params.2.1
  obtain ⟨m, hm⟩ : ∃ m : ℕ, c.noff = 2 * m + 1 := ⟨c.noff / 2, by omega⟩
  have hscaled : (3 / 2 - ((2 : ℤ) : ℝ)) * (((2 * m + 1 : ℕ) : ℝ) - 1) = ((-m : ℤ) : ℝ) := by push_cast; ring
  have hoff := offSel_default h hsplit f
  rw [hf, roundReal_half_three, hm, hscaled, roundReal_intCast] at hoff
  simp only [clampInt] at hoff
  omega

/-! ### SYNC (41_sync.md R140) -/

/-- The unwrapped residuals of the current window (R141 to R143). -/
def windowResiduals (s : State) : List Scalar :=
  unwrap s.cfg.num (List.zipWith s.cfg.num.sub
    ((List.range s.cfg.l).map fun k => phAt s (s.wires.slot + 8 + k * 8)) s.cfg.data.sw)

/-- Residuals less their mean (R144). -/
def centred (c : Config) (r : List Scalar) : List Scalar := r.map fun v => c.num.sub v (meanOf c r)

/-- The state in which SYNC comes to SY.PEAK, but for its temporaries `w`: the line fit of the window is in `fr` and `err`. -/
def fitted (s : State) (w : Wires) : State :=
  let z := centred s.cfg (windowResiduals s)
  { s with fr := fitSlope s.cfg z, err := fitError s.cfg (fitSlope s.cfg z) z, wires := w }

/-- SYNC fits the window, and then acquires or ages the trackers as SY.PEAK finds. -/
theorem execSync_eq_fitted (s : State) : ∃ w : Wires, w.now = s.wires.now ∧ w.phase = s.wires.phase ∧
    execSync s =
      if peakTest s.cfg.num s.perr (fitted s w).err then execSyAcq (fitted s w) else execSyShift (fitted s w) := by
  obtain ⟨u, hrun, hpeak, hu, hnow, hphase⟩ : ∃ u : State,
      execSync s = (if u.wires.peak then execSyAcq u else execSyShift u) ∧
      u.wires.peak = peakTest s.cfg.num s.perr u.err ∧ fitted s u.wires = u ∧
      u.wires.now = s.wires.now ∧ u.wires.phase = s.wires.phase := ⟨_, rfl, rfl, rfl, rfl, rfl⟩
  exact ⟨u.wires, hnow, hphase, by rw [hu, hrun, hpeak]⟩

end Machine

/-! ### The statements -/

/-- Settles O14: an entry of `h` is the element of the phase history at its address (R63). -/
theorem sySampleTakesEvenlySpacedEntries : Obligations.SySampleTakesEvenlySpacedEntries := by
  unfold Obligations.SySampleTakesEvenlySpacedEntries
  refine fun s => ⟨_, rfl, ?_, fun k hk => ?_, rfl⟩
  · show ((List.range s.cfg.l).map _).length = _
    rw [List.length_map, List.length_range]
  · refine (getD_map_of_lt (by rwa [List.length_range]) _ 0 _).trans ?_
    rw [List.getD_eq_getElem _ _ (by rwa [List.length_range]), List.getElem_range]
    rfl

/-- Settles O16: the template has length L (00_scope.md R9), so every position of `h` has an entry of it. -/
theorem syResidSubtractsTheTemplate : Obligations.SyResidSubtractsTheTemplate := by
  unfold Obligations.SyResidSubtractsTheTemplate
  intro s hlen
  have hsw := s.cfg.sw_length
  have hc (k : Nat) (hk : k < s.cfg.l) : (List.zipWith s.cfg.num.sub s.wires.h s.cfg.data.sw).getD k .zero =
      s.cfg.num.sub (s.wires.h.getD k .zero) (s.cfg.data.sw.getD k .zero) :=
    getD_zipWith_of_lt (hk.trans_eq hlen.symm) (hk.trans_eq hsw.symm) _ _ _ _
  refine ⟨_, rfl, ?_, hc, fun hexact k hk => ?_, rfl⟩
  · show (List.zipWith _ _ _).length = _
    rw [List.length_zipWith, hlen, hsw, min_self]
  · exact (congrArg Scalar.toReal (hc k hk)).trans (Numerics.toReal_sub hexact _ _)

open Machine in
/-- Settles O17: the running correction is `correction`, with the three branches of `unwrapStep`; over the real numbers it is its
value, whose steps are those of `turn`. -/
theorem syUnwrapFollowsTheRunningCorrection : Obligations.SyUnwrapFollowsTheRunningCorrection := by
  unfold Obligations.SyUnwrapFollowsTheRunningCorrection
  refine ⟨⟨Scalar.toReal_pi, Scalar.toReal_negPi, Scalar.toReal_twoPi⟩, fun s => ?_⟩
  refine ⟨_, rfl, length_unwrap _ _, getD_unwrap_zero _ _,
    ⟨correction s.cfg.num .zero s.wires.c, rfl, fun k hk => ?_⟩,
    fun hexact => ⟨fun k => (correction s.cfg.num .zero s.wires.c k).toReal, rfl, fun k hk => ?_⟩, rfl⟩
  · refine ⟨_, rfl, fun habove => ?_, fun hnot hbelow => ?_, fun hnot hnot' => ?_, getD_unwrap_succ _ hk⟩
    · rw [correction_succ, unwrapStep, if_pos habove]
    · rw [correction_succ, unwrapStep, hnot, hbelow]; rfl
    · rw [correction_succ, unwrapStep, hnot, hnot']; rfl
  · have hstep := toReal_correction_succ hexact .zero s.wires.c k
    refine ⟨_, rfl, fun habove => hstep.trans ?_, fun hbelow => hstep.trans ?_, fun hlo hhi => hstep.trans ?_,
      toReal_getD_unwrap hexact hk⟩
    · rw [turn_of_above habove, sub_eq_add_neg]
    · rw [turn_of_below hbelow]
    · rw [turn_of_between hlo hhi, add_zero]

open Machine in
/-- Settles O18: an unwrapped difference is the raw one and the step of the correction (`abs_unwrapped_diff_le_iff`), and a raw
difference of phases less template entries stays below 3 pi. -/
theorem unwrapIsContinuousBelowThreePi : Obligations.UnwrapIsContinuousBelowThreePi := by
  unfold Obligations.UnwrapIsContinuousBelowThreePi
  refine fun g hexact => ⟨fun c k hk => abs_unwrapped_diff_le_iff hexact hk, fun h c hlen hrange htemplate hc k hk => ?_⟩
  have hsw := g.sw_length
  have hclen : c.length = g.l := by rw [hc, List.length_zipWith, hlen, hsw, min_self]
  have hresidual (i : Nat) (hi : i < g.l) :
      (c.getD i .zero).toReal = (h.getD i .zero).toReal - (g.data.sw.getD i .zero).toReal := by
    rw [hc, getD_zipWith_of_lt (hi.trans_eq hlen.symm) (hi.trans_eq hsw.symm) _ .zero .zero, Numerics.toReal_sub hexact]
  have hphase (i : Nat) (hi : i < g.l) :
      -Real.pi < (h.getD i .zero).toReal ∧ (h.getD i .zero).toReal ≤ Real.pi := by
    rw [List.getD_eq_getElem _ _ (hi.trans_eq hlen.symm)]
    exact hrange _ (List.getElem_mem _)
  obtain ⟨hlo, hhi⟩ := hphase k (Nat.lt_of_succ_lt hk)
  obtain ⟨hlo', hhi'⟩ := hphase (k + 1) hk
  obtain ⟨hdown, hup⟩ := abs_le.1 (htemplate k hk)
  refine (abs_unwrapped_diff_le_iff hexact (hk.trans_eq hclen.symm)).2 ?_
  rw [hresidual k (Nat.lt_of_succ_lt hk), hresidual (k + 1) hk, abs_le]
  constructor <;> linarith

open Machine in
/-- Settles O19: the exact mean is that of the real numbers (`toReal_meanOf`), and residuals less their mean sum to 0. -/
theorem syDcRemovesTheMean : Obligations.SyDcRemovesTheMean := by
  unfold Obligations.SyDcRemovesTheMean
  intro s hlen
  have hz (k : Nat) (hk : k < s.cfg.l) : (centred s.cfg s.wires.r).getD k .zero =
      s.cfg.num.sub (s.wires.r.getD k .zero) (meanOf s.cfg s.wires.r) :=
    getD_map_of_lt (hk.trans_eq hlen.symm) _ _ _
  have hreal (hexact : s.cfg.num.arith = .exact) (k : Nat) (hk : k < s.cfg.l) :
      ((centred s.cfg s.wires.r).getD k .zero).toReal = (s.wires.r.getD k .zero).toReal -
        (∑ j ∈ Finset.range s.cfg.l, (s.wires.r.getD j .zero).toReal) / s.cfg.l := by
    rw [hz k hk, Numerics.toReal_sub hexact, toReal_meanOf hexact hlen]
  refine ⟨_, rfl, (List.length_map _).trans hlen, hz, fun hexact => ⟨hreal hexact, ?_⟩, rfl⟩
  exact (Finset.sum_congr rfl fun k hk => hreal hexact k (Finset.mem_range.1 hk)).trans (sum_sub_mean s.cfg.l_ne_zero _)

open Machine in
/-- Settles O20: the slope and the error are those of the real numbers (`toReal_fitSlope`, `toReal_fitError`). -/
theorem syFitAndSyErrFormulas : Obligations.SyFitAndSyErrFormulas := by
  unfold Obligations.SyFitAndSyErrFormulas
  exact fun s => ⟨toReal_abscissa s.cfg, s.cfg.frnorm_pos, Config.toReal_frnorm_default,
    ⟨_, rfl, rfl, fun hexact => toReal_fitSlope hexact _⟩, ⟨_, rfl, rfl, fun hexact => toReal_fitError hexact _ _⟩⟩

open Machine in
/-- Settles O21: the slope of SY.FIT solves the normal equation, the abscissas have mean 0 too, and SY.ERR is the sum of squares about
the line through the means with that slope. -/
theorem lineFitIsLeastSquares : Obligations.LineFitIsLeastSquares := by
  unfold Obligations.LineFitIsLeastSquares
  intro s hexact hlen hmean hnorm
  have hnormal := fitSlope_normal_equation hexact hnorm hlen
  have hx := sum_abscissas s.cfg.l
  have herr : (fitError s.cfg (fitSlope s.cfg s.wires.z) s.wires.z).toReal = ∑ k ∈ Finset.range s.cfg.l,
      ((s.wires.z.getD k .zero).toReal -
        ((k : ℝ) - ((s.cfg.l : ℝ) - 1) / 2) * (fitSlope s.cfg s.wires.z).toReal) ^ 2 := by
    rw [toReal_fitError hexact, hlen]
  refine ⟨_, _, rfl, rfl, fun a b => ?_, ?_⟩
  · exact herr.trans_le (sum_sq_sub_fit_le hx hmean hnormal a b)
  · refine (Eq.congr_left herr).trans ((sum_sq_sub_fit_eq_zero_iff hx hmean hnormal).trans ?_)
    simp only [Finset.mem_range]

open Machine in
/-- Settles O22: SY.PEAK is the conjunction of the two comparisons of the record, which are those of the real numbers
(`peakTest_iff`). -/
theorem syPeakTestsForAMinimumJustPassed : Obligations.SyPeakTestsForAMinimumJustPassed := by
  unfold Obligations.SyPeakTestsForAMinimumJustPassed
  exact fun s => ⟨_, rfl, peakTest_eq_true _ _ _, fun hexact => peakTest_iff hexact _ _, rfl⟩

open Machine in
/-- Settles O23: SY.ACQ writes before and after its calls of SY.INTERP and SY.SPLIT; FEC_RESET is emitted first, the EVENT last. -/
theorem syAcqDeclaresAcquisition : Obligations.SyAcqDeclaresAcquisition := by
  unfold Obligations.SyAcqDeclaresAcquisition
  exact fun s => ⟨_, rfl, rfl, rfl, rfl, rfl, rfl, rfl, rfl, rfl, rfl, rfl, rfl, rfl, List.append_assoc _ _ _, rfl⟩

open Machine in
/-- Settles O24: the formula is `toReal_interpolate`; for a parabola `a (x - x0)^2 + m` the divisor is `2 a`. -/
theorem syInterpInterpolatesTheParabola : Obligations.SyInterpInterpolatesTheParabola := by
  unfold Obligations.SyInterpInterpolatesTheParabola
  intro s
  refine ⟨_, rfl, rfl, fun hexact => ⟨toReal_interpolate hexact, fun a x0 m ha h0 h1 h2 => ?_⟩⟩
  have hdivisor : s.p2err.toReal - 2 * s.perr.toReal + s.err.toReal = 2 * a := by rw [h0, h1, h2]; ring
  have hne : s.p2err.toReal - 2 * s.perr.toReal + s.err.toReal ≠ 0 := by
    rw [hdivisor]
    exact mul_ne_zero two_ne_zero ha
  refine (toReal_interpolate hexact hne).trans ((div_eq_iff hne).2 ?_)
  rw [h0, h1, h2]
  ring

open Machine in
/-- Settles O25: at a peak the error rises after the minimum, and by the invariant of the trackers it did not rise before it; `of` is the
mean of 1 and 3 weighted with the two differences (`interpolation_range`). -/
theorem interpolationLiesInOneToThree : Obligations.InterpolationLiesInOneToThree := by
  unfold Obligations.InterpolationLiesInOneToThree
  intro s t hexact htrackers hrun hpeak
  obtain rfl := Host.Outcome.next.inj hrun
  obtain ⟨hbelow, hrises⟩ := (peakTest_iff hexact s.perr s.err).1 hpeak
  have hfalls := htrackers hexact hbelow
  have hdivisor : s.p2err.toReal - 2 * s.perr.toReal + s.err.toReal =
      (s.p2err.toReal - s.perr.toReal) + (s.err.toReal - s.perr.toReal) := by ring
  have hpos : (s.p2err.toReal - s.perr.toReal) + (s.err.toReal - s.perr.toReal) > 0 := by linarith
  have hof : (interpolate s.cfg.num s.p2err s.perr s.err).toReal =
      ((s.p2err.toReal - s.perr.toReal) + 3 * (s.err.toReal - s.perr.toReal)) /
        ((s.p2err.toReal - s.perr.toReal) + (s.err.toReal - s.perr.toReal)) := by
    rw [toReal_interpolate hexact (by rw [hdivisor]; exact hpos.ne'), hdivisor]
    ring
  obtain ⟨hone, hthree, heq⟩ := interpolation_range (sub_nonneg.2 hfalls) (sub_pos.2 hrises)
  exact ⟨_, rfl, hfalls, hrises, hdivisor, hpos, hof, hof ▸ hone, hof ▸ hthree, by rw [hof, heq, sub_eq_zero]⟩

open Machine in
/-- Settles O26: the bounds are those of CLKINIT and OFFSEL under every rule; in (1, 3] the default formulas round `of / 2` to 1, and to 2
at 3 only. -/
theorem sySplitGivesClockAndVariant : Obligations.SySplitGivesClockAndVariant := by
  unfold Obligations.SySplitGivesClockAndVariant
  intro s
  refine ⟨_, rfl, clkInit_lt _ _, offSel_lt _ _, rfl, fun hsplit hexact hlo hhi => ?_⟩
  have hthree (heq : s.wires.fracOff.toReal = 3) : roundReal (s.wires.fracOff.toReal / 2) = 2 := by
    rw [heq, roundReal_half_three]
  have hclk : ((clkInit s.cfg s.wires.fracOff).toNat : Int) = roundReal (s.wires.fracOff.toReal / 2) := by
    have hround : roundReal (s.wires.fracOff.toReal / 2) = 1 ∨ roundReal (s.wires.fracOff.toReal / 2) = 2 :=
      hhi.lt_or_eq.imp (roundReal_half_of_lt hlo) hthree
    have hrange : 0 ≤ roundReal (s.wires.fracOff.toReal / 2) ∧ roundReal (s.wires.fracOff.toReal / 2) < 8 := by omega
    exact toNat_clkInit_default hexact hsplit hrange.1 hrange.2
  refine ⟨hclk, fun hlt => ?_, fun heq => ?_, offSel_default_three hexact hsplit, offSel_default hexact hsplit _⟩
  · rw [roundReal_half_of_lt hlo hlt] at hclk
    exact BitVec.eq_of_toNat_eq (by exact_mod_cast hclk)
  · rw [hthree heq] at hclk
    exact BitVec.eq_of_toNat_eq (by exact_mod_cast hclk)

/-- Settles O27: each tracker takes the value of the next, and `prevph` the phase on the wires. -/
theorem syShiftAgesTheTrackers : Obligations.SyShiftAgesTheTrackers := by
  unfold Obligations.SyShiftAgesTheTrackers
  exact fun s => ⟨_, rfl, rfl, rfl, rfl, rfl, rfl⟩

open Machine in
/-- Settles O28: SY.PEAK on the state with the fit (`execSync_eq_fitted`) either is true, and then SY.ACQ runs (O23), or it is false, and
then SY.SHIFT runs (O27). -/
theorem syncAcquiresOrShifts : Obligations.SyncAcquiresOrShifts := by
  unfold Obligations.SyncAcquiresOrShifts
  intro s
  obtain ⟨w, hnow, hphase, hrun⟩ := execSync_eq_fitted s
  have htest := peakTest_eq_true s.cfg.num s.perr (fitted s w).err
  have hreal (hexact : s.cfg.num.arith = .exact) := htest.symm.trans (peakTest_iff hexact s.perr (fitted s w).err)
  by_cases hpeak : peakTest s.cfg.num s.perr (fitted s w).err = true
  · rw [if_pos hpeak] at hrun
    exact ⟨_, hrun.trans rfl, ⟨_, _, rfl, rfl, rfl, rfl⟩, hreal,
      fun _ => ⟨hnow, rfl, rfl, rfl, rfl, rfl, rfl, rfl, rfl, rfl, rfl, rfl, rfl, List.append_assoc _ _ _⟩,
      fun hno => absurd (htest.1 hpeak) hno, rfl⟩
  · rw [if_neg hpeak] at hrun
    exact ⟨_, hrun.trans rfl, ⟨_, _, rfl, rfl, rfl, rfl⟩, hreal, fun hyes => absurd (htest.2 hyes) hpeak,
      fun _ => ⟨rfl, rfl, rfl, hphase, rfl⟩, rfl⟩

end Sys2Proof
end

/-! ## The proofs of 42_demod.md: symbol clock, demapper, descrambler

SUPPORT. First the phase difference, the quantiser and the descrambler, each through its own rules; then what handing one bit to the
state machine may write (`OnlyBitFields`) and when it completes (`RoomFor`), from which the three bits of a symbol follow; then the
statements. -/

section
namespace Sys2Proof

/-! ### The wrapped phase difference (00_scope.md R14, 42_demod.md R172) -/

theorem Numerics.wrap_of_above {n : Numerics} {a : Scalar} (h : n.gt a .pi = true) : n.wrap a = n.sub a .twoPi := by
  rw [Numerics.wrap, if_pos h]

theorem Numerics.wrap_of_not_above {n : Numerics} {a : Scalar} (h : n.gt a .pi = false) :
    n.wrap a = if n.gt a .negPi then a else n.add a .twoPi := by
  cases hlow : n.gt a .negPi <;> simp [Numerics.wrap, h, hlow]

/-- One turn brings a difference of two phases back into (-pi, pi]. -/
theorem Numerics.toReal_wrap_range {n : Numerics} (h : n.arith = .exact) {a : Scalar} (hlo : -(2 * Real.pi) < a.toReal)
    (hhi : a.toReal < 2 * Real.pi) : -Real.pi < (n.wrap a).toReal ∧ (n.wrap a).toReal ≤ Real.pi := by
  have hpi := Real.pi_pos
  rw [Numerics.toReal_wrap h]
  split_ifs
  · constructor <;> linarith
  · constructor <;> linarith
  · constructor <;> linarith

/-! ### Rounding at the ends of the table (30_encoding.md R100) -/

theorem le_roundReal {x : ℝ} {m : ℤ} (h : m + 1 / 2 ≤ x) : m ≤ roundReal x := by
  have hnear := (abs_le.1 (abs_sub_roundReal_le x)).2
  exact_mod_cast show (m : ℝ) ≤ roundReal x by linarith

theorem roundReal_le {x : ℝ} {m : ℤ} (h : x < m + 1 / 2) : roundReal x ≤ m := by
  have hnear := (abs_le.1 (abs_sub_roundReal_le x)).1
  exact Int.lt_add_one_iff.1 (by exact_mod_cast show (roundReal x : ℝ) < m + 1 by linarith)

namespace Machine

theorem phaseOk_iff_of_exact {n : Numerics} (h : n.arith = .exact) (v : Scalar) :
    phaseOk n v ↔ -Real.pi < v.toReal ∧ v.toReal ≤ Real.pi := by
  simp only [phaseOk, h]

/-! ### The quantiser (30_encoding.md R100, 42_demod.md R174) -/

/-- What DM.QUANT rounds: `128 D / pi + 128`. -/
def scaledPhase (n : Numerics) (d : Scalar) : Scalar := n.add (n.div (n.mul (.rat 128) d) .pi) (.rat 128)

/-- The index is the rounded number clamped to a byte, so no bit of it is lost. -/
theorem toNat_grayIndex (n : Numerics) (d : Scalar) :
    ((grayIndex n d).toNat : Int) = min (max (n.round (scaledPhase n d)) 0) 255 := by
  show ((BitVec.ofInt 8 (clampInt (n.round (scaledPhase n d)) 0 255)).toNat : Int) = _
  rw [BitVec.toNat_ofInt, clampInt]
  omega

section
variable {n : Numerics} (h : n.arith = .exact)
include h

theorem toReal_scaledPhase (d : Scalar) : (scaledPhase n d).toReal = 128 * d.toReal / Real.pi + 128 := by
  have hpi : Scalar.pi.toReal ≠ 0 := by rw [Scalar.toReal_pi]; exact Real.pi_ne_zero
  rw [scaledPhase, Numerics.toReal_add h, Numerics.toReal_div h hpi, Numerics.toReal_mul h, Scalar.toReal_pi,
    Scalar.toReal_rat, Rat.cast_ofNat]

theorem toNat_grayIndex_exact (d : Scalar) :
    ((grayIndex n d).toNat : Int) = min (max (roundReal (128 * d.toReal / Real.pi + 128)) 0) 255 := by
  rw [toNat_grayIndex, Numerics.round_eq h, toReal_scaledPhase h]

theorem grayIndex_of_zero {d : Scalar} (hd : d.toReal = 0) : grayIndex n d = 128 := by
  have hround : roundReal (128 * d.toReal / Real.pi + 128) = 128 := by
    rw [hd, mul_zero, zero_div, zero_add]
    exact_mod_cast roundReal_intCast 128
  have hidx := toNat_grayIndex_exact h d
  rw [hround] at hidx
  exact BitVec.eq_of_toNat_eq (by exact_mod_cast hidx)

/-- At 255 pi / 256 the number is 255.5. -/
theorem grayIndex_of_top {d : Scalar} (hd : 255 * Real.pi / 256 ≤ d.toReal) : grayIndex n d = 255 := by
  have hscaled : 255 / 2 ≤ 128 * d.toReal / Real.pi := by rw [le_div_iff₀ Real.pi_pos]; linarith
  have hround : 255 ≤ roundReal (128 * d.toReal / Real.pi + 128) := le_roundReal (by push_cast; linarith)
  have hidx := toNat_grayIndex_exact h d
  exact BitVec.eq_of_toNat_eq (by simp; omega)

/-- At -pi the number is 0. -/
theorem grayIndex_of_bottom {d : Scalar} (hd : d.toReal ≤ -Real.pi) : grayIndex n d = 0 := by
  have hscaled : 128 * d.toReal / Real.pi ≤ -128 := by rw [div_le_iff₀ Real.pi_pos]; linarith
  have hround : roundReal (128 * d.toReal / Real.pi + 128) ≤ 0 := roundReal_le (by push_cast; linarith)
  have hidx := toNat_grayIndex_exact h d
  exact BitVec.eq_of_toNat_eq (by simp; omega)

end

/-! ### The descrambler (30_encoding.md R103, 42_demod.md R177, R178) -/

theorem scrNext_getLsbD_zero (scr : BitVec 16) : (scrNext scr).getLsbD 0 = feedback scr :=
  BitVec.getLsbD_append.trans (by simp)

theorem scrNext_getLsbD_succ (scr : BitVec 16) {i : Nat} (hi : i < 15) : (scrNext scr).getLsbD (i + 1) = scr.getLsbD i :=
  BitVec.getLsbD_append.trans (by simp [hi])

/-- The feedback bit sees the low 15 bits of the word only. -/
theorem feedback_eq_extractLsb' (scr : BitVec 16) :
    feedback scr = ((scr.extractLsb' 0 15).getLsbD 0 ^^ (scr.extractLsb' 0 15).getLsbD 14) := by
  simp [feedback]

section
variable {scr scr' : BitVec 16}

theorem feedback_congr (h : scr'.extractLsb' 0 15 = scr.extractLsb' 0 15) : feedback scr' = feedback scr := by
  rw [feedback_eq_extractLsb', h, ← feedback_eq_extractLsb']

theorem scrNext_congr (h : scr'.extractLsb' 0 15 = scr.extractLsb' 0 15) : scrNext scr' = scrNext scr := by
  rw [scrNext, scrNext, h, feedback_congr h]

theorem feedback_of_low_zero (h : scr.extractLsb' 0 15 = 0) : feedback scr = false := by
  rw [feedback_eq_extractLsb', h]
  rfl

theorem scrNext_of_low_zero (h : scr.extractLsb' 0 15 = 0) : scrNext scr = 0 := by
  rw [scrNext, h, feedback_of_low_zero h]
  rfl

end

theorem descramble_cons (n : Numerics) (scr : BitVec 16) (v : Scalar) (vs : List Scalar) :
    descramble n scr (v :: vs) = (if feedback scr then n.sub .one v else v) :: descramble n (scrNext scr) vs := rfl

/-- The word does not depend on the bits, so the second pass inverts the bits that the first one inverted. -/
theorem descramble_descramble {n : Numerics} (h : n.arith = .exact) (scr : BitVec 16) (vs : List Scalar) :
    (descramble n scr (descramble n scr vs)).map Scalar.toReal = vs.map Scalar.toReal := by
  induction vs generalizing scr with
  | nil => rfl
  | cons v vs ih =>
    have hbit : (if feedback scr then n.sub .one (if feedback scr then n.sub .one v else v)
        else if feedback scr then n.sub .one v else v).toReal = v.toReal := by
      cases feedback scr with
      | false => rfl
      | true => simp [Numerics.toReal_sub h]
    simp only [descramble_cons, List.map_cons, ih, hbit]

theorem descramble_congr (n : Numerics) {scr scr' : BitVec 16} (h : scr'.extractLsb' 0 15 = scr.extractLsb' 0 15)
    (vs : List Scalar) : descramble n scr' vs = descramble n scr vs := by
  cases vs with
  | nil => rfl
  | cons v vs => rw [descramble_cons, descramble_cons, feedback_congr h, scrNext_congr h]

/-- A word whose low 15 bits are 0 gives no feedback and stays so. -/
theorem descramble_of_low_zero (n : Numerics) {scr : BitVec 16} (h : scr.extractLsb' 0 15 = 0) (vs : List Scalar) :
    descramble n scr vs = vs := by
  induction vs generalizing scr with
  | nil => rfl
  | cons v vs ih =>
    have htail := ih (scr := scrNext scr) (by rw [scrNext_of_low_zero h]; rfl)
    rw [descramble_cons, feedback_of_low_zero h, htail]
    rfl

/-- An inverted soft bit is a soft bit. -/
theorem SoftBit.one_sub {n : Numerics} (h : n.arith = .exact) {v : Scalar} (hv : SoftBit v) : SoftBit (n.sub .one v) := by
  rw [SoftBit, Numerics.toReal_sub h]
  simp [hv.1, hv.2]

/-! ### Answers that complete -/

/-- The answer is a next state, and the state has the property. -/
def Res.Completes (r : Res) (P : State → Prop) : Prop := ∃ t, r = .next t ∧ P t

theorem Res.completes_next {s : State} {P : State → Prop} (h : P s) : Res.Completes (.next s) P := ⟨s, rfl, h⟩

theorem Res.Completes.andThen {r : Res} {f : State → Res} {P Q : State → Prop} (hr : r.Completes P)
    (hf : ∀ s, P s → (f s).Completes Q) : (r.andThen f).Completes Q := by
  obtain ⟨s, rfl, hs⟩ := hr
  exact hf s hs

theorem Res.Completes.mono {r : Res} {P Q : State → Prop} (hr : r.Completes P) (h : ∀ s, P s → Q s) : r.Completes Q := by
  obtain ⟨s, hrun, hs⟩ := hr
  exact ⟨s, hrun, h s hs⟩

theorem Res.andThen_assoc (r : Res) (f g : State → Res) :
    (r.andThen f).andThen g = r.andThen fun s => (f s).andThen g := by
  cases r <;> rfl

/-! ### One bit handed to the state machine (42_demod.md R179, R180) -/

/-- The fields that PUTBIT may write, but for the descrambler word: those of the mode, of the header and of the block, and the
temporaries of the operations on a bit. -/
def OnlyBitFields (s t : State) : Prop :=
  t = { s with
    pr := t.pr
    state := t.state
    off := t.off
    nbits := t.nbits
    bits := t.bits
    row := t.row
    col := t.col
    nbrow := t.nbrow
    nbbyte := t.nbbyte
    blkd := t.blkd
    blkp := t.blkp
    fecWin := t.fecWin
    fecNext := t.fecNext
    out := t.out
    wires := { s.wires with
      sv := t.wires.sv
      v := t.wires.v
      vp := t.wires.vp
      decodedBits := t.wires.decodedBits
      len := t.wires.len
      nr := t.wires.nr
      nb := t.wires.nb
      ok := t.wires.ok
      done := t.wires.done } }

theorem OnlyBitFields.trans {s t u : State} (hst : OnlyBitFields s t) (htu : OnlyBitFields t u) : OnlyBitFields s u := by
  unfold OnlyBitFields at *
  rw [htu, hst]

/-- In DATA there is room for `k` more bits: the next cell is inside the matrices, or the bits do not finish the byte. -/
def RoomFor (k : Nat) (s : State) : Prop :=
  s.state = .data → (s.row.toNat < maxRow ∧ s.col.toNat < nCol) ∨ s.nbits.toNat + k < 8

theorem RoomFor.of_mode {k : Nat} {s : State} (h : s.state ≠ .data) : RoomFor k s := fun hdata => absurd hdata h

/-- Up to seven bits do not finish a byte that has none yet. -/
theorem RoomFor.of_empty_byte {k : Nat} {s : State} (hk : k < 8) (h : s.nbits = 0) : RoomFor k s :=
  fun _ => .inr (by rw [h]; simpa using hk)

/-- A bit has been handed on from `s`: `t` differs in the fields of a bit only, and has room for `k` more. -/
structure BitTaken (k : Nat) (s t : State) : Prop where
  only : OnlyBitFields s t
  room : RoomFor k t

theorem BitTaken.after {k : Nat} {s t u : State} (h : OnlyBitFields s t) (htu : BitTaken k t u) : BitTaken k s u :=
  ⟨h.trans htu.only, htu.room⟩

/-- What DATABIT runs on the eighth bit of a byte (44_block.md R210). -/
def finishByte (s : State) : Res :=
  (((execBstore s).andThen execBadv).andThen execBdone).andThen fun t => if t.wires.done then execDispatch t else .next t

theorem execDatabit_eq (s : State) :
    execDatabit s = if (takeBit s).nbits.toNat = 8 then finishByte (takeBit s) else .next (takeBit s) := rfl

section
variable {k : Nat} (hk : k < 8)
include hk

/-- A byte whose cell is inside the matrices is stored, and leaves an empty one (44_block.md R211 to R214). -/
theorem finishByte_completes {s : State} (hcell : s.row.toNat < maxRow ∧ s.col.toNat < nCol) :
    (finishByte s).Completes (BitTaken k s) := by
  rw [finishByte, execBstore_eq_next.2 ⟨hcell, rfl⟩, Res.andThen_next, execBadv, Res.andThen_next, execBdone,
    Res.andThen_next]
  split
  · exact Res.completes_next ⟨rfl, RoomFor.of_empty_byte hk rfl⟩
  · exact Res.completes_next ⟨rfl, RoomFor.of_empty_byte hk rfl⟩

theorem execDatabit_completes {s : State} (hstate : s.state = .data) (hroom : RoomFor (k + 1) s) :
    (execDatabit s).Completes (BitTaken k s) := by
  have htake : OnlyBitFields s (takeBit s) := by rw [takeBit_eq]; rfl
  obtain ⟨hnbits, hrow, hcol⟩ :
      (takeBit s).nbits = s.nbits + 1 ∧ (takeBit s).row = s.row ∧ (takeBit s).col = s.col := by
    rw [takeBit_eq]; exact ⟨rfl, rfl, rfl⟩
  rw [execDatabit_eq]
  split
  · next hlast =>
    have hcell : s.row.toNat < maxRow ∧ s.col.toNat < nCol :=
      (hroom hstate).resolve_right fun hfew => by rw [hnbits] at hlast; bv_omega
    exact (finishByte_completes hk (by rwa [hrow, hcol])).mono fun t => BitTaken.after htake
  · refine Res.completes_next ⟨htake, fun _ => ?_⟩
    rw [hrow, hcol, hnbits]
    exact (hroom hstate).imp_right fun hfew => by bv_omega

end

/-- While HDRFIN judges the header that it found in `s`, the core is not in DATA. -/
structure HeaderOpen (s t : State) : Prop where
  only : OnlyBitFields s t
  mode : t.state ≠ .data

theorem HeaderOpen.next {s t u : State} (h : HeaderOpen s t) (hu : OnlyBitFields t u) (hstate : u.state = t.state) :
    HeaderOpen s u :=
  ⟨h.only.trans hu, hstate ▸ h.mode⟩

/-- A check that fails leads to IDLE, one that passes keeps the mode. -/
theorem HeaderOpen.check {s t : State} (h : HeaderOpen s t) (fails : Bool) (e : Event) : HeaderOpen s (check fails e t) := by
  rcases check_cases fails e t with ⟨-, heq⟩ | ⟨-, heq⟩
  · rw [heq]; exact ⟨h.only.trans rfl, nofun⟩
  · rw [heq]; exact h.next rfl rfl

/-- After a check HDRFIN ends or goes on (R191). -/
theorem HeaderOpen.unless {k : Nat} {s t : State} (h : HeaderOpen s t) (failed : Bool) {r : Res}
    (hr : r.Completes (BitTaken k s)) : (if failed then .next t else r : Res).Completes (BitTaken k s) := by
  cases failed with
  | true => exact Res.completes_next ⟨h.only, .of_mode h.mode⟩
  | false => exact hr

section
variable {s t : State} (h : HeaderOpen s t)
include h

theorem execHdConf_completes : (execHdConf t).Completes (HeaderOpen s) := Res.completes_next (h.check _ _)

theorem execHdLen_completes : (execHdLen t).Completes (HeaderOpen s) := Res.completes_next (h.next rfl rfl)

theorem execHdShort_completes : (execHdShort t).Completes (HeaderOpen s) := Res.completes_next (h.check _ _)

theorem execHdGeom_completes : (execHdGeom t).Completes (HeaderOpen s) := Res.completes_next (h.next rfl rfl)

theorem execHdLong_completes : (execHdLong t).Completes (HeaderOpen s) := Res.completes_next (h.check _ _)

end

section
variable {k : Nat} (hk : k < 8)
include hk

/-- HDRFIN fails into IDLE, or accepts the header at the start of a byte (43_header.md R191, R197). -/
theorem execHdrfin_completes {s : State} (h : s.state ≠ .data) : (execHdrfin s).Completes (BitTaken k s) := by
  have hfin : HeaderOpen s (fecFinalize s) := ⟨rfl, h⟩
  refine (execHdConf_completes hfin).andThen fun t ht => ht.unless _ ?_
  refine ((execHdLen_completes ht).andThen fun u => execHdShort_completes).andThen fun u hu => hu.unless _ ?_
  refine ((execHdGeom_completes hu).andThen fun w => execHdLong_completes).andThen fun w hw => hw.unless _ ?_
  exact Res.completes_next ⟨hw.only.trans rfl, .of_empty_byte hk rfl⟩

theorem execHdrbit_completes {s : State} (hstate : s.state = .header) : (execHdrbit s).Completes (BitTaken k s) := by
  obtain ⟨u, hrun, honly, hmodeU⟩ : ∃ u : State,
      execHdrbit s = (if u.nbits.toNat = hdrBits then execHdrfin u else .next u) ∧ OnlyBitFields s u ∧ u.state = s.state :=
    ⟨_, rfl, rfl, rfl⟩
  have hmode : u.state ≠ .data := by simp [hmodeU, hstate]
  rw [hrun]
  split
  · exact (execHdrfin_completes hk hmode).mono fun t => BitTaken.after honly
  · exact Res.completes_next ⟨honly, .of_mode hmode⟩

end

section
variable {s u : State} (hdescr : execDescr s = .next u)
include hdescr

theorem execPutbit_of_idle (h : u.state = .idle) : execPutbit s = .next u := by
  simp only [execPutbit, hdescr, Res.andThen_next, h, execBitdrop]

theorem execPutbit_of_header (h : u.state = .header) : execPutbit s = execHdrbit u := by
  simp only [execPutbit, hdescr, Res.andThen_next, h]

theorem execPutbit_of_data (h : u.state = .data) : execPutbit s = execDatabit u := by
  simp only [execPutbit, hdescr, Res.andThen_next, h]

end

/-- PUTBIT completes where there is room for the bit, and steps the descrambler once. -/
theorem execPutbit_withRawBit_completes {k : Nat} (hk : k < 8) {s : State} (hroom : RoomFor (k + 1) s) (v : Scalar) :
    (execPutbit (withRawBit v s)).Completes (BitTaken k { s with scr := scrNext s.scr }) := by
  obtain ⟨u, hdescr, honly, hroomU⟩ : ∃ u, execDescr (withRawBit v s) = .next u ∧
      OnlyBitFields { s with scr := scrNext s.scr } u ∧ RoomFor (k + 1) u := ⟨_, rfl, rfl, hroom⟩
  cases hmode : u.state with
  | idle =>
    rw [execPutbit_of_idle hdescr hmode]
    exact Res.completes_next ⟨honly, .of_mode (by simp [hmode])⟩
  | header =>
    rw [execPutbit_of_header hdescr hmode]
    exact (execHdrbit_completes hk hmode).mono fun t => BitTaken.after honly
  | data =>
    rw [execPutbit_of_data hdescr hmode]
    exact (execDatabit_completes hk hmode hroomU).mono fun t => BitTaken.after honly

/-! ### The bits of a symbol (42_demod.md R171) -/

theorem OnlyBitFields.scr_eq {s t : State} (h : OnlyBitFields s t) : t.scr = s.scr := by rw [h]

/-- Bits in a row: the last descrambler word stays. -/
theorem OnlyBitFields.trans_scr {s t u : State} {scr scr' : BitVec 16} (h : OnlyBitFields { s with scr := scr } t)
    (h' : OnlyBitFields { t with scr := scr' } u) : OnlyBitFields { s with scr := scr' } u := by
  unfold OnlyBitFields at *
  rw [h', h]

/-- Up to eight bits finish one byte at most, so they complete where the next cell is inside the matrices. -/
theorem runBits_completes {vs : List Scalar} (hlen : vs.length ≤ 8) {s : State} (hroom : RoomFor vs.length s) :
    (runBits vs s).Completes (OnlyBitFields { s with scr := scrNext^[vs.length] s.scr }) := by
  induction vs generalizing s with
  | nil => exact Res.completes_next rfl
  | cons v vs ih =>
    refine (execPutbit_withRawBit_completes hlen hroom v).andThen fun t ht => ?_
    refine (ih (Nat.le_of_lt hlen) ht.room).mono fun u hu => ?_
    rw [ht.only.scr_eq] at hu
    exact ht.only.trans_scr hu

theorem putSymbol_eq_runBits (s : State) : putSymbol s = runBits [s.wires.s0, s.wires.s1, s.wires.s2] s := by
  simp only [putSymbol, runBits, exec, Res.andThen_assoc, Res.andThen_next_self]

theorem putSymbol_completes {s : State} (hroom : RoomFor 3 s) :
    (putSymbol s).Completes (OnlyBitFields { s with scr := scrNext (scrNext (scrNext s.scr)) }) := by
  rw [putSymbol_eq_runBits]
  exact runBits_completes (by simp) hroom

/-- The state in which DEMOD delivers its bits: the phase difference, its index and the three soft bits stand on the wires. -/
def demapped (s : State) : State :=
  let d0 := s.cfg.num.wrap (s.cfg.num.sub s.wires.phase s.prevph)
  let d := s.cfg.num.sub d0 s.df
  let idx := grayIndex s.cfg.num d
  { s with wires := { s.wires with
      d0 := d0, d := d, idx := idx
      s0 := s.cfg.gray 0 idx.toNat, s1 := s.cfg.gray 1 idx.toNat, s2 := s.cfg.gray 2 idx.toNat } }

theorem execDemod_eq (s : State) : execDemod s = (putSymbol (demapped s)).andThen execDmUpd := rfl

theorem execSclk_of_last {s : State} (h : s.clk.toNat = 7) : execSclk s = execDemod { s with clk := 0 } := by
  have hcount : (s.clk + 1).toNat = ovs := by
    show (s.clk + 1).toNat = 8
    bv_omega
  rw [execSclk, if_pos hcount]

end Machine

/-! ### The statements -/

open Machine in
/-- Settles O30: the cases of `wrap` in the record and over the real numbers (O13), and the range of a wrapped difference of two
phases (`Numerics.toReal_wrap_range`). -/
theorem dmDiffWrapsThePhaseDifference : Obligations.DmDiffWrapsThePhaseDifference := by
  unfold Obligations.DmDiffWrapsThePhaseDifference
  intro s
  refine ⟨_, _, rfl, rfl, rfl, fun habove => Numerics.wrap_of_above habove, fun hnot hbelow => ?_,
    fun hnot hbetween => ?_, fun hexact => ?_⟩
  · exact (Numerics.wrap_of_not_above hnot).trans (by rw [hbelow]; rfl)
  · exact (Numerics.wrap_of_not_above hnot).trans (by rw [hbetween]; rfl)
  · have hdiff := Numerics.toReal_sub hexact s.wires.phase s.prevph
    obtain ⟨-, -, -, -, -, -, -, habove, hbelow, hbetween⟩ :=
      exactArithmeticIsThatOfTheReals s.cfg.num hexact (s.cfg.num.sub s.wires.phase s.prevph) .zero
    rw [hdiff] at habove hbelow hbetween
    refine ⟨fun hphase hprev => ?_, habove, hbelow, hbetween⟩
    obtain ⟨hlo, hhi⟩ := (phaseOk_iff_of_exact hexact _).1 hphase
    obtain ⟨hlo', hhi'⟩ := (phaseOk_iff_of_exact hexact _).1 hprev
    exact Numerics.toReal_wrap_range hexact (by rw [hdiff]; linarith) (by rw [hdiff]; linarith)

/-- Settles O31: DM.CORR is one subtraction of the record, DM.UPD one write. -/
theorem dmCorrSubtractsAndDmUpdRetains : Obligations.DmCorrSubtractsAndDmUpdRetains := by
  unfold Obligations.DmCorrSubtractsAndDmUpdRetains
  exact fun s => ⟨⟨_, rfl, rfl, fun hexact => Numerics.toReal_sub hexact _ _, rfl⟩, ⟨_, rfl, rfl, rfl⟩⟩

open Machine in
/-- Settles O32: the index in the record and over the real numbers (`toNat_grayIndex`), its three boundaries, and `roundReal` as a
nearest integer with ties away from zero. -/
theorem dmQuantRoundsAndClamps : Obligations.DmQuantRoundsAndClamps := by
  unfold Obligations.DmQuantRoundsAndClamps
  refine ⟨fun s => ⟨_, _, rfl, rfl, rfl, toNat_grayIndex _ _, fun hexact => ?_⟩,
    fun a => ⟨abs_sub_roundReal_le a, abs_lt_abs_roundReal_of_tie⟩⟩
  exact ⟨toReal_scaledPhase hexact _, toNat_grayIndex_exact hexact _, grayIndex_of_zero hexact, grayIndex_of_top hexact,
    grayIndex_of_bottom hexact⟩

/-- Settles O33: every entry of GRAY is a soft bit (00_scope.md R9). -/
theorem dmGrayLooksUpThreeSoftBits : Obligations.DmGrayLooksUpThreeSoftBits := by
  unfold Obligations.DmGrayLooksUpThreeSoftBits
  exact fun s => ⟨_, rfl, rfl, rfl, rfl, s.cfg.gray_range 0 _, s.cfg.gray_range 1 _, s.cfg.gray_range 2 _, rfl⟩

open Machine in
/-- Settles O34: the three bits complete and write only the fields of a bit (`putSymbol_completes`); DM.UPD then retains the phase,
which is not among them. -/
theorem demodDeliversThreeBitsAndRetainsThePhase : Obligations.DemodDeliversThreeBitsAndRetainsThePhase := by
  unfold Obligations.DemodDeliversThreeBitsAndRetainsThePhase
  intro s hcell
  have hroom : RoomFor 3 (demapped s) := fun hstate => .inl (hcell hstate)
  obtain ⟨u, hput, honly⟩ := putSymbol_completes hroom
  have hrun := (putSymbol_eq_runBits (demapped s)).symm.trans hput
  have hphase : u.wires.phase = s.wires.phase := by rw [honly]; rfl
  have hdemod : execDemod s = .next { u with prevph := s.wires.phase } := by
    rw [execDemod_eq, hput, Res.andThen_next, execDmUpd, hphase]
  refine ⟨_, u, _, _, hdemod, rfl, rfl, hrun, rfl, honly.scr_eq, ?_⟩
  rw [honly]
  exact ⟨rfl, rfl, rfl, rfl, rfl, rfl, rfl, rfl, rfl, rfl, rfl, rfl, rfl⟩

open Machine in
/-- Settles O29: below its last count the symbol clock does not overflow; at the last, `clk + 1` is OVS. -/
theorem sclkCountsOrDemodulates : Obligations.SclkCountsOrDemodulates := by
  unfold Obligations.SclkCountsOrDemodulates
  exact fun s => ⟨fun hclk => ⟨_, execSclk_of_lt hclk, toNat_clk_add_one hclk, rfl⟩, execSclk_of_last⟩

open Machine in
/-- Settles O35: the bits of the next word by `scrNext_getLsbD_zero` and `scrNext_getLsbD_succ`, and the two values of the feedback
bit. -/
theorem descrShiftsAndConditionallyInverts : Obligations.DescrShiftsAndConditionallyInverts := by
  unfold Obligations.DescrShiftsAndConditionallyInverts
  intro s
  have hinverted (h : feedback s.scr = true) :
      (if feedback s.scr then s.cfg.num.sub .one s.wires.sv else s.wires.sv) = s.cfg.num.sub .one s.wires.sv := if_pos h
  have hpassed (h : feedback s.scr = false) :
      (if feedback s.scr then s.cfg.num.sub .one s.wires.sv else s.wires.sv) = s.wires.sv := by rw [h]; rfl
  refine ⟨_, rfl, scrNext_getLsbD_zero _, fun i => scrNext_getLsbD_succ _, hinverted, hpassed,
    fun hexact => ⟨fun h => ?_, fun hlo hhi => ?_⟩, rfl⟩
  · exact (congrArg Scalar.toReal (hinverted h)).trans ((Numerics.toReal_sub hexact _ _).trans (by simp))
  · show SoftBit (if feedback s.scr then s.cfg.num.sub .one s.wires.sv else s.wires.sv)
    split
    · exact SoftBit.one_sub hexact ⟨hlo, hhi⟩
    · exact ⟨hlo, hhi⟩

open Machine in
/-- Settles O36: `descramble_descramble` and `descramble_of_low_zero`, by induction on the bits, and `descramble_congr`. -/
theorem descramblerIsSelfInverse : Obligations.DescramblerIsSelfInverse := by
  unfold Obligations.DescramblerIsSelfInverse
  exact fun n scr vs => ⟨fun hexact => descramble_descramble hexact scr vs, fun scr' hlow => descramble_congr n hlow vs,
    fun hzero => descramble_of_low_zero n hzero vs⟩

open Machine in
/-- Settles O38: DESCR does not write `state`, which then selects the operation. -/
theorem putbitDeliversByState : Obligations.PutbitDeliversByState := by
  unfold Obligations.PutbitDeliversByState
  exact fun s => ⟨rfl, _, rfl, rfl, fun hstate => execPutbit_of_idle rfl hstate,
    fun hstate => execPutbit_of_header rfl hstate, fun hstate => execPutbit_of_data rfl hstate⟩

end Sys2Proof
end

/-! ## The proofs of 43_header.md: bit feed, validation, geometry

SUPPORT. First the length field and the geometry as natural numbers; then what a check leaves and how HDRFIN goes on after it
(`check_andThen`), which gives the four outcomes of HDRFIN in one equation (`execHdrfin_eq`); then the bits pushed one after
another; then the statements. -/

section
namespace Sys2Proof.Machine

/-! ### The length field and the geometry (30_encoding.md R99, 43_header.md R193 to R196) -/

theorem lengthField_getLsbD (bits : BitVec 32) {i : Nat} (hi : i ≤ 16) :
    (lengthField bits).getLsbD i = bits.getLsbD (21 - i) := by
  have hbit : 5 + (17 - 1 - i) = 21 - i := by omega
  have hin : i < 17 ∧ 17 - 1 - i < 17 := by omega
  rw [lengthField, rev17, BitVec.getLsbD_reverse, BitVec.getMsbD_eq_getLsbD, BitVec.getLsbD_setWidth, BitVec.getLsbD_ushiftRight,
    hbit, decide_eq_true hin.1, decide_eq_true hin.2, Bool.true_and, Bool.true_and]

theorem toNat_geomRows (len : BitVec 17) : (geomRows len).toNat = len.toNat / 1992 + 1 := by
  have hlen := len.isLt
  simp only [geomRows, rowBits, BitVec.toNat_ofNat]
  omega

theorem toNat_geomBytes (len : BitVec 17) : (geomBytes len).toNat = (len.toNat % 1992 + 7) / 8 := by
  simp only [geomBytes, rowBits, BitVec.toNat_ofNat]
  omega

theorem lenTooShort_iff (len : BitVec 17) : lenTooShort len = true ↔ len.toNat < 104 := decide_eq_true_iff

theorem lenTooShort_eq_false_iff (len : BitVec 17) : lenTooShort len = false ↔ 104 ≤ len.toNat := by
  rw [← Bool.not_eq_true, lenTooShort_iff, not_lt]

theorem rowsTooMany_iff (nr : BitVec 7) : rowsTooMany nr = true ↔ 65 < nr.toNat := decide_eq_true_iff

theorem rowsTooMany_eq_false_iff (nr : BitVec 7) : rowsTooMany nr = false ↔ nr.toNat ≤ 65 := by
  rw [← Bool.not_eq_true, rowsTooMany_iff, not_lt]

theorem geomRows_le (len : BitVec 17) : (geomRows len).toNat ≤ 66 := by
  have hlen := len.isLt
  rw [toNat_geomRows]
  omega

theorem geomRows_gt_iff (len : BitVec 17) : (geomRows len).toNat > 65 ↔ 129480 ≤ len.toNat := by
  rw [toNat_geomRows]
  omega

theorem rowsTooMany_geomRows_iff (len : BitVec 17) : rowsTooMany (geomRows len) = true ↔ 129480 ≤ len.toNat :=
  (rowsTooMany_iff _).trans (geomRows_gt_iff len)

/-- A length that HD.LONG refuses has 66 rows: no length has more (43_header.md R196). -/
theorem geomRows_of_too_long {len : BitVec 17} (h : 129480 ≤ len.toNat) : geomRows len = 66 :=
  BitVec.eq_of_toNat_eq (le_antisymm (geomRows_le len) ((geomRows_gt_iff len).2 h))

/-! ### The checks and HDRFIN (43_header.md R191 to R197) -/

theorem check_of_fails {fails : Bool} (h : fails = true) (e : Event) (s : State) :
    check fails e s = setOk false (raiseFailure e s) := if_pos h

theorem check_of_passes {fails : Bool} (h : fails = false) (e : Event) (s : State) : check fails e s = setOk true s := by
  rw [check, h]
  rfl

/-- HDRFIN ends after a check that fails, and goes on after one that passes. -/
theorem check_andThen (fails : Bool) (e : Event) (s : State) (f : State → Res) :
    (Res.andThen (.next (check fails e s)) fun t => if !t.wires.ok then .next t else f t) =
      if fails then .next (setOk false (raiseFailure e s)) else f (setOk true s) := by
  cases fails <;> rfl

/-- The state after HD.LEN (43_header.md R193). -/
def withLength (s : State) : State := { s with wires := { s.wires with len := lengthField s.wires.decodedBits } }

/-- The state after HD.GEOM (43_header.md R195). -/
def withGeometry (s : State) : State :=
  { s with wires := { s.wires with nr := geomRows s.wires.len, nb := geomBytes s.wires.len } }

/-- The state after HD.ACCEPT (43_header.md R197). -/
def accepted (s : State) : State :=
  emit (.event (.hdrOk s.wires.len s.wires.nr s.wires.nb))
    { s with
      nbrow := s.wires.nr, nbbyte := s.wires.nb, state := .data, row := 0, col := 0, nbits := 0, bits := 0, pr := .one }

theorem execHdAccept_eq (s : State) : execHdAccept s = .next (accepted s) := rfl

/-- What HDRFIN runs once HD.SHORT has passed. -/
def judgeRows (s : State) : Res :=
  ((execHdGeom s).andThen execHdLong).andThen fun t => if !t.wires.ok then .next t else execHdAccept t

/-- What HDRFIN runs once HD.CONF has passed. -/
def judgeLength (s : State) : Res :=
  ((execHdLen s).andThen execHdShort).andThen fun t => if !t.wires.ok then .next t else judgeRows t

theorem judgeRows_eq (s : State) : judgeRows s =
    if rowsTooMany (geomRows s.wires.len) then
      .next (setOk false (raiseFailure (.failLong s.wires.len (geomRows s.wires.len)) (withGeometry s)))
    else .next (accepted (setOk true (withGeometry s))) :=
  check_andThen _ _ (withGeometry s) execHdAccept

theorem judgeLength_eq (s : State) : judgeLength s =
    if lenTooShort (lengthField s.wires.decodedBits) then
      .next (setOk false (raiseFailure (.failShort (lengthField s.wires.decodedBits)) (withLength s)))
    else judgeRows (setOk true (withLength s)) :=
  check_andThen _ _ (withLength s) judgeRows

theorem execHdrfin_eq_judge (s : State) : execHdrfin s =
    if confTooLow s.cfg.num (fecAnswer s).1 then
      .next (setOk false (raiseFailure (.failConf (fecAnswer s).1) (fecFinalize s)))
    else judgeLength (setOk true (fecFinalize s)) :=
  check_andThen _ _ (fecFinalize s) judgeLength

/-- The header as HD.SHORT judges it in HDRFIN: the decoder has answered, HD.CONF has passed, the length is read. -/
def lengthRead (s : State) : State := withLength (setOk true (fecFinalize s))

/-- The header as HD.LONG judges it in HDRFIN: HD.SHORT has passed, the geometry is derived. -/
def geometryRead (s : State) : State := withGeometry (setOk true (lengthRead s))

/-- The four outcomes of HDRFIN, in the order of the checks (43_header.md R191, 60_exceptions.md R237). -/
theorem execHdrfin_eq (s : State) : execHdrfin s = .next (
    if confTooLow s.cfg.num (fecAnswer s).1 then
      setOk false (raiseFailure (.failConf (fecAnswer s).1) (fecFinalize s))
    else if lenTooShort (lengthField (fecAnswer s).2) then
      setOk false (raiseFailure (.failShort (lengthField (fecAnswer s).2)) (lengthRead s))
    else if rowsTooMany (geomRows (lengthField (fecAnswer s).2)) then
      setOk false (raiseFailure (.failLong (lengthField (fecAnswer s).2) (geomRows (lengthField (fecAnswer s).2)))
        (geometryRead s))
    else accepted (setOk true (geometryRead s))) := by
  simp only [apply_ite Host.Outcome.next, execHdrfin_eq_judge, judgeLength_eq, judgeRows_eq]
  rfl

/-- Of the header found in `s` the decoder has been asked, and nothing else written but temporaries. -/
def Asked (s u : State) : Prop :=
  u = { s with
    fecNext := none, out := s.out ++ [.fecFin (fecAnswer s).1 (fecAnswer s).2], wires := u.wires }

theorem asked_fecFinalize (s : State) : Asked s (fecFinalize s) := rfl

section
variable {s u : State} (h : Asked s u)
include h

theorem Asked.withWires (w : Wires) : Asked s { u with wires := w } := by
  unfold Asked at *
  rw [h]

theorem Asked.out_event (e : Event) :
    u.out ++ [.event e] = s.out ++ [.fecFin (fecAnswer s).1 (fecAnswer s).2, .event e] := by
  rw [h]
  exact List.append_assoc _ _ _

theorem Asked.failed (e : Event) : setOk false (raiseFailure e u) =
    { s with
      state := .idle, off := 0, fecNext := none, wires := { u.wires with ok := false }
      out := s.out ++ [.fecFin (fecAnswer s).1 (fecAnswer s).2, .event e] } := by
  rw [← h.out_event e, h]
  rfl

theorem Asked.accepted : accepted u =
    { s with
      state := .data, nbrow := u.wires.nr, nbbyte := u.wires.nb, row := 0, col := 0, nbits := 0, bits := 0, pr := .one
      fecNext := none, wires := u.wires
      out := s.out ++ [.fecFin (fecAnswer s).1 (fecAnswer s).2, .event (.hdrOk u.wires.len u.wires.nr u.wires.nb)] } := by
  rw [← h.out_event, h]
  rfl

end

/-! ### The bits pushed to the decoder (43_header.md R190) -/

/-- The state after HDRBIT has pushed and counted its bit. -/
def bitPushed (s : State) : State := { fecPush s.wires.v s.nbits s with nbits := s.nbits + 1 }

theorem execHdrbit_of_lt {s : State} (h : s.nbits.toNat < 24) : execHdrbit s = .next (bitPushed s) := by
  have hcount : (s.nbits + 1).toNat ≠ hdrBits := by
    rw [nbits_succ (by omega), hdrBits]
    omega
  exact if_neg hcount

theorem execHdrbit_of_last {s : State} (h : s.nbits.toNat = 24) : execHdrbit s = execHdrfin (bitPushed s) := by
  have hcount : (s.nbits + 1).toNat = hdrBits := by rw [nbits_succ (by omega), h]
  exact if_pos hcount

/-- Soft bits with their positions, from position `nbits` on. -/
def numbered {α : Type} (f : Scalar → BitVec 5 → α) (nbits : BitVec 5) (vs : List Scalar) : List α :=
  vs.mapIdx fun k v => f v (BitVec.ofNat 5 (nbits.toNat + k))

theorem numbered_cons {α : Type} (f : Scalar → BitVec 5 → α) {nbits : BitVec 5} (h : nbits.toNat < 25) (v : Scalar)
    (vs : List Scalar) : numbered f nbits (v :: vs) = f v nbits :: numbered f (nbits + 1) vs := by
  simp only [numbered, List.mapIdx_cons, nbits_succ h, Nat.add_zero, BitVec.ofNat_toNat, BitVec.setWidth_eq]
  simp only [Nat.add_assoc, Nat.add_comm 1]

/-- The state after one raw soft bit in HEADER, before the 25th: it is pushed descrambled and counted, and the descrambler word
advances. -/
def afterHeaderBit (v : Scalar) (w : Wires) (s : State) : State :=
  { fecPush (if feedback s.scr then s.cfg.num.sub .one v else v) s.nbits s with
    nbits := s.nbits + 1, scr := scrNext s.scr, wires := w }

theorem execPutbit_in_header {s : State} (hstate : s.state = .header) (hfew : s.nbits.toNat < 24) (v : Scalar) :
    ∃ w : Wires, execPutbit (withRawBit v s) = .next (afterHeaderBit v w s) :=
  ⟨_, (execPutbit_of_header (s := withRawBit v s) rfl hstate).trans (execHdrbit_of_lt hfew)⟩

/-- What raw soft bits in HEADER do, before the 25th. -/
structure HeaderBitsTaken (vs : List Scalar) (s t : State) : Prop where
  nbits : t.nbits.toNat = s.nbits.toNat + vs.length
  fecWin : t.fecWin = s.fecWin ++ numbered Prod.mk s.nbits (descramble s.cfg.num s.scr vs)
  out : t.out = s.out ++ numbered .fecPush s.nbits (descramble s.cfg.num s.scr vs)
  frame : t = { s with nbits := t.nbits, scr := t.scr, fecWin := t.fecWin, out := t.out, wires := t.wires }

theorem HeaderBitsTaken.nil (s : State) : HeaderBitsTaken [] s s :=
  ⟨rfl, (List.append_nil _).symm, (List.append_nil _).symm, rfl⟩

theorem HeaderBitsTaken.cons {v : Scalar} {vs : List Scalar} {w : Wires} {s t : State} (hfew : s.nbits.toNat < 24)
    (h : HeaderBitsTaken vs (afterHeaderBit v w s) t) : HeaderBitsTaken (v :: vs) s t where
  nbits := by
    have hcount : t.nbits.toNat = (s.nbits + 1).toNat + vs.length := h.nbits
    rw [hcount, nbits_succ (by omega), List.length_cons]
    omega
  fecWin := by
    rw [h.fecWin, descramble_cons, numbered_cons _ (by omega)]
    exact List.append_assoc _ _ _
  out := by
    rw [h.out, descramble_cons, numbered_cons _ (by omega)]
    exact List.append_assoc _ _ _
  frame := h.frame

theorem runBits_in_header {vs : List Scalar} {s : State} (hstate : s.state = .header)
    (hfew : s.nbits.toNat + vs.length ≤ 24) : (runBits vs s).Completes (HeaderBitsTaken vs s) := by
  induction vs generalizing s with
  | nil => exact Res.completes_next (.nil s)
  | cons v vs ih =>
    rw [List.length_cons] at hfew
    have hlt : s.nbits.toNat < 24 := by omega
    obtain ⟨w, hput⟩ := execPutbit_in_header hstate hlt v
    have hcount : (afterHeaderBit v w s).nbits.toNat = s.nbits.toNat + 1 := nbits_succ (by omega)
    obtain ⟨t, hrun, ht⟩ := ih (s := afterHeaderBit v w s) hstate (by omega)
    refine ⟨t, ?_, ht.cons hlt⟩
    show (execPutbit (withRawBit v s)).andThen (runBits vs) = _
    rw [hput]
    exact hrun

/-! ### The statements -/

/-- Settles O37: bit by bit (`runBits_in_header`); below the 25th bit HDRFIN does not run, so the mode stays. -/
theorem headerBitsReachTheDecoderDescrambled : Obligations.HeaderBitsReachTheDecoderDescrambled := by
  unfold Obligations.HeaderBitsReachTheDecoderDescrambled
  intro s vs hstate hfew
  obtain ⟨t, hrun, hnbits, hwin, hout, hframe⟩ := runBits_in_header hstate hfew
  have hmode : t.state = .header := by rw [hframe]; exact hstate
  exact ⟨t, hrun, hmode, hnbits, hwin, hout, hframe⟩

/-- Settles O39: the count reaches 25 exactly when it was 24. -/
theorem hdrbitPushesAndCounts : Obligations.HdrbitPushesAndCounts := by
  unfold Obligations.HdrbitPushesAndCounts
  exact fun s hcount => ⟨bitPushed s, nbits_succ hcount, rfl, rfl, rfl, execHdrbit_of_lt, execHdrbit_of_last⟩

/-- Settles O40: each condition selects its branch of `execHdrfin_eq`, and what the branch writes is said by `Asked.failed` and
`Asked.accepted`. -/
theorem hdrfinValidatesInOrder : Obligations.HdrfinValidatesInOrder := by
  unfold Obligations.HdrfinValidatesInOrder
  rintro s vp bits len hanswer rfl
  obtain ⟨rfl, rfl⟩ : (fecAnswer s).1 = vp ∧ (fecAnswer s).2 = bits := by simp [hanswer]
  have hfinalized := asked_fecFinalize s
  have hlength : Asked s (lengthRead s) := hfinalized.withWires _
  have hgeometry : Asked s (geometryRead s) := hlength.withWires _
  have hpassed : Asked s (setOk true (geometryRead s)) := hgeometry.withWires _
  have hmetric (h : s.cfg.num.lt (fecAnswer s).1 hdrConf = false) : ¬confTooLow s.cfg.num (fecAnswer s).1 = true :=
    ne_true_of_eq_false h
  have hshort := lenTooShort_iff (lengthField (fecAnswer s).2)
  have hlong := rowsTooMany_geomRows_iff (lengthField (fecAnswer s).2)
  refine ⟨_, execHdrfin_eq s, ?_, fun hlow => ?_, fun hconf hmin => ?_, fun hconf hmax => ?_, fun hconf hmin hmax => ?_⟩
  · split_ifs <;> rfl
  · have hcheck : confTooLow s.cfg.num (fecAnswer s).1 = true := hlow
    rw [if_pos hcheck]
    exact hfinalized.failed _
  · rw [if_neg (hmetric hconf), if_pos (hshort.2 hmin)]
    exact hlength.failed _
  · rw [if_neg (hmetric hconf), if_neg (by rw [hshort]; omega), if_pos (hlong.2 hmax), geomRows_of_too_long hmax]
    exact hgeometry.failed _
  · rw [if_neg (hmetric hconf), if_neg (by rw [hshort]; omega), if_neg (by rw [hlong]; omega)]
    exact ⟨toNat_geomRows _, toNat_geomBytes _, hpassed.accepted⟩

/-- Settles O41: each check on both sides (`check_of_fails`, `check_of_passes`); the row count by `geomRows_le` and
`geomRows_gt_iff`. -/
theorem headerChecksRaiseTheirFailures : Obligations.HeaderChecksRaiseTheirFailures := by
  unfold Obligations.HeaderChecksRaiseTheirFailures
  intro s
  have hthreshold : hdrConf.toReal = 4 / 100 := by
    rw [Scalar.toReal_rat]
    norm_num
  refine ⟨hthreshold, fun hexact => ?_, fun len => ⟨geomRows_le len, geomRows_gt_iff len⟩,
    ⟨_, rfl, fun h => check_of_fails h _ _, fun h => check_of_passes h _ _⟩,
    ⟨_, rfl, fun h => check_of_fails ((lenTooShort_iff _).2 h) _ _,
      fun h => check_of_passes ((lenTooShort_eq_false_iff _).2 h) _ _⟩,
    ⟨_, rfl, fun h => check_of_fails ((rowsTooMany_iff _).2 h) _ _,
      fun h => check_of_passes ((rowsTooMany_eq_false_iff _).2 h) _ _⟩⟩
  rw [Numerics.lt_iff hexact, hthreshold]

/-- Settles O42: `lengthField_getLsbD`. -/
theorem hdLenReversesTheLengthField : Obligations.HdLenReversesTheLengthField := by
  unfold Obligations.HdLenReversesTheLengthField
  exact fun s => ⟨_, rfl, fun i hi => lengthField_getLsbD _ hi, rfl⟩

/-- Settles O43: neither field overflows its width. -/
theorem hdGeomDerivesTheGeometry : Obligations.HdGeomDerivesTheGeometry := by
  unfold Obligations.HdGeomDerivesTheGeometry
  exact fun s => ⟨_, rfl, toNat_geomRows _, toNat_geomBytes _, rfl⟩

/-- Settles O44: the writes of `accepted`, one by one. -/
theorem hdAcceptEntersData : Obligations.HdAcceptEntersData := by
  unfold Obligations.HdAcceptEntersData
  exact fun s => ⟨_, execHdAccept_eq s, rfl, rfl, rfl, rfl, rfl, rfl, rfl, rfl, rfl, rfl⟩

/-- Settles O45: the conditions of HD.SHORT and HD.LONG as bounds of the length; the geometry by `geometryAccepted_of_checks`, and a
last row without bytes is not the only one. -/
theorem acceptedLengthsAndGeometry : Obligations.AcceptedLengthsAndGeometry := by
  unfold Obligations.AcceptedLengthsAndGeometry
  intro len
  have haccepted : lenTooShort len = false ∧ rowsTooMany (geomRows len) = false ↔ 104 ≤ len.toNat ∧ len.toNat ≤ 129479 := by
    have hlong := geomRows_gt_iff len
    rw [lenTooShort_eq_false_iff, rowsTooMany_eq_false_iff]
    omega
  refine ⟨haccepted, fun hmin hmax => ?_⟩
  obtain ⟨hshort, hlong⟩ := haccepted.2 ⟨hmin, hmax⟩
  obtain ⟨hrows, hrows', hbytes, hsingle⟩ := geometryAccepted_of_checks hshort hlong
  exact ⟨hrows, hrows', hbytes, hsingle, by omega⟩

end Sys2Proof.Machine
end

/-! ## The proofs of 44_block.md: byte assembly, addressing, completion, dispatch

SUPPORT. First one bit and the end of a byte, with the state after each operation under a name; then the cells of a block: how many
bytes go to each column, so that BADV counts through the cells in column order (`CellOfRank`); then the bits of a whole block, with
what they leave in the counters (`BlockProgress`) and in BLKD (`BlockContents`); then that from the invariant no operation stops;
then the statements. -/

section
namespace Sys2Proof.Machine

/-! ### One bit (44_block.md R210) -/

theorem setBit_getLsbD (bits : BitVec 8) (n : BitVec 5) {p : Nat} (hp : p < 8) :
    (setBit bits n).getLsbD p = (bits.getLsbD p || decide (p = n.toNat)) := by
  rw [setBit, ← BitVec.twoPow_eq, BitVec.getLsbD_or, BitVec.getLsbD_twoPow]
  by_cases heq : p = n.toNat
  · simp [← heq, hp]
  · simp [heq, Ne.symm heq]

theorem takeBit_bits_getLsbD (s : State) {p : Nat} (hp : p < 8) :
    (takeBit s).bits.getLsbD p =
      (s.bits.getLsbD p || (decide (p = s.nbits.toNat) && hardOne s.cfg.num s.wires.v)) := by
  unfold takeBit
  split
  · next hone => simp [setBit_getLsbD _ _ hp, hone]
  · next hzero => simp [hzero]

theorem takeBit_nbits (s : State) : (takeBit s).nbits = s.nbits + 1 := by
  rw [takeBit_eq]

theorem takeBit_pr_of_one {s : State} (h : hardOne s.cfg.num s.wires.v = true) :
    (takeBit s).pr = s.cfg.num.mul s.pr s.wires.v := by
  rw [takeBit, if_pos h]

theorem takeBit_pr_of_zero {s : State} (h : hardOne s.cfg.num s.wires.v = false) :
    (takeBit s).pr = s.cfg.num.mul s.pr (s.cfg.num.sub .one s.wires.v) := by
  rw [takeBit, if_neg (ne_true_of_eq_false h)]

theorem execDatabit_of_lt {s : State} (h : s.nbits.toNat < 7) : execDatabit s = .next (takeBit s) := by
  have hcount : (takeBit s).nbits.toNat ≠ 8 := by
    rw [takeBit_nbits, nbits_succ (by omega)]
    omega
  rw [execDatabit_eq, if_neg hcount]

theorem execDatabit_of_last {s : State} (h : s.nbits.toNat = 7) : execDatabit s = finishByte (takeBit s) := by
  have hcount : (takeBit s).nbits.toNat = 8 := by rw [takeBit_nbits, nbits_succ (by omega), h]
  rw [execDatabit_eq, if_pos hcount]

/-! ### The end of a byte (44_block.md R211 to R214) -/

/-- An element of the matrices after a write of one cell (20_memory.md R64). -/
theorem Memory.read_write_cell {α : Type} [DecidableEq α] {d v : α} {m : Memory α} {row col r c : Nat}
    (hwf : Memory.wf d m = true) (hcol : col < nCol) (hc : c < nCol) :
    Memory.read d (Memory.write d m (cellIndex row col) v) (cellIndex r c) =
      if r = row ∧ c = col then v else Memory.read d m (cellIndex r c) := by
  have hindex : cellIndex r c = cellIndex row col ↔ r = row ∧ c = col :=
    ⟨cellIndex_injective hc hcol, fun ⟨hr, hc⟩ => by rw [hr, hc]⟩
  simp only [Memory.read_write hwf, hindex]

/-- The state after BSTORE (R211). -/
def byteStored (s : State) : State :=
  { s with
    blkd := Memory.write 0 s.blkd (cellIndex s.row.toNat s.col.toNat) s.bits
    blkp := Memory.write .zero s.blkp (cellIndex s.row.toNat s.col.toNat) s.pr
    nbits := 0
    bits := 0
    pr := .one }

theorem execBstore_of_inside {s : State} (hrow : s.row.toNat < 65) (hcol : s.col.toNat < 255) :
    execBstore s = .next (byteStored s) :=
  execBstore_eq_next.2 ⟨⟨hrow, hcol⟩, rfl⟩

theorem blkdAt_byteStored {s : State} (hwf : Memory.wf 0 s.blkd = true) (hcol : s.col.toNat < 255) {r c : Nat} (hc : c < 255) :
    blkdAt (byteStored s) r c = if r = s.row.toNat ∧ c = s.col.toNat then s.bits else blkdAt s r c :=
  Memory.read_write_cell hwf hcol hc

theorem blkpAt_byteStored {s : State} (hwf : Memory.wf .zero s.blkp = true) (hcol : s.col.toNat < 255) {r c : Nat} (hc : c < 255) :
    blkpAt (byteStored s) r c = if r = s.row.toNat ∧ c = s.col.toNat then s.pr else blkpAt s r c :=
  Memory.read_write_cell hwf hcol hc

/-- The state after BADV (R212). -/
def advanced (s : State) : State :=
  { s with row := (advance s.nbrow s.nbbyte s.row s.col).1, col := (advance s.nbrow s.nbbyte s.row s.col).2 }

/-- The state after BDONE (R213). -/
def completionTested (s : State) : State :=
  { s with wires := { s.wires with done := blockComplete s.nbrow s.nbbyte s.row s.col } }

/-- The state after DISPATCH (R214). -/
def dispatched (s : State) : State :=
  toIdle (emit (.event .blockDone) (emit (.block s.nbrow s.nbbyte s.blkd s.blkp s.tstamp) s))

theorem execBadv_eq (s : State) : execBadv s = .next (advanced s) := rfl

theorem execBdone_eq (s : State) : execBdone s = .next (completionTested s) := rfl

theorem execDispatch_eq (s : State) : execDispatch s = .next (dispatched s) := rfl

theorem dispatched_out (s : State) :
    (dispatched s).out = s.out ++ [.block s.nbrow s.nbbyte s.blkd s.blkp s.tstamp, .event .blockDone] :=
  List.append_assoc _ _ _

/-- The state in which it is decided whether the block is dispatched. -/
def byteFinished (s : State) : State := completionTested (advanced (byteStored s))

theorem finishByte_of_inside {s : State} (hrow : s.row.toNat < 65) (hcol : s.col.toNat < 255) :
    finishByte s = if (byteFinished s).wires.done then execDispatch (byteFinished s) else .next (byteFinished s) := by
  rw [finishByte, execBstore_of_inside hrow hcol]
  rfl

/-! ### The row and column that follow (44_block.md R212) -/

section
variable {nbrow row : BitVec 7} {nbbyte col : BitVec 8}

/-- The condition under which BADV leaves a column, on the row before the increment. -/
def leavesColumn (rows nbbyte r c : Nat) : Prop := r + 1 = rows ∨ (nbbyte ≤ c ∧ c < 249 ∧ r + 2 = rows)

theorem toNat_row_add_one (hrow : row.toNat < 65) : (row + 1).toNat = row.toNat + 1 := by
  bv_omega

theorem columnFinished_iff (hrow : row.toNat < 65) :
    columnFinished nbrow nbbyte (row + 1) col = true ↔ leavesColumn nbrow.toNat nbbyte.toNat row.toNat col.toNat := by
  simp only [columnFinished, leavesColumn, Bool.or_eq_true, Bool.and_eq_true, decide_eq_true_eq, BitVec.le_def,
    ← BitVec.toNat_inj, toNat_row_add_one hrow, and_assoc]

theorem advance_of_leaves (hrow : row.toNat < 65) (h : leavesColumn nbrow.toNat nbbyte.toNat row.toNat col.toNat) :
    advance nbrow nbbyte row col = (0, nextCol nbrow nbbyte col) :=
  if_pos ((columnFinished_iff hrow).2 h)

theorem advance_of_stays (hrow : row.toNat < 65) (h : ¬leavesColumn nbrow.toNat nbbyte.toNat row.toNat col.toNat) :
    advance nbrow nbbyte row col = (row + 1, col) :=
  if_neg ((columnFinished_iff hrow).not.2 h)

theorem jumps_iff (hcol : col.toNat < 255) :
    nbrow = 1 ∧ col + 1 = nbbyte ↔ nbrow.toNat = 1 ∧ col.toNat + 1 = nbbyte.toNat := by
  bv_omega

theorem nextCol_of_jump (hcol : col.toNat < 255) (h : nbrow.toNat = 1 ∧ col.toNat + 1 = nbbyte.toNat) :
    nextCol nbrow nbbyte col = 249 :=
  if_pos ((jumps_iff hcol).2 h)

theorem toNat_nextCol (hcol : col.toNat < 255) (h : ¬(nbrow.toNat = 1 ∧ col.toNat + 1 = nbbyte.toNat)) :
    (nextCol nbrow nbbyte col).toNat = col.toNat + 1 := by
  rw [nextCol, if_neg ((jumps_iff hcol).not.2 h)]
  bv_omega

end

/-! ### The cells of a block, column by column (44_block.md R215, R218) -/

/-- The column in which a block ends. -/
def endColumn (nbbyte : Nat) : Nat := 249 + overheadCols nbbyte

/-- How many bytes of a block go to a column: those of its first rows. -/
def columnHeight (rows nbbyte c : Nat) : Nat :=
  if c < nbbyte then rows
  else if c < 249 then rows - 1
  else if c < endColumn nbbyte then rows
  else if c = endColumn nbbyte ∧ overheadCols nbbyte < 6 then rows - 1
  else 0

/-- How many bytes of a block go to the columns before `c`. -/
def bytesBefore (rows nbbyte c : Nat) : Nat := ∑ i ∈ Finset.range c, columnHeight rows nbbyte i

section
variable {rows nbbyte : Nat}

theorem overheadCols_cases (nbbyte : Nat) :
    (nbbyte < 30 ∧ overheadCols nbbyte = 2) ∨ (30 ≤ nbbyte ∧ nbbyte < 68 ∧ overheadCols nbbyte = 4) ∨
    (68 ≤ nbbyte ∧ overheadCols nbbyte = 6) := by
  unfold overheadCols
  split_ifs <;> omega

theorem writtenCell_iff (hbytes : nbbyte ≤ 249) {r c : Nat} :
    writtenCell rows nbbyte r c ↔ r < columnHeight rows nbbyte c := by
  unfold writtenCell columnHeight endColumn
  split_ifs <;> omega

/-- No byte goes to a column past the last. -/
theorem le_endColumn_of_lt_columnHeight (hbytes : nbbyte ≤ 249) {r c : Nat} (h : r < columnHeight rows nbbyte c) :
    c ≤ endColumn nbbyte := by
  unfold columnHeight endColumn at *
  split_ifs at h <;> omega

theorem bytesBefore_succ (c : Nat) : bytesBefore rows nbbyte (c + 1) = bytesBefore rows nbbyte c + columnHeight rows nbbyte c :=
  Finset.sum_range_succ _ _

theorem bytesBefore_mono {c c' : Nat} (h : c ≤ c') : bytesBefore rows nbbyte c ≤ bytesBefore rows nbbyte c' :=
  Finset.sum_le_sum_of_subset (Finset.range_mono h)

/-- The bytes of a column are counted before those of a later one. -/
theorem bytesBefore_add_le {r c c' : Nat} (hr : r ≤ columnHeight rows nbbyte c) (h : c < c') :
    bytesBefore rows nbbyte c + r ≤ bytesBefore rows nbbyte c' := by
  have hnext := bytesBefore_mono (rows := rows) (nbbyte := nbbyte) h
  rw [Nat.succ_eq_add_one, bytesBefore_succ] at hnext
  omega

/-- Columns to which the same number of bytes goes. -/
theorem bytesBefore_add {c k v : Nat} (h : ∀ i, i < k → columnHeight rows nbbyte (c + i) = v) :
    bytesBefore rows nbbyte (c + k) = bytesBefore rows nbbyte c + k * v := by
  have hsum : ∑ i ∈ Finset.range k, columnHeight rows nbbyte (c + i) = k * v := by
    rw [Finset.sum_congr rfl fun i hi => h i (Finset.mem_range.1 hi)]
    simp
  rw [bytesBefore, Finset.sum_range_add, hsum, bytesBefore]

theorem bytesBefore_nbbyte : bytesBefore rows nbbyte nbbyte = nbbyte * rows := by
  have h := bytesBefore_add (rows := rows) (nbbyte := nbbyte) (c := 0) (k := nbbyte) (v := rows) fun i hi => by
    simp [columnHeight, hi]
  simpa [bytesBefore] using h

/-- The last row has no byte in the columns from `nbbyte` to 248. -/
theorem bytesBefore_249 (hbytes : nbbyte ≤ 249) :
    bytesBefore rows nbbyte 249 = nbbyte * rows + (249 - nbbyte) * (rows - 1) := by
  have h := bytesBefore_add (rows := rows) (nbbyte := nbbyte) (c := nbbyte) (k := 249 - nbbyte) (v := rows - 1)
    fun i hi => by
      have hlt : nbbyte + i < 249 := by omega
      simp [columnHeight, hlt]
  rwa [bytesBefore_nbbyte, Nat.add_sub_of_le hbytes] at h

theorem bytesBefore_endColumn (hbytes : nbbyte ≤ 249) :
    bytesBefore rows nbbyte (endColumn nbbyte) = bytesBefore rows nbbyte 249 + overheadCols nbbyte * rows :=
  bytesBefore_add fun i hi => by
    unfold columnHeight endColumn
    split_ifs <;> omega

theorem columnHeight_endColumn (hbytes : nbbyte ≤ 249) :
    columnHeight rows nbbyte (endColumn nbbyte) = if overheadCols nbbyte < 6 then rows - 1 else 0 := by
  unfold columnHeight endColumn
  split_ifs <;> omega

/-- All the bytes of a block: N(R, B) (R215). -/
theorem bytesBefore_add_end (hrows : 1 ≤ rows) (hbytes : nbbyte ≤ 249) :
    bytesBefore rows nbbyte (endColumn nbbyte) + columnHeight rows nbbyte (endColumn nbbyte) = blockBytes rows nbbyte := by
  obtain ⟨rows, rfl⟩ := Nat.exists_eq_add_of_le' hrows
  obtain ⟨rest, hrest⟩ := Nat.exists_eq_add_of_le hbytes
  rw [bytesBefore_endColumn hbytes, columnHeight_endColumn hbytes, bytesBefore_249 hbytes, blockBytes, Nat.add_sub_cancel]
  have hdata : nbbyte * (rows + 1) + (249 - nbbyte) * rows = 249 * rows + nbbyte := by
    rw [hrest, Nat.add_sub_cancel_left]
    ring
  rw [hdata]

/-- The cell (r, c) is the one that the n-th byte of a block goes to, or the one at which the indices stand after the last. -/
structure CellOfRank (rows nbbyte n r c : Nat) : Prop where
  rank : bytesBefore rows nbbyte c + r = n
  place : r < columnHeight rows nbbyte c ∨ (r = columnHeight rows nbbyte c ∧ c = endColumn nbbyte)

theorem CellOfRank.le_columnHeight {n r c : Nat} (h : CellOfRank rows nbbyte n r c) : r ≤ columnHeight rows nbbyte c :=
  h.place.elim Nat.le_of_lt fun hend => Nat.le_of_eq hend.1

/-- Before the last byte the indices stand at a cell of the block. -/
theorem CellOfRank.written {n r c : Nat} (hrows : 1 ≤ rows) (hbytes : nbbyte ≤ 249) (h : CellOfRank rows nbbyte n r c)
    (hn : n < blockBytes rows nbbyte) : r < columnHeight rows nbbyte c := by
  refine h.place.resolve_right fun ⟨hr, hc⟩ => ?_
  have hrank := h.rank
  rw [hr, hc, bytesBefore_add_end hrows hbytes] at hrank
  omega

/-- After the last byte the indices stand at the end. -/
theorem CellOfRank.at_end {r c : Nat} (hrows : 1 ≤ rows) (hbytes : nbbyte ≤ 249)
    (h : CellOfRank rows nbbyte (blockBytes rows nbbyte) r c) :
    r = columnHeight rows nbbyte c ∧ c = endColumn nbbyte := by
  refine h.place.resolve_left fun hr => ?_
  have hrank := h.rank
  have hend := bytesBefore_add_end hrows hbytes
  rcases Nat.lt_or_eq_of_le (le_endColumn_of_lt_columnHeight hbytes hr) with hlt | rfl
  · have hnext := bytesBefore_add_le hr hlt
    omega
  · omega

/-- Ascending columns, and ascending rows within a column (R218). -/
theorem CellOfRank.ascending {m n r c r' c' : Nat} (h : CellOfRank rows nbbyte m r c) (h' : CellOfRank rows nbbyte n r' c')
    (hmn : m < n) : c < c' ∨ (c = c' ∧ r < r') := by
  have hrank := h.rank
  have hrank' := h'.rank
  rcases lt_trichotomy c c' with hlt | rfl | hgt
  · exact .inl hlt
  · exact .inr ⟨rfl, by omega⟩
  · have hle := bytesBefore_add_le h'.le_columnHeight hgt
    omega

/-- A cell of the block is the only one of its rank. -/
theorem CellOfRank.unique {n r c r' c' : Nat} (h : CellOfRank rows nbbyte n r c) (h' : CellOfRank rows nbbyte n r' c')
    (hr : r < columnHeight rows nbbyte c) (hr' : r' < columnHeight rows nbbyte c') : r = r' ∧ c = c' := by
  have hrank := h.rank
  have hrank' := h'.rank
  rcases lt_trichotomy c c' with hlt | rfl | hgt
  · have hle := bytesBefore_add_le hr hlt
    omega
  · exact ⟨by omega, rfl⟩
  · have hle := bytesBefore_add_le hr' hgt
    omega

theorem rank_lt_blockBytes (hrows : 1 ≤ rows) (hbytes : nbbyte ≤ 249) {r c : Nat} (hr : r < columnHeight rows nbbyte c) :
    bytesBefore rows nbbyte c + r < blockBytes rows nbbyte := by
  have hend := bytesBefore_add_end hrows hbytes
  rcases Nat.lt_or_eq_of_le (le_endColumn_of_lt_columnHeight hbytes hr) with hlt | rfl
  · have hnext := bytesBefore_add_le hr hlt
    omega
  · omega

/-! ### BADV from cell to cell (44_block.md R212) -/

/-- BADV leaves a column exactly after its last byte, and the end column never. -/
theorem leavesColumn_iff (hbytes : nbbyte ≤ 249) {r c : Nat} (hr : r < columnHeight rows nbbyte c) :
    leavesColumn rows nbbyte r c ↔ r + 1 = columnHeight rows nbbyte c ∧ c ≠ endColumn nbbyte := by
  have hclass := overheadCols_cases nbbyte
  unfold leavesColumn
  unfold columnHeight endColumn at *
  split_ifs at hr ⊢ <;> omega

/-- The column after one that has bytes starts with a byte, or is the end, unless BADV jumps over it. -/
theorem place_at_next_column (hbytes : nbbyte ≤ 249) {r c : Nat} (hr : r < columnHeight rows nbbyte c)
    (hc : c ≠ endColumn nbbyte) (hjump : ¬(rows = 1 ∧ c + 1 = nbbyte)) :
    0 < columnHeight rows nbbyte (c + 1) ∨ (0 = columnHeight rows nbbyte (c + 1) ∧ c + 1 = endColumn nbbyte) := by
  have hclass := overheadCols_cases nbbyte
  unfold columnHeight endColumn at *
  split_ifs at hr ⊢ <;> omega

/-- A block of one row has no byte in the columns that BADV jumps over. -/
theorem bytesBefore_jump (hone : rows = 1) (hbytes : nbbyte ≤ 249) :
    bytesBefore rows nbbyte 249 = bytesBefore rows nbbyte nbbyte := by
  rw [bytesBefore_249 hbytes, bytesBefore_nbbyte, hone, Nat.sub_self, Nat.mul_zero, Nat.add_zero]

theorem columnHeight_249_pos (hrows : 1 ≤ rows) (hbytes : nbbyte ≤ 249) : 0 < columnHeight rows nbbyte 249 := by
  have hclass := overheadCols_cases nbbyte
  unfold columnHeight endColumn
  split_ifs <;> omega

theorem columnHeight_zero_pos (hrows : 1 ≤ rows) (hsingle : rows = 1 → 13 ≤ nbbyte) : 0 < columnHeight rows nbbyte 0 := by
  unfold columnHeight
  split_ifs <;> omega

/-- Every cell of a block is one of its rows and before column 255 (R216). -/
theorem inside_of_lt_columnHeight (hbytes : nbbyte ≤ 249) {r c : Nat} (hr : r < columnHeight rows nbbyte c) :
    r < rows ∧ c ≤ 254 := by
  have hclass := overheadCols_cases nbbyte
  unfold columnHeight endColumn at hr
  split_ifs at hr <;> omega

/-- The completion test holds at the end of the block and at no cell of it (R213). -/
theorem blockComplete_iff {nbrow row : BitVec 7} {nbbyte col : BitVec 8} (hrows : 1 ≤ nbrow.toNat) (hbytes : nbbyte.toNat ≤ 249)
    (hplace : row.toNat < columnHeight nbrow.toNat nbbyte.toNat col.toNat ∨
      (row.toNat = columnHeight nbrow.toNat nbbyte.toNat col.toNat ∧ col.toNat = endColumn nbbyte.toNat)) :
    blockComplete nbrow nbbyte row col = true ↔ ¬row.toNat < columnHeight nbrow.toNat nbbyte.toNat col.toNat := by
  have hclass := overheadCols_cases nbbyte.toNat
  simp only [blockComplete, nCol, Bool.or_eq_true, Bool.and_eq_true, decide_eq_true_eq]
  unfold columnHeight endColumn at *
  split_ifs at hplace ⊢ <;> omega

end

section
variable {nbrow : BitVec 7} {nbbyte : BitVec 8} (hgeometry : geometryAccepted nbrow nbbyte)
include hgeometry

/-- BADV goes from the cell of a byte to that of the next. -/
theorem CellOfRank.advance {n : Nat} {row : BitVec 7} {col : BitVec 8}
    (h : CellOfRank nbrow.toNat nbbyte.toNat n row.toNat col.toNat)
    (hwritten : row.toNat < columnHeight nbrow.toNat nbbyte.toNat col.toNat) :
    CellOfRank nbrow.toNat nbbyte.toNat (n + 1)
      (advance nbrow nbbyte row col).1.toNat (advance nbrow nbbyte row col).2.toNat := by
  obtain ⟨hrows, hrows', hbytes, -⟩ := hgeometry
  obtain ⟨hinRow, hinCol⟩ := inside_of_lt_columnHeight hbytes hwritten
  have hrow : row.toNat < 65 := by omega
  have hcol : col.toNat < 255 := by omega
  have hleaves := leavesColumn_iff hbytes hwritten
  have hrank := h.rank
  by_cases hlast : leavesColumn nbrow.toNat nbbyte.toNat row.toNat col.toNat
  · obtain ⟨htop, hnotEnd⟩ := hleaves.1 hlast
    have hnext : bytesBefore nbrow.toNat nbbyte.toNat (col.toNat + 1) = n + 1 := by
      rw [bytesBefore_succ]
      omega
    rw [advance_of_leaves hrow hlast]
    by_cases hjump : nbrow.toNat = 1 ∧ col.toNat + 1 = nbbyte.toNat
    · rw [nextCol_of_jump hcol hjump]
      rw [hjump.2, ← bytesBefore_jump hjump.1 hbytes] at hnext
      exact ⟨(Nat.add_zero _).trans hnext, .inl (columnHeight_249_pos hrows hbytes)⟩
    · rw [toNat_nextCol hcol hjump]
      exact ⟨hnext, place_at_next_column hbytes hwritten hnotEnd hjump⟩
  · have hplace : row.toNat + 1 < columnHeight nbrow.toNat nbbyte.toNat col.toNat ∨
        (row.toNat + 1 = columnHeight nbrow.toNat nbbyte.toNat col.toNat ∧ col.toNat = endColumn nbbyte.toNat) :=
      (Nat.lt_or_eq_of_le hwritten).imp_right fun htop => ⟨htop, by_contra fun hne => hlast (hleaves.2 ⟨htop, hne⟩)⟩
    rw [advance_of_stays hrow hlast, toNat_row_add_one hrow]
    exact ⟨by dsimp only; omega, hplace⟩

/-- The n-th cell of the run of BADV is the n-th cell of the block, in column order (R218). -/
theorem cellOfByte_cellOfRank {n : Nat} (hn : n ≤ blockBytes nbrow.toNat nbbyte.toNat) :
    CellOfRank nbrow.toNat nbbyte.toNat n (cellOfByte nbrow nbbyte n).1.toNat (cellOfByte nbrow nbbyte n).2.toNat := by
  have ⟨hrows, _, hbytes, hsingle⟩ := hgeometry
  induction n with
  | zero => exact ⟨rfl, .inl (columnHeight_zero_pos hrows hsingle)⟩
  | succ n ih =>
    have hcell := ih (Nat.le_of_lt hn)
    exact hcell.advance hgeometry (hcell.written hrows hbytes hn)

/-- No cell of the block is stored to twice (R216). -/
theorem cellOfByte_ne {m n : Nat} (hmn : m < n) (hn : n < blockBytes nbrow.toNat nbbyte.toNat) :
    ¬((cellOfByte nbrow nbbyte m).1.toNat = (cellOfByte nbrow nbbyte n).1.toNat ∧
      (cellOfByte nbrow nbbyte m).2.toNat = (cellOfByte nbrow nbbyte n).2.toNat) := by
  have hascending := (cellOfByte_cellOfRank hgeometry (hmn.trans hn).le).ascending (cellOfByte_cellOfRank hgeometry hn.le) hmn
  omega

/-- Every byte of the block goes to one of the first rows of its column (R218). -/
theorem cellOfByte_written {n : Nat} (hn : n < blockBytes nbrow.toNat nbbyte.toNat) :
    (cellOfByte nbrow nbbyte n).1.toNat < columnHeight nbrow.toNat nbbyte.toNat (cellOfByte nbrow nbbyte n).2.toNat := by
  have ⟨hrows, _, hbytes, _⟩ := hgeometry
  exact (cellOfByte_cellOfRank hgeometry hn.le).written hrows hbytes hn

theorem cellOfByte_inside {n : Nat} (hn : n < blockBytes nbrow.toNat nbbyte.toNat) :
    (cellOfByte nbrow nbbyte n).1.toNat < nbrow.toNat ∧ (cellOfByte nbrow nbbyte n).2.toNat ≤ 254 := by
  have ⟨_, _, hbytes, _⟩ := hgeometry
  exact inside_of_lt_columnHeight hbytes (cellOfByte_written hgeometry hn)

/-- The completion test holds after the last byte and after none before it (R215). -/
theorem blockComplete_cellOfByte_iff {n : Nat} (hn : n ≤ blockBytes nbrow.toNat nbbyte.toNat) :
    blockComplete nbrow nbbyte (cellOfByte nbrow nbbyte n).1 (cellOfByte nbrow nbbyte n).2 = true ↔
      n = blockBytes nbrow.toNat nbbyte.toNat := by
  have ⟨hrows, _, hbytes, _⟩ := hgeometry
  have hcell := cellOfByte_cellOfRank hgeometry hn
  rw [blockComplete_iff hrows hbytes hcell.place]
  refine ⟨fun hnot => ?_, fun heq => ?_⟩
  · exact (Nat.lt_or_eq_of_le hn).resolve_left fun hlt => hnot (cellOfByte_written hgeometry hlt)
  · rw [heq] at hcell ⊢
    exact (hcell.at_end hrows hbytes).1.not_lt

end

/-! ### One bit of a block (42_demod.md R180, 44_block.md R210) -/

/-- The soft bit that DESCR gives for a raw one (42_demod.md R177). -/
def descrambledBit (n : Numerics) (scr : BitVec 16) (v : Scalar) : Scalar := if feedback scr then n.sub .one v else v

/-- The state after DESCR and the taking of its bit, before the end of the byte is tested. -/
def bitTaken (v : Scalar) (s : State) : State :=
  takeBit { s with
    scr := scrNext s.scr
    wires := { s.wires with sv := v, v := descrambledBit s.cfg.num s.scr v } }

theorem bitTaken_eq (v : Scalar) (s : State) : bitTaken v s = { s with
    bits := (bitTaken v s).bits, pr := (bitTaken v s).pr, nbits := s.nbits + 1, scr := scrNext s.scr
    wires := (bitTaken v s).wires } := by
  unfold bitTaken
  rw [takeBit_eq]

theorem bitTaken_bits_getLsbD (v : Scalar) (s : State) {p : Nat} (hp : p < 8) :
    (bitTaken v s).bits.getLsbD p = (s.bits.getLsbD p ||
      (decide (p = s.nbits.toNat) && hardOne s.cfg.num (descrambledBit s.cfg.num s.scr v))) :=
  takeBit_bits_getLsbD _ hp

/-- The state after one raw soft bit in DATA, but for the dispatch of a complete block. -/
def bitHandled (v : Scalar) (s : State) : State :=
  if s.nbits.toNat = 7 then byteFinished (bitTaken v s) else bitTaken v s

theorem bitHandled_of_last {s : State} (h : s.nbits.toNat = 7) (v : Scalar) :
    bitHandled v s = byteFinished (bitTaken v s) := if_pos h

theorem bitHandled_of_lt {s : State} (h : s.nbits.toNat < 7) (v : Scalar) : bitHandled v s = bitTaken v s := if_neg h.ne

theorem bitHandled_frame (v : Scalar) (s : State) : bitHandled v s = { s with
    pr := (bitHandled v s).pr, nbits := (bitHandled v s).nbits, bits := (bitHandled v s).bits
    row := (bitHandled v s).row, col := (bitHandled v s).col, scr := scrNext s.scr
    blkd := (bitHandled v s).blkd, blkp := (bitHandled v s).blkp, wires := (bitHandled v s).wires } := by
  unfold bitHandled
  split
  · rw [bitTaken_eq]; rfl
  · rw [bitTaken_eq]

theorem execPutbit_in_data {s : State} (hstate : s.state = .data) (v : Scalar) :
    execPutbit (withRawBit v s) =
      if (bitTaken v s).nbits.toNat = 8 then finishByte (bitTaken v s) else .next (bitTaken v s) :=
  execPutbit_of_data (s := withRawBit v s) rfl hstate

theorem runBits_append_singleton (vs : List Scalar) (v : Scalar) (s : State) :
    runBits (vs ++ [v]) s = (runBits vs s).andThen fun t => execPutbit (withRawBit v t) := by
  induction vs generalizing s with
  | nil => exact Res.andThen_next_self _
  | cons u us ih =>
    have htail : runBits (us ++ [v]) = fun t => (runBits us t).andThen fun t => execPutbit (withRawBit v t) := funext ih
    show Res.andThen _ (runBits (us ++ [v])) = Res.andThen (Res.andThen _ (runBits us)) _
    rw [htail, Res.andThen_assoc]

/-! ### The bits of a block up to its dispatch (44_block.md R214, R215) -/

theorem blockBytes_pos {nbrow : BitVec 7} {nbbyte : BitVec 8} (h : geometryAccepted nbrow nbbyte) :
    0 < blockBytes nbrow.toNat nbbyte.toNat := by
  unfold geometryAccepted at h
  unfold blockBytes
  omega

/-- `k` bits of a block that starts in `s` have been handled: the counters and the descrambler word, and what is left alone. -/
structure BlockProgress (s : State) (k : Nat) (t : State) : Prop where
  nbits : t.nbits.toNat = k % 8
  row : t.row = (cellOfByte s.nbrow s.nbbyte (k / 8)).1
  col : t.col = (cellOfByte s.nbrow s.nbbyte (k / 8)).2
  scr : t.scr = scrNext^[k] s.scr
  frame : t = { s with
    pr := t.pr, nbits := t.nbits, bits := t.bits, row := t.row, col := t.col, scr := t.scr, blkd := t.blkd
    blkp := t.blkp, wires := t.wires }

theorem BlockProgress.zero {s : State} (hnbits : s.nbits = 0) (hrow : s.row = 0) (hcol : s.col = 0) : BlockProgress s 0 s :=
  ⟨by rw [hnbits]; rfl, hrow, hcol, rfl, rfl⟩

section
variable {s t : State} {k : Nat} (h : BlockProgress s k t)
include h

theorem BlockProgress.state_eq : t.state = s.state := by rw [h.frame]
theorem BlockProgress.cfg_eq : t.cfg = s.cfg := by rw [h.frame]
theorem BlockProgress.nbrow_eq : t.nbrow = s.nbrow := by rw [h.frame]
theorem BlockProgress.nbbyte_eq : t.nbbyte = s.nbbyte := by rw [h.frame]
theorem BlockProgress.tstamp_eq : t.tstamp = s.tstamp := by rw [h.frame]
theorem BlockProgress.out_eq : t.out = s.out := by rw [h.frame]

theorem BlockProgress.scr_succ : scrNext t.scr = scrNext^[k + 1] s.scr := by
  rw [h.scr, Function.iterate_succ_apply']

theorem BlockProgress.bitHandled_frame (v : Scalar) : bitHandled v t = { s with
    pr := (bitHandled v t).pr, nbits := (bitHandled v t).nbits, bits := (bitHandled v t).bits
    row := (bitHandled v t).row, col := (bitHandled v t).col, scr := (bitHandled v t).scr
    blkd := (bitHandled v t).blkd, blkp := (bitHandled v t).blkp, wires := (bitHandled v t).wires } := by
  have ht := h.frame
  have hu := Machine.bitHandled_frame v t
  generalize bitHandled v t = u at hu ⊢
  rw [hu, ht]

end

theorem byteFinished_done (s : State) : (byteFinished s).wires.done =
    blockComplete s.nbrow s.nbbyte (advance s.nbrow s.nbbyte s.row s.col).1 (advance s.nbrow s.nbbyte s.row s.col).2 := rfl

section
variable {s t : State} {k : Nat} (h : BlockProgress s k t)
include h

theorem BlockProgress.bitTaken_row (v : Scalar) : (bitTaken v t).row = (cellOfByte s.nbrow s.nbbyte (k / 8)).1 := by
  rw [bitTaken_eq]
  exact h.row

theorem BlockProgress.bitTaken_col (v : Scalar) : (bitTaken v t).col = (cellOfByte s.nbrow s.nbbyte (k / 8)).2 := by
  rw [bitTaken_eq]
  exact h.col

theorem BlockProgress.bitTaken_nbrow (v : Scalar) : (bitTaken v t).nbrow = s.nbrow := by
  rw [bitTaken_eq]
  exact h.nbrow_eq

theorem BlockProgress.bitTaken_nbbyte (v : Scalar) : (bitTaken v t).nbbyte = s.nbbyte := by
  rw [bitTaken_eq]
  exact h.nbbyte_eq

/-- After the byte BADV has gone to the next cell. -/
theorem BlockProgress.advance_bitTaken (v : Scalar) :
    advance (bitTaken v t).nbrow (bitTaken v t).nbbyte (bitTaken v t).row (bitTaken v t).col =
      cellOfByte s.nbrow s.nbbyte (k / 8 + 1) := by
  rw [h.bitTaken_nbrow, h.bitTaken_nbbyte, h.bitTaken_row, h.bitTaken_col]
  rfl

/-- One more bit handled. -/
theorem BlockProgress.handle (v : Scalar) : BlockProgress s (k + 1) (bitHandled v t) := by
  have hscr : (bitHandled v t).scr = scrNext^[k + 1] s.scr := by
    rw [Machine.bitHandled_frame]
    exact h.scr_succ
  have hframe := h.bitHandled_frame v
  have hnbits := h.nbits
  have hadvance := h.advance_bitTaken v
  rcases Nat.lt_or_ge (k % 8) 7 with hmore | hlast
  · have hsame : (k + 1) / 8 = k / 8 := by omega
    rw [bitHandled_of_lt (hnbits.trans_lt hmore)] at hscr hframe ⊢
    refine ⟨?_, by rw [hsame, h.bitTaken_row], by rw [hsame, h.bitTaken_col], hscr, hframe⟩
    rw [bitTaken_eq]
    exact (nbits_succ (by omega)).trans (by omega)
  · have hnext : (k + 1) / 8 = k / 8 + 1 := by omega
    rw [bitHandled_of_last (by omega)] at hscr hframe ⊢
    refine ⟨?_, ?_, ?_, hscr, hframe⟩
    · show 0 = (k + 1) % 8
      omega
    · rw [hnext, ← hadvance]; rfl
    · rw [hnext, ← hadvance]; rfl

variable (hgeometry : geometryAccepted s.nbrow s.nbbyte) (hk : k < 8 * blockBytes s.nbrow.toNat s.nbbyte.toNat)
include hgeometry hk

theorem BlockProgress.finishByte_bitTaken (hlast : k % 8 = 7) (v : Scalar) :
    finishByte (bitTaken v t) = .next (
      if k + 1 = 8 * blockBytes s.nbrow.toNat s.nbbyte.toNat then dispatched (byteFinished (bitTaken v t))
      else byteFinished (bitTaken v t)) := by
  have ⟨_, hrows, _, _⟩ := hgeometry
  obtain ⟨hrow, hcol⟩ := cellOfByte_inside hgeometry (n := k / 8) (by omega)
  have hdone : (byteFinished (bitTaken v t)).wires.done = true ↔
      k + 1 = 8 * blockBytes s.nbrow.toNat s.nbbyte.toNat := by
    have hcomplete := blockComplete_cellOfByte_iff hgeometry (n := k / 8 + 1) (by omega)
    rw [byteFinished_done, h.advance_bitTaken, h.bitTaken_nbrow, h.bitTaken_nbbyte, hcomplete]
    omega
  rw [finishByte_of_inside (by rw [h.bitTaken_row]; omega) (by rw [h.bitTaken_col]; omega), apply_ite Host.Outcome.next]
  simp only [hdone]
  rfl

/-- PUTBIT in a block: the bit is handled, and the last one dispatches the block. -/
theorem BlockProgress.execPutbit_eq (hstate : s.state = .data) (v : Scalar) :
    execPutbit (withRawBit v t) = .next (
      if k + 1 = 8 * blockBytes s.nbrow.toNat s.nbbyte.toNat then dispatched (bitHandled v t) else bitHandled v t) := by
  have hnbits := h.nbits
  have hcount : (bitTaken v t).nbits.toNat = k % 8 + 1 := by
    rw [bitTaken_eq]
    exact (nbits_succ (by omega)).trans (by omega)
  rw [execPutbit_in_data (h.state_eq.trans hstate), hcount]
  rcases Nat.lt_or_ge (k % 8) 7 with hmore | hlast
  · rw [if_neg (by omega), if_neg (by omega), bitHandled_of_lt (by omega)]
  · rw [if_pos (by omega), bitHandled_of_last (by omega), h.finishByte_bitTaken hgeometry hk (by omega)]

end

/-! ### What BLKD holds (44_block.md R210, R211) -/

theorem descramble_length (n : Numerics) (scr : BitVec 16) (vs : List Scalar) : (descramble n scr vs).length = vs.length := by
  induction vs generalizing scr with
  | nil => rfl
  | cons v vs ih => rw [descramble_cons, List.length_cons, ih, List.length_cons]

theorem descramble_append_singleton (n : Numerics) (scr : BitVec 16) (vs : List Scalar) (v : Scalar) :
    descramble n scr (vs ++ [v]) = descramble n scr vs ++ [descrambledBit n (scrNext^[vs.length] scr) v] := by
  induction vs generalizing scr with
  | nil => rfl
  | cons u us ih => rw [List.cons_append, descramble_cons, ih, descramble_cons]; rfl

/-- The hard value of the i-th soft bit after the descrambler. -/
def hardBit (n : Numerics) (scr : BitVec 16) (vs : List Scalar) (i : Nat) : Bool :=
  hardOne n ((descramble n scr vs).getD i .zero)

section
variable (n : Numerics) (scr : BitVec 16) (vs : List Scalar) (v : Scalar)

theorem hardBit_append_of_lt {i : Nat} (hi : i < vs.length) : hardBit n scr (vs ++ [v]) i = hardBit n scr vs i := by
  rw [hardBit, descramble_append_singleton, List.getD_append _ _ _ _ (by rwa [descramble_length]), hardBit]

theorem hardBit_append_length :
    hardBit n scr (vs ++ [v]) vs.length = hardOne n (descrambledBit n (scrNext^[vs.length] scr) v) := by
  rw [hardBit, descramble_append_singleton, List.getD_append_right _ _ _ _ (by rw [descramble_length]), descramble_length,
    Nat.sub_self]
  rfl

end

/-- The raw soft bits `vs` of a block that starts in `s` have been handled: the byte in progress and the bytes stored. -/
structure BlockContents (s : State) (vs : List Scalar) (t : State) : Prop where
  wf : Memory.wf 0 t.blkd = true
  byte : ∀ p, p < 8 → t.bits.getLsbD p =
    (decide (p < vs.length % 8) && hardBit s.cfg.num s.scr vs (8 * (vs.length / 8) + p))
  stored : ∀ n p, n < vs.length / 8 → p < 8 →
    (blkdAt t (cellOfByte s.nbrow s.nbbyte n).1.toNat (cellOfByte s.nbrow s.nbbyte n).2.toNat).getLsbD p =
      hardBit s.cfg.num s.scr vs (8 * n + p)

theorem BlockContents.nil {s : State} (hbits : s.bits = 0) (hwf : Memory.wf 0 s.blkd = true) : BlockContents s [] s :=
  ⟨hwf, fun p _ => by simp [hbits], nofun⟩

section
variable {s t : State} {vs : List Scalar} (h : BlockContents s vs t) (hprogress : BlockProgress s vs.length t)
include h hprogress

/-- The byte in progress after one more bit. -/
theorem BlockContents.byte_bitTaken (v : Scalar) {p : Nat} (hp : p < 8) :
    (bitTaken v t).bits.getLsbD p =
      (decide (p ≤ vs.length % 8) && hardBit s.cfg.num s.scr (vs ++ [v]) (8 * (vs.length / 8) + p)) := by
  have hsplit := Nat.div_add_mod vs.length 8
  rw [bitTaken_bits_getLsbD v t hp, h.byte p hp, hprogress.nbits, hprogress.cfg_eq, hprogress.scr]
  rcases lt_trichotomy p (vs.length % 8) with hlt | heq | hgt
  · simp [hlt, hlt.ne, hlt.le, hardBit_append_of_lt _ _ vs v (show 8 * (vs.length / 8) + p < vs.length by omega)]
  · simp [heq, hsplit, hardBit_append_length]
  · simp [hgt.not_gt, hgt.ne', hgt.not_ge]

/-- A stored byte is not touched by a bit, and one that the bit finishes is stored at its own cell. -/
theorem BlockContents.handle (hgeometry : geometryAccepted s.nbrow s.nbbyte)
    (hk : vs.length < 8 * blockBytes s.nbrow.toNat s.nbbyte.toNat) (v : Scalar) :
    BlockContents s (vs ++ [v]) (bitHandled v t) := by
  have hnbits := hprogress.nbits
  have hlength : (vs ++ [v]).length = vs.length + 1 := by simp
  have hblkd : (bitTaken v t).blkd = t.blkd := by rw [bitTaken_eq]
  have hold {n p : Nat} (hn : n < vs.length / 8) (hp : p < 8) :
      (blkdAt (bitTaken v t) (cellOfByte s.nbrow s.nbbyte n).1.toNat (cellOfByte s.nbrow s.nbbyte n).2.toNat).getLsbD p =
        hardBit s.cfg.num s.scr (vs ++ [v]) (8 * n + p) := by
    rw [hardBit_append_of_lt _ _ vs v (by omega), ← h.stored n p hn hp, blkdAt, hblkd, blkdAt]
  rcases Nat.lt_or_ge (vs.length % 8) 7 with hmore | hlast
  · have hsame : (vs.length + 1) / 8 = vs.length / 8 := by omega
    rw [bitHandled_of_lt (by omega)]
    refine ⟨by rw [hblkd]; exact h.wf, fun p hp => ?_, fun n p hn => hold (by omega)⟩
    have hcount : p < (vs.length + 1) % 8 ↔ p ≤ vs.length % 8 := by omega
    rw [h.byte_bitTaken hprogress v hp, hlength, hsame, decide_eq_decide.2 hcount]
  · have hnext : (vs.length + 1) / 8 = vs.length / 8 + 1 := by omega
    have hcol : (bitTaken v t).col.toNat < 255 := by
      have hinside := cellOfByte_inside hgeometry (n := vs.length / 8) (by omega)
      rw [hprogress.bitTaken_col]
      omega
    rw [bitHandled_of_last (by omega)]
    refine ⟨Memory.wf_write (by rw [hblkd]; exact h.wf), fun p _ => ?_, fun n p hn hp => ?_⟩
    · have hempty : ¬p < (vs ++ [v]).length % 8 := by omega
      rw [decide_eq_false hempty]
      exact BitVec.getLsbD_zero
    · have hin := cellOfByte_inside hgeometry (n := n) (by omega)
      show (blkdAt (byteStored (bitTaken v t)) _ _).getLsbD p = _
      rw [blkdAt_byteStored (by rw [hblkd]; exact h.wf) hcol (by omega), hprogress.bitTaken_row, hprogress.bitTaken_col]
      rcases Nat.lt_or_eq_of_le (show n ≤ vs.length / 8 by omega) with hlt | rfl
      · rw [if_neg (cellOfByte_ne hgeometry hlt (by omega))]
        exact hold hlt hp
      · rw [if_pos ⟨rfl, rfl⟩, h.byte_bitTaken hprogress v hp, decide_eq_true (by omega), Bool.true_and]

end

/-! ### All the bits of a block (44_block.md R215) -/

/-- Up to its last bit a block is assembled bit by bit, and with the last it is dispatched. -/
theorem runBits_in_block {s : State} {vs : List Scalar} (hstate : s.state = .data) (hnbits : s.nbits = 0) (hrow : s.row = 0)
    (hcol : s.col = 0) (hgeometry : geometryAccepted s.nbrow s.nbbyte)
    (hlen : vs.length ≤ 8 * blockBytes s.nbrow.toNat s.nbbyte.toNat) :
    ∃ t, runBits vs s =
        .next (if vs.length = 8 * blockBytes s.nbrow.toNat s.nbbyte.toNat then dispatched t else t) ∧
      BlockProgress s vs.length t ∧ (s.bits = 0 → Memory.wf 0 s.blkd = true → BlockContents s vs t) := by
  induction vs using List.reverseRecOn with
  | nil =>
    have hpos := blockBytes_pos hgeometry
    refine ⟨s, ?_, .zero hnbits hrow hcol, .nil⟩
    rw [if_neg (by rw [List.length_nil]; omega)]
    rfl
  | append_singleton vs v ih =>
    rw [List.length_append, List.length_singleton] at hlen ⊢
    obtain ⟨t, hrun, hprogress, hcontents⟩ := ih (by omega)
    rw [if_neg (by omega)] at hrun
    refine ⟨bitHandled v t, ?_, hprogress.handle v,
      fun hbits hwf => (hcontents hbits hwf).handle hprogress hgeometry hlen v⟩
    rw [runBits_append_singleton, hrun]
    exact hprogress.execPutbit_eq hgeometry hlen hstate v

/-! ### From the invariant no operation stops (44_block.md R216, 60_exceptions.md R230) -/

/-- The cell that the invariant gives the next byte is inside the matrices (20_memory.md R64). -/
theorem SafeState.cell_inside {s : State} (h : SafeState s) (hstate : s.state = .data) :
    s.row.toNat < 65 ∧ s.col.toNat < 255 := by
  obtain ⟨⟨-, hrows, -, -⟩, hrow, hcol⟩ := h.block hstate
  exact ⟨by omega, by omega⟩

theorem execSclk_answers {s : State} (h : SafeState s) : ∃ t, execSclk s = .next t := by
  have hclk : s.clk.toNat < 8 := h.clk_lt
  rcases Nat.lt_or_eq_of_le (Nat.le_of_lt_succ hclk) with hmore | hlast
  · exact ⟨_, execSclk_of_lt hmore⟩
  · obtain ⟨t, -, -, -, ht, -⟩ :=
      demodDeliversThreeBitsAndRetainsThePhase { s with clk := 0 } h.cell_inside
    exact ⟨t, (execSclk_of_last hlast).trans ht⟩

theorem execFdisp_answers {s : State} (h : SafeState s) : ∃ t, execFdisp s = .next t := by
  by_cases hidle : s.state = .idle
  · rw [execFdisp_of_idle hidle]
    exact execSync_completes s
  · rw [execFdisp_of_locked hidle]
    exact execSclk_answers h

/-- On a tick every operation before FDISP keeps the invariant, which then lets FDISP answer. -/
theorem execStep_answers {s : State} (h : InStep s) : ∃ t, execStep s = .next t := by
  obtain ⟨hskip, htick, -⟩ := stepFollowsTheSchedule s
  obtain hdec | hdec : s.dec = 0 ∨ s.dec = 1 := by bv_omega
  · obtain ⟨hwfInbuf, -⟩ := h.safe.memories
    obtain ⟨t, ht, -⟩ := hskip hwfInbuf hdec
    exact ⟨t, ht⟩
  · obtain ⟨a, b, c, u, ha, hb, hc, hu, -, -, heq⟩ := htick hdec h.safe.off_lt
    have hsafe := execPhase_gives (execMfilt_gives (execDtick_gives (execSpush_gives h a ha) b hb) c hc) u hu
    obtain ⟨t, ht⟩ := execFdisp_answers hsafe.safe
    exact ⟨t, heq.trans ht⟩

theorem execPutbit_answers {s : State} (h : SafeState s) : ∃ t, execPutbit s = .next t := by
  have hroom : RoomFor 1 s := fun hstate => .inl (h.cell_inside hstate)
  obtain ⟨t, ht, -⟩ := execPutbit_withRawBit_completes (Nat.zero_lt_succ 7) hroom s.wires.sv
  exact ⟨t, ht⟩

/-! ### The statements -/

/-- Settles O59: by the kind of the line (`stepRunsTheInstructionOfTheNextLine`); RESET and a line of the FEC decoder always
answer, STEP and PUTBIT do from the invariant. -/
theorem stepNeverStopsFromTheInvariant : Obligations.StepNeverStopsFromTheInvariant := by
  unfold Obligations.StepNeverStopsFromTheInvariant
  intro s line rest h hq hhardware hfinite
  obtain ⟨-, -, hsample, hreset, hputbit, hfec, -⟩ := stepRunsTheInstructionOfTheNextLine s rest
  match line, hhardware, hfinite with
  | .reset, _, _ => exact ⟨_, hreset hq⟩
  | .sample .nonFinite _ _, _, hfinite => exact absurd rfl hfinite.1
  | .sample (.finite _) .nonFinite _, _, hfinite => exact absurd rfl hfinite.2
  | .sample (.finite re) (.finite im) now, _, _ =>
    obtain ⟨t, ht⟩ := execStep_answers (.start (t := withSample ⟨re, im⟩ now (takeLine rest s)) h rfl rfl)
    exact ⟨_, (hsample re im now hq).trans (congrArg (Res.andThen · _) ht)⟩
  | .fec .nonFinite _, _, hfinite => exact absurd rfl hfinite
  | .fec (.finite vp) bits, _, _ => exact ⟨_, hfec vp bits hq⟩
  | .putbit v, _, _ =>
    obtain ⟨t, ht⟩ := execPutbit_answers (h.of_unseen
      (t := { takeLine rest s with wires := { Wires.none with sv := v } }) rfl)
    exact ⟨_, (hputbit v hq).trans (congrArg (Res.andThen · _) ht)⟩

/-- Settles O46: the state with the bit taken in is `takeBit`; the count decides what follows (`execDatabit_of_lt`,
`execDatabit_of_last`). -/
theorem databitAssemblesTheByte : Obligations.DatabitAssemblesTheByte := by
  unfold Obligations.DatabitAssemblesTheByte
  intro s hcount
  refine ⟨takeBit s, ?_, fun p => takeBit_bits_getLsbD s, takeBit_pr_of_one, takeBit_pr_of_zero, fun hexact => ?_,
    by rw [takeBit_eq], execDatabit_of_lt, fun hlast hrow hcol => ?_⟩
  · rw [takeBit_nbits, nbits_succ (by omega)]
  · have hpr := takeBit_pr_toReal hexact
    refine ⟨hardOne_iff hexact _, fun habove => ?_, fun hbelow => ?_, fun hpr0 hv0 hv1 =>
      takeBit_pr_range hexact hpr0 ⟨hv0, hv1⟩⟩
    · rw [hpr, if_pos habove]
    · rw [hpr, if_neg (not_lt.2 hbelow)]
  · obtain ⟨hrow', hcol'⟩ : (takeBit s).row.toNat < 65 ∧ (takeBit s).col.toNat < 255 := by
      rw [takeBit_eq]; exact ⟨hrow, hcol⟩
    have hrun := (execDatabit_of_last hlast).trans (finishByte_of_inside hrow' hcol')
    exact ⟨_, _, byteFinished (takeBit s), execBstore_of_inside hrow' hcol', execBadv_eq _, execBdone_eq _,
      fun hdone => hrun.trans (if_pos hdone), fun hmore => hrun.trans (if_neg (ne_true_of_eq_false hmore))⟩

/-- Settles O47: `blkdAt_byteStored` and `blkpAt_byteStored`. -/
theorem bstoreStoresTheByteAndItsConfidence : Obligations.BstoreStoresTheByteAndItsConfidence := by
  unfold Obligations.BstoreStoresTheByteAndItsConfidence
  exact fun s hwfD hwfP hrow hcol => ⟨_, execBstore_of_inside hrow hcol, fun r c => blkdAt_byteStored hwfD hcol,
    fun r c => blkpAt_byteStored hwfP hcol, rfl, rfl, rfl, rfl⟩

/-- Settles O48: the two cases of `advance`, and the two of `nextCol` when the column is left. -/
theorem badvAdvancesRowAndColumn : Obligations.BadvAdvancesRowAndColumn := by
  unfold Obligations.BadvAdvancesRowAndColumn
  intro s hrow hcol
  refine ⟨advanced s, execBadv_eq s, fun hleaves => ?_, fun hstays => ?_, rfl⟩
  · have hnext : advance s.nbrow s.nbbyte s.row s.col = (0, nextCol s.nbrow s.nbbyte s.col) := advance_of_leaves hrow hleaves
    exact ⟨congrArg Prod.fst hnext, fun hjump => (congrArg Prod.snd hnext).trans (nextCol_of_jump hcol hjump),
      fun hno => (congrArg (·.2.toNat) hnext).trans (toNat_nextCol hcol hno)⟩
  · have hnext : advance s.nbrow s.nbbyte s.row s.col = (s.row + 1, s.col) := advance_of_stays hrow hstays
    exact ⟨(congrArg (·.1.toNat) hnext).trans (toNat_row_add_one hrow), congrArg Prod.snd hnext⟩

/-- Settles O49: with at least one row, `row + 1 = nbrow` is `row = nbrow - 1`. -/
theorem bdoneTestsCompletion : Obligations.BdoneTestsCompletion := by
  unfold Obligations.BdoneTestsCompletion
  intro s hrows
  refine ⟨_, execBdone_eq s, ?_, rfl⟩
  have hlast : s.row.toNat + 1 = s.nbrow.toNat ↔ s.row.toNat = s.nbrow.toNat - 1 := by omega
  simp only [completionTested, blockComplete, nCol, Bool.or_eq_true, Bool.and_eq_true, decide_eq_true_eq, hlast]

/-- Settles O50: the two outputs are appended in order (`dispatched_out`), and TOIDLE is `toIdle`. -/
theorem dispatchEmitsTheBlockAndReturnsToIdle : Obligations.DispatchEmitsTheBlockAndReturnsToIdle := by
  unfold Obligations.DispatchEmitsTheBlockAndReturnsToIdle
  exact fun s => ⟨⟨_, execDispatch_eq s, dispatched_out s, rfl, rfl, rfl⟩, ⟨_, rfl, rfl, rfl, rfl⟩⟩

/-- Settles O51: the n-th cell is the one of rank n in column order (`cellOfByte_cellOfRank`), the rank determines the cell and
ascends with it, and N(R, B) is the rank of the end. -/
theorem blockCellsAreTheWrittenSet : Obligations.BlockCellsAreTheWrittenSet := by
  unfold Obligations.BlockCellsAreTheWrittenSet
  intro nbrow nbbyte hgeometry
  have ⟨hrows, _, hbytes, _⟩ := hgeometry
  have hcell {n : Nat} (hn : n ≤ blockBytes nbrow.toNat nbbyte.toNat) := cellOfByte_cellOfRank hgeometry hn
  have hcomplete {n : Nat} (hn : n ≤ blockBytes nbrow.toNat nbbyte.toNat) := blockComplete_cellOfByte_iff hgeometry hn
  refine ⟨fun n hn => ?_, (hcomplete le_rfl).2 rfl, ?_, fun m n hmn hn => ?_, fun r c hwritten => ?_⟩
  · obtain ⟨hrow, hcol⟩ := cellOfByte_inside hgeometry hn
    exact ⟨(writtenCell_iff hbytes).2 (cellOfByte_written hgeometry hn), hrow, hcol,
      fun _ => Bool.eq_false_iff.2 fun hdone => hn.ne ((hcomplete hn.le).1 hdone)⟩
  · obtain ⟨hend, hendCol⟩ := (hcell le_rfl).at_end hrows hbytes
    rw [hend, hendCol, columnHeight_endColumn hbytes]
    have hclass := overheadCols_cases nbbyte.toNat
    unfold endColumn
    split_ifs with hfew
    · rfl
    · have hlastCol : 249 + overheadCols nbbyte.toNat = 255 := by omega
      rw [hlastCol]
  · exact ((hcell (hmn.trans hn).le).ascending (hcell hn.le) hmn).imp_right
      fun ⟨hcol, hrow⟩ => ⟨BitVec.eq_of_toNat_eq hcol, hrow⟩
  · have hbelow := (writtenCell_iff hbytes).1 hwritten
    have hn := rank_lt_blockBytes hrows hbytes hbelow
    exact ⟨_, hn, (hcell hn.le).unique ⟨rfl, .inl hbelow⟩ (cellOfByte_written hgeometry hn) hbelow⟩

/-- Settles O52: the counters and the outputs by `runBits_in_block`; the BLOCK carries what BLKD and BLKP hold at the dispatch,
which does not write them. -/
theorem blockIsDispatchedAfterItsBits : Obligations.BlockIsDispatchedAfterItsBits := by
  unfold Obligations.BlockIsDispatchedAfterItsBits
  intro s vs hstate hnbits hrow hcol hgeometry
  refine ⟨fun hlt => ?_, fun hall => ?_⟩
  · obtain ⟨t, hrun, hprogress, -⟩ := runBits_in_block hstate hnbits hrow hcol hgeometry hlt.le
    rw [if_neg hlt.ne] at hrun
    exact ⟨t, hrun, hprogress.state_eq.trans hstate, hprogress.out_eq, hprogress.nbits, Prod.ext hprogress.row hprogress.col⟩
  · obtain ⟨t, hrun, hprogress, -⟩ := runBits_in_block hstate hnbits hrow hcol hgeometry hall.le
    have hbytes : vs.length / 8 = blockBytes s.nbrow.toNat s.nbbyte.toNat := by omega
    rw [if_pos hall] at hrun
    refine ⟨dispatched t, hrun, rfl, rfl, hbytes ▸ Prod.ext hprogress.row hprogress.col, ?_⟩
    rw [dispatched_out, hprogress.out_eq, hprogress.nbrow_eq, hprogress.nbbyte_eq, hprogress.tstamp_eq]
    rfl

/-- Settles O53: `BlockContents` after the last bit; the dispatch does not write BLKD. -/
theorem dispatchedBlockHoldsTheDescrambledBits : Obligations.DispatchedBlockHoldsTheDescrambledBits := by
  unfold Obligations.DispatchedBlockHoldsTheDescrambledBits
  intro s vs hstate hnbits hbits hrow hcol hgeometry hwf hall
  obtain ⟨t, hrun, -, hcontents⟩ := runBits_in_block hstate hnbits hrow hcol hgeometry hall.le
  rw [if_pos hall] at hrun
  exact ⟨dispatched t, hrun, fun n p hn hp => (hcontents hbits hwf).stored n p (by omega) hp⟩

end Sys2Proof.Machine
end

/-! ## The proofs of 60_exceptions.md: the transitions of a step

SUPPORT. What the bits of a step do to the mode and the EVENTs is one relation with four cases (`BitTransition`): nothing, a
failure, the acceptance of a header, the dispatch of a block. One PUTBIT is in it, and it is closed under further bits: after a
failure or a dispatch they are dropped, and after an acceptance they are too few for a byte (R242). Sync acquisition adds the one
case of a step that begins in IDLE (`Acquires`). -/

section
namespace Sys2Proof.Machine

/-! ### The EVENTs of a step (30_encoding.md R95) -/

theorem eventsOf_append (o p : List Output) : eventsOf (o ++ p) = eventsOf o ++ eventsOf p := List.filterMap_append

/-- From `s` to `t` no transition is taken and no EVENT emitted, and what a BLOCK would report is as before. -/
structure Unmoved (s t : State) : Prop where
  state : t.state = s.state
  events : eventsOf t.out = eventsOf s.out
  nbrow : t.nbrow = s.nbrow
  nbbyte : t.nbbyte = s.nbbyte
  tstamp : t.tstamp = s.tstamp

theorem Unmoved.trans {s t u : State} (h : Unmoved s t) (h' : Unmoved t u) : Unmoved s u :=
  ⟨h'.state.trans h.state, h'.events.trans h.events, h'.nbrow.trans h.nbrow, h'.nbbyte.trans h.nbbyte,
    h'.tstamp.trans h.tstamp⟩

theorem unmoved_takeBit (s : State) : Unmoved s (takeBit s) := by
  rw [takeBit_eq]
  exact ⟨rfl, rfl, rfl, rfl, rfl⟩

theorem unmoved_bitPushed (s : State) : Unmoved s (bitPushed s) :=
  ⟨rfl, (eventsOf_append _ _).trans (List.append_nil _), rfl, rfl, rfl⟩

theorem unmoved_byteFinished (s : State) : Unmoved s (byteFinished s) := ⟨rfl, rfl, rfl, rfl, rfl⟩

theorem unmoved_bitTaken (v : Scalar) (s : State) : Unmoved s (bitTaken v s) := by
  rw [bitTaken_eq]
  exact ⟨rfl, rfl, rfl, rfl, rfl⟩

theorem execHdrbit_eq (s : State) : execHdrbit s =
    if (s.nbits + 1).toNat = hdrBits then execHdrfin (bitPushed s) else .next (bitPushed s) := rfl

/-! ### The transitions that bits take (60_exceptions.md R241) -/

/-- From `s` to `t` bits take at most one transition, which emits its EVENT; after an acceptance there is room for `k` more bits
in the byte. -/
inductive BitTransition (k : Nat) (s t : State) : Prop
  | stays (h : Unmoved s t)
  | fails (e : Event) (hfrom : s.state = .header) (hto : t.state = .idle) (he : e.isFailure = true)
      (hevents : eventsOf t.out = eventsOf s.out ++ [e])
  | accepts (len : BitVec 17) (hfrom : s.state = .header) (hto : t.state = .data)
      (hevents : eventsOf t.out = eventsOf s.out ++ [.hdrOk len t.nbrow t.nbbyte]) (hroom : t.nbits.toNat + k < 8)
  | dispatches (blkd : Memory Byte) (blkp : Memory Scalar) (hfrom : s.state = .data) (hto : t.state = .idle)
      (hevents : eventsOf t.out = eventsOf s.out ++ [.blockDone])
      (hblock : Output.block s.nbrow s.nbbyte blkd blkp s.tstamp ∈ t.out)

theorem BitTransition.after {k : Nat} {s t u : State} (htu : BitTransition k t u) (h : Unmoved s t) : BitTransition k s u := by
  obtain ⟨hstate, hsame, hnbrow, hnbbyte, htstamp⟩ := h
  cases htu with
  | stays h' => exact .stays (Unmoved.trans ⟨hstate, hsame, hnbrow, hnbbyte, htstamp⟩ h')
  | fails e hfrom hto he hevents => exact .fails e (hstate ▸ hfrom) hto he (hsame ▸ hevents)
  | accepts len hfrom hto hevents hroom => exact .accepts len (hstate ▸ hfrom) hto (hsame ▸ hevents) hroom
  | dispatches blkd blkp hfrom hto hevents hblock =>
    exact .dispatches blkd blkp (hstate ▸ hfrom) hto (hsame ▸ hevents) (by rwa [← hnbrow, ← hnbbyte, ← htstamp])

/-- Writes of the retained phase, the descrambler word and the temporaries do not show. -/
theorem BitTransition.of_unseen {k : Nat} {s t u : State} (h : BitTransition k s t)
    (hu : u = { t with prevph := u.prevph, scr := u.scr, wires := u.wires }) : BitTransition k s u := by
  rw [hu]
  cases h with
  | stays h => exact .stays ⟨h.state, h.events, h.nbrow, h.nbbyte, h.tstamp⟩
  | fails e hfrom hto he hevents => exact .fails e hfrom hto he hevents
  | accepts len hfrom hto hevents hroom => exact .accepts len hfrom hto hevents hroom
  | dispatches blkd blkp hfrom hto hevents hblock => exact .dispatches blkd blkp hfrom hto hevents hblock

/-- A check that fails in HDRFIN takes HEADER to IDLE with its EVENT (43_header.md R191). -/
theorem Asked.failed_transition {k : Nat} {s u : State} {e : Event} (h : Asked s u) (hstate : s.state = .header)
    (he : e.isFailure = true) : BitTransition k s (setOk false (raiseFailure e u)) := by
  rw [h.failed]
  exact .fails e hstate rfl he (eventsOf_append _ _)

/-- DISPATCH takes DATA to IDLE with the BLOCK and its EVENT (44_block.md R214). -/
theorem dispatched_transition {k : Nat} {s : State} (hstate : s.state = .data) : BitTransition k s (dispatched s) := by
  refine .dispatches s.blkd s.blkp hstate rfl ?_ ?_
  · rw [dispatched_out]
    exact eventsOf_append _ _
  · simp [dispatched_out]

/-- The end of a byte: the block is dispatched when it is complete (44_block.md R213). -/
theorem finishByte_transition {k : Nat} {s t : State} (hstate : s.state = .data) (hrun : finishByte s = .next t) :
    BitTransition k s t := by
  obtain ⟨_, htested, -⟩ := Res.andThen_eq_next.1 hrun
  obtain ⟨_, hadvanced, -⟩ := Res.andThen_eq_next.1 htested
  obtain ⟨_, hstored, -⟩ := Res.andThen_eq_next.1 hadvanced
  obtain ⟨⟨hrow, hcol⟩, -⟩ := execBstore_eq_next.1 hstored
  have hfinished := unmoved_byteFinished s
  rw [finishByte_of_inside hrow hcol] at hrun
  split at hrun
  · obtain rfl := Host.Outcome.next.inj hrun
    exact (dispatched_transition (hfinished.state.trans hstate)).after hfinished
  · obtain rfl := Host.Outcome.next.inj hrun
    exact .stays hfinished

theorem execDatabit_transition {k : Nat} {s t : State} (hstate : s.state = .data) (hrun : execDatabit s = .next t) :
    BitTransition k s t := by
  have htaken := unmoved_takeBit s
  rw [execDatabit_eq] at hrun
  split at hrun
  · exact (finishByte_transition (htaken.state.trans hstate) hrun).after htaken
  · obtain rfl := Host.Outcome.next.inj hrun
    exact .stays htaken

section
variable {k : Nat} (hk : k < 8) {s t : State}
include hk

theorem execHdrfin_transition (hstate : s.state = .header) (hrun : execHdrfin s = .next t) : BitTransition k s t := by
  have hfinalized := asked_fecFinalize s
  have hlength : Asked s (lengthRead s) := hfinalized.withWires _
  have hgeometry : Asked s (geometryRead s) := hlength.withWires _
  have hpassed : Asked s (setOk true (geometryRead s)) := hgeometry.withWires _
  rw [execHdrfin_eq] at hrun
  obtain rfl := Host.Outcome.next.inj hrun
  split_ifs
  · exact hfinalized.failed_transition hstate rfl
  · exact hlength.failed_transition hstate rfl
  · exact hgeometry.failed_transition hstate rfl
  · rw [hpassed.accepted]
    exact .accepts (geometryRead s).wires.len hstate rfl (eventsOf_append _ _) (by simpa using hk)

theorem execHdrbit_transition (hstate : s.state = .header) (hrun : execHdrbit s = .next t) : BitTransition k s t := by
  have hpushed := unmoved_bitPushed s
  rw [execHdrbit_eq] at hrun
  split at hrun
  · exact (execHdrfin_transition hk (hpushed.state.trans hstate) hrun).after hpushed
  · obtain rfl := Host.Outcome.next.inj hrun
    exact .stays hpushed

/-- One bit takes at most one transition (42_demod.md R180). -/
theorem execPutbit_transition (hrun : execPutbit s = .next t) : BitTransition k s t := by
  obtain ⟨u, hdescr, hu⟩ : ∃ u, execDescr s = .next u ∧ Unmoved s u := ⟨_, rfl, rfl, rfl, rfl, rfl, rfl⟩
  refine BitTransition.after ?_ hu
  cases hstate : u.state with
  | idle =>
    rw [execPutbit_of_idle hdescr hstate] at hrun
    obtain rfl := Host.Outcome.next.inj hrun
    exact .stays ⟨rfl, rfl, rfl, rfl, rfl⟩
  | header =>
    rw [execPutbit_of_header hdescr hstate] at hrun
    exact execHdrbit_transition hk hstate hrun
  | data =>
    rw [execPutbit_of_data hdescr hstate] at hrun
    exact execDatabit_transition hstate hrun

end

/-! ### The bits of a symbol (60_exceptions.md R242) -/

/-- A bit that arrives in IDLE is dropped (42_demod.md R179). -/
theorem execPutbit_in_idle {s u : State} {v : Scalar} (hstate : s.state = .idle) (hrun : execPutbit (withRawBit v s) = .next u) :
    u = { s with prevph := u.prevph, scr := u.scr, wires := u.wires } := by
  rw [execPutbit_of_idle (s := withRawBit v s) rfl hstate] at hrun
  obtain rfl := Host.Outcome.next.inj hrun
  rfl

/-- After the bits before it, one more bit takes a transition only if they took none: after a failure or a dispatch it is dropped,
after an acceptance it does not finish a byte. -/
theorem BitTransition.bit {k : Nat} (hk : k < 8) {s t u : State} {v : Scalar} (h : BitTransition (k + 1) s t)
    (hrun : execPutbit (withRawBit v t) = .next u) : BitTransition k s u := by
  cases h with
  | stays h =>
    have hraw : Unmoved t (withRawBit v t) := ⟨rfl, rfl, rfl, rfl, rfl⟩
    exact (execPutbit_transition hk hrun).after (h.trans hraw)
  | fails e hfrom hto he hevents =>
    exact .of_unseen (.fails e hfrom hto he hevents) (execPutbit_in_idle hto hrun)
  | dispatches blkd blkp hfrom hto hevents hblock =>
    exact .of_unseen (.dispatches blkd blkp hfrom hto hevents hblock) (execPutbit_in_idle hto hrun)
  | accepts len hfrom hto hevents hroom =>
    have hmoved := unmoved_bitTaken v t
    have hnbits : (bitTaken v t).nbits.toNat = t.nbits.toNat + 1 := by
      rw [bitTaken_eq]
      exact nbits_succ (by omega)
    rw [execPutbit_in_data hto, if_neg (by omega)] at hrun
    obtain rfl := Host.Outcome.next.inj hrun
    refine .accepts len hfrom (hmoved.state.trans hto) ?_ (by omega)
    rw [hmoved.events, hmoved.nbrow, hmoved.nbbyte, hevents]

theorem BitTransition.bits {vs : List Scalar} {k : Nat} (hk : k + vs.length ≤ 8) {s t u : State}
    (h : BitTransition (k + vs.length) s t) (hrun : runBits vs t = .next u) : BitTransition k s u := by
  induction vs generalizing t with
  | nil =>
    obtain rfl := Host.Outcome.next.inj hrun
    exact h
  | cons v vs ih =>
    obtain ⟨w, hbit, hrest⟩ := Res.andThen_eq_next.1 hrun
    exact ih (Nat.le_of_lt hk) (h.bit hk hbit) hrest

theorem execDemod_transition {s t : State} (hrun : execDemod s = .next t) : BitTransition 0 s t := by
  rw [execDemod_eq] at hrun
  obtain ⟨u, hput, hupd⟩ := Res.andThen_eq_next.1 hrun
  rw [putSymbol_eq_runBits] at hput
  have hdemapped : BitTransition 3 s (demapped s) := .stays ⟨rfl, rfl, rfl, rfl, rfl⟩
  obtain rfl := Host.Outcome.next.inj hupd
  exact (hdemapped.bits (by simp) hput).of_unseen rfl

theorem execSclk_transition {s t : State} (hrun : execSclk s = .next t) : BitTransition 0 s t := by
  unfold execSclk at hrun
  split at hrun
  · have hcleared : Unmoved s { s with clk := 0 } := ⟨rfl, rfl, rfl, rfl, rfl⟩
    exact (execDemod_transition hrun).after hcleared
  · obtain rfl := Host.Outcome.next.inj hrun
    exact .stays ⟨rfl, rfl, rfl, rfl, rfl⟩

/-! ### Sync acquisition and the sample (40_sample_filter.md R120, R125; 41_sync.md R140) -/

/-- Sync acquisition takes IDLE to HEADER, where SY.PEAK is true, and emits its EVENT. -/
structure Acquires (s t : State) : Prop where
  from_idle : s.state = .idle
  to_header : t.state = .header
  below : s.cfg.num.lt s.perr (.rat 4) = true
  rises : s.cfg.num.gt t.err s.perr = true
  events : ∃ fracOff clk off df, eventsOf t.out = eventsOf s.out ++ [.acq fracOff clk off df]

theorem execSync_transition {s t : State} (hstate : s.state = .idle) (hrun : execSync s = .next t) :
    BitTransition 0 s t ∨ Acquires s t := by
  obtain ⟨u, hu, -, -, hacquired, hshifted, -⟩ := syncAcquiresOrShifts s
  obtain rfl := Host.Outcome.next.inj (hu.symm.trans hrun)
  by_cases hpeak : s.cfg.num.lt s.perr (.rat 4) = true ∧ s.cfg.num.gt u.err s.perr = true
  · obtain ⟨-, hheader, -, -, -, -, -, -, -, -, -, -, -, hout⟩ := hacquired hpeak
    exact .inr ⟨hstate, hheader, hpeak.1, hpeak.2, _, _, _, _, by rw [hout]; exact eventsOf_append _ _⟩
  · obtain ⟨-, -, -, -, hframe⟩ := hshifted hpeak
    rw [hframe]
    exact .inl (.stays ⟨rfl, rfl, rfl, rfl, rfl⟩)

theorem execFdisp_transition {s t : State} (hrun : execFdisp s = .next t) : BitTransition 0 s t ∨ Acquires s t := by
  by_cases hidle : s.state = .idle
  · rw [execFdisp_of_idle hidle] at hrun
    exact execSync_transition hidle hrun
  · rw [execFdisp_of_locked hidle] at hrun
    exact .inl (execSclk_transition hrun)

/-- STEP without a tick ends after DTICK, and with one it goes on to FDISP; what comes before writes only the memories and indices
of the filter, `dec` and the temporaries. -/
theorem execStep_next_cases {s t : State} (hrun : execStep s = .next t) : ∃ u : State,
    u = { s with inbuf := u.inbuf, ink := u.ink, dec := u.dec, ph := u.ph, phidx := u.phidx, wires := u.wires } ∧
    (t = u ∨ s.dec = 1 ∧ execFdisp u = .next t) := by
  obtain ⟨b, hb, hframe, htick⟩ : ∃ b, (execSpush s).andThen execDtick = .next b ∧
      b = { s with inbuf := b.inbuf, ink := b.ink, dec := b.dec, wires := b.wires } ∧ b.wires.tick = s.dec :=
    ⟨_, rfl, rfl, rfl⟩
  rw [execStep, hb, Res.andThen_next, htick] at hrun
  split at hrun
  · exact ⟨b, by rw [hframe], .inl (Host.Outcome.next.inj hrun).symm⟩
  · next hdec =>
    obtain ⟨u, hphase, hfdisp⟩ := Res.andThen_eq_next.1 hrun
    obtain ⟨c, hmfilt, hc⟩ := Res.andThen_eq_next.1 hphase
    obtain ⟨-, rfl⟩ := execMfilt_eq_next.1 hmfilt
    obtain rfl := Host.Outcome.next.inj hc
    exact ⟨_, by rw [hframe], .inr ⟨by bv_omega, hfdisp⟩⟩

theorem execStep_transition {s t : State} (hrun : execStep s = .next t) :
    BitTransition 0 s t ∨ (s.dec = 1 ∧ Acquires s t) := by
  obtain ⟨u, hu, hlast⟩ := execStep_next_cases hrun
  have hmoved : Unmoved s u := by
    rw [hu]
    exact ⟨rfl, rfl, rfl, rfl, rfl⟩
  rcases hlast with rfl | ⟨hdec, hfdisp⟩
  · exact .inl (.stays hmoved)
  · refine (execFdisp_transition hfdisp).imp (·.after hmoved) fun ⟨hidle, hheader, hbelow, hrises, hevents⟩ => ⟨hdec, ?_⟩
    rw [hu] at hidle hbelow hrises hevents
    exact ⟨hidle, hheader, hbelow, hrises, hevents⟩

/-! ### Around the instruction of a step -/

section
variable {s u t : State} {rest : List Stimulus} (hu : u = { takeLine rest s with wires := u.wires })
include hu

/-- What an instruction does is what its step does: the operands put on the wires before it and the wires cleared after it do not
show. -/
theorem BitTransition.of_line (h : BitTransition 0 u t) :
    BitTransition 0 { s with out := [] } { t with wires := Wires.none } := by
  have hstart : Unmoved { s with out := [] } u := by
    rw [hu]
    exact ⟨rfl, rfl, rfl, rfl, rfl⟩
  exact (h.after hstart).of_unseen rfl

theorem Acquires.of_line (h : Acquires u t) : Acquires { s with out := [] } { t with wires := Wires.none } := by
  obtain ⟨hidle, hheader, hbelow, hrises, hevents⟩ := h
  rw [hu] at hidle hbelow hrises hevents
  exact ⟨hidle, hheader, hbelow, hrises, hevents⟩

end

/-! ### The statements -/

/-- Settles O5: the two refusals are those of the fetch of the line (`step_of_reject`); BSTORE and MFILT test their operands
first. -/
theorem stopsOutsideTheContract : Obligations.StopsOutsideTheContract := by
  unfold Obligations.StopsOutsideTheContract
  refine fun s => ⟨fun re im now rest hq hbad => step_of_reject hq ?_, fun bits rest hq => step_of_reject hq rfl,
    fun houtside => if_neg ?_, fun houtside => if_neg (Nat.not_lt.2 houtside)⟩
  · rcases hbad with rfl | rfl
    · rfl
    · cases re <;> rfl
  · simp only [maxRow, nCol]
    omega

/-- Settles O55: a PUTBIT and the bits of a SAMPLE take at most one transition (`execPutbit_transition`, `execStep_transition`), a
SAMPLE may acquire instead, and a line of the FEC decoder takes none. A step begins with no outputs. -/
theorem atMostOneTransitionPerStep : Obligations.AtMostOneTransitionPerStep := by
  unfold Obligations.AtMostOneTransitionPerStep
  intro s t line rest hq hhardware hreset hrun
  suffices h : BitTransition 0 { s with out := [] } t ∨ (s.dec = 1 ∧ Acquires { s with out := [] } t) by
    rcases h with hbits | ⟨hdec, hidle, hheader, hbelow, hrises, hevents⟩
    · cases hbits with
      | stays h => exact .inl ⟨h.state, h.events⟩
      | fails e hfrom hto he hevents => exact .inr (.inr (.inl ⟨hfrom, hto, e, he, hevents⟩))
      | accepts len hfrom hto hevents => exact .inr (.inr (.inr (.inl ⟨hfrom, hto, len, hevents⟩)))
      | dispatches blkd blkp hfrom hto hevents hblock =>
        exact .inr (.inr (.inr (.inr ⟨hfrom, hto, hevents, blkd, blkp, hblock⟩)))
    · exact .inr (.inl ⟨hidle, hheader, hdec, hbelow, hrises, hevents⟩)
  obtain ⟨-, -, hsample, -, hputbit, hfec, -⟩ := stepRunsTheInstructionOfTheNextLine s rest
  match line, hhardware, hreset with
  | .reset, _, hreset => exact absurd rfl hreset
  | .sample .nonFinite _ _, _, _ | .sample (.finite _) .nonFinite _, _, _ | .fec .nonFinite _, _, _ =>
    rw [step_of_reject hq rfl] at hrun
    cases hrun
  | .sample (.finite re) (.finite im) now, _, _ =>
    rw [hsample re im now hq] at hrun
    obtain ⟨u, hstep, hclear⟩ := Res.andThen_eq_next.1 hrun
    obtain rfl := Host.Outcome.next.inj hclear
    exact (execStep_transition hstep).imp (.of_line (rest := rest) rfl) (.imp_right (.of_line (rest := rest) rfl))
  | .putbit v, _, _ =>
    rw [hputbit v hq] at hrun
    obtain ⟨u, hbit, hclear⟩ := Res.andThen_eq_next.1 hrun
    obtain rfl := Host.Outcome.next.inj hclear
    exact .inl (.of_line (rest := rest) rfl (execPutbit_transition (Nat.zero_lt_succ 7) hbit))
  | .fec (.finite vp) bits, _, _ =>
    rw [hfec vp bits hq] at hrun
    obtain rfl := Host.Outcome.next.inj hrun
    exact .inl (.stays ⟨rfl, rfl, rfl, rfl, rfl⟩)

end Sys2Proof.Machine
end

/-! ## The proofs of 70_reset_and_hazards.md: RESET, and what no step changes

SUPPORT. RESET gives the machine after reset again, but for seven fields (`afterReset`). That the configuration is constant is said
of every instruction (`exec_cfg`). The bits of a symbol, in any mode but HEADER, keep the geometry and the timestamp and begin no
header (`Kept`), a relation that composes; the sample around them keeps what a block in progress has (`BlockKept`). -/

section
namespace Sys2Proof.Machine

/-! ### RESET (70_reset_and_hazards.md R260) -/

/-- The machine after reset, with what RESET leaves as it is in `s`: `tstamp`, the configuration and what stands outside the core. -/
def afterReset (s : State) : State :=
  { State.reset with
    tstamp := s.tstamp, cfg := s.cfg, fecWin := s.fecWin, fecNext := s.fecNext, inq := s.inq, out := s.out, wires := s.wires }

theorem execReset_eq (s : State) : execReset s = .next (afterReset s) := rfl

theorem afterReset_afterReset (s : State) : afterReset (afterReset s) = afterReset s := rfl

theorem afterReset_reset : afterReset State.reset = State.reset := rfl

theorem safeState_afterReset (s : State) : SafeState (afterReset s) := execReset_gives s _ (execReset_eq s)

/-- Settles O6: the fields of `afterReset`; a memory without entries reads as its default everywhere. -/
theorem resetBringsTheInitialContext : Obligations.ResetBringsTheInitialContext := by
  unfold Obligations.ResetBringsTheInitialContext
  intro s
  have hinbuf (i : Nat) : inbufAt (afterReset s) i = ⟨.zero, .zero⟩ := rfl
  have hph (j : Nat) : phAt (afterReset s) j = .zero := rfl
  have hblkd (r c : Nat) : blkdAt (afterReset s) r c = 0 := rfl
  have hblkp (r c : Nat) : blkpAt (afterReset s) r c = .zero := rfl
  exact ⟨afterReset s, execReset_eq s, rfl, rfl, rfl, rfl, rfl, rfl, rfl, rfl, rfl, rfl, rfl, rfl, rfl, rfl, rfl, rfl, rfl, rfl,
    rfl, rfl, rfl, hinbuf, hph, hblkd, hblkp, rfl, rfl, rfl⟩

/-- Settles O7: `afterReset` takes seven fields from the state, and is its own RESET. -/
theorem resetLeavesTheOutsideAlone : Obligations.ResetLeavesTheOutsideAlone := by
  unfold Obligations.ResetLeavesTheOutsideAlone
  intro s
  have hagain : execReset (afterReset s) = .next (afterReset s) := by rw [execReset_eq, afterReset_afterReset]
  exact ⟨afterReset s, execReset_eq s, hagain, rfl, rfl, rfl, rfl, rfl⟩

/-- Settles O58: RESET gives the invariant from every state (`execReset_gives`), and the machine after reset is its own RESET. -/
theorem resetHasTheInvariant : Obligations.ResetHasTheInvariant := by
  unfold Obligations.ResetHasTheInvariant
  have hreset := safeState_afterReset State.reset
  rw [afterReset_reset] at hreset
  exact ⟨hreset, execReset_gives⟩

/-! ### What the bits of a symbol keep (43_header.md R197, 44_block.md R210 to R214) -/

/-- From `s` to `t` the configuration is constant, and from any mode but HEADER no header begins and what a BLOCK would report of
its geometry and time is as before. -/
structure Kept (s t : State) : Prop where
  cfg : t.cfg = s.cfg
  block : s.state ≠ .header → t.state ≠ .header ∧ t.nbrow = s.nbrow ∧ t.nbbyte = s.nbbyte ∧ t.tstamp = s.tstamp

theorem Kept.trans {s t u : State} (h : Kept s t) (h' : Kept t u) : Kept s u := by
  refine ⟨h'.cfg.trans h.cfg, fun hmode => ?_⟩
  obtain ⟨hmode', hnbrow, hnbbyte, htstamp⟩ := h.block hmode
  obtain ⟨hmode'', hnbrow', hnbbyte', htstamp'⟩ := h'.block hmode'
  exact ⟨hmode'', hnbrow'.trans hnbrow, hnbbyte'.trans hnbbyte, htstamp'.trans htstamp⟩

/-- Writes of the symbol clock, of the retained phase and of the bits of a byte do not show. -/
theorem Kept.of_unseen {s t : State} (h : t = { s with
    clk := t.clk, prevph := t.prevph, scr := t.scr, pr := t.pr, nbits := t.nbits, bits := t.bits, row := t.row, col := t.col
    blkd := t.blkd, blkp := t.blkp, wires := t.wires }) : Kept s t := by
  rw [h]
  exact ⟨rfl, fun hmode => ⟨hmode, rfl, rfl, rfl⟩⟩

theorem Kept.before {s t : State} {r : Res} (h : Kept s t) (hr : r.Gives (Kept t)) : r.Gives (Kept s) :=
  fun u hu => h.trans (hr u hu)

theorem Res.Gives.andThen_kept {s : State} {r : Res} {f : State → Res} (hr : r.Gives (Kept s))
    (hf : ∀ t, (f t).Gives (Kept t)) : (r.andThen f).Gives (Kept s) :=
  hr.andThen fun t ht => ht.before (hf t)

theorem takeBit_kept (s : State) : Kept s (takeBit s) := .of_unseen (by rw [takeBit_eq])

/-- TOIDLE, and with it DISPATCH, ends a block and leaves its geometry. -/
theorem dispatched_kept (s : State) : Kept s (dispatched s) := ⟨rfl, fun _ => ⟨nofun, rfl, rfl, rfl⟩⟩

theorem execBstore_kept (s : State) : (execBstore s).Gives (Kept s) := by
  intro t ht
  obtain ⟨-, rfl⟩ := execBstore_eq_next.1 ht
  exact .of_unseen rfl

theorem execBadv_kept (s : State) : (execBadv s).Gives (Kept s) :=
  Res.gives_next.2 (.of_unseen rfl)

theorem execBdone_kept (s : State) : (execBdone s).Gives (Kept s) :=
  Res.gives_next.2 (.of_unseen rfl)

theorem finishByte_kept (s : State) : (finishByte s).Gives (Kept s) := by
  refine (((execBstore_kept s).andThen_kept execBadv_kept).andThen_kept execBdone_kept).andThen_kept fun t => ?_
  split
  · exact Res.gives_next.2 (dispatched_kept t)
  · exact Res.gives_next.2 (.of_unseen rfl)

theorem execDatabit_kept (s : State) : (execDatabit s).Gives (Kept s) := by
  have htaken := takeBit_kept s
  rw [execDatabit_eq]
  split
  · exact htaken.before (finishByte_kept _)
  · exact Res.gives_next.2 htaken

theorem Asked.cfg_eq {s u : State} (h : Asked s u) : u.cfg = s.cfg := by rw [h]

theorem failed_cfg (e : Event) (s : State) : (setOk false (raiseFailure e s)).cfg = s.cfg := rfl

theorem accepted_cfg (s : State) : (accepted s).cfg = s.cfg := rfl

/-- None of the four outcomes of HDRFIN changes the configuration. -/
theorem execHdrfin_cfg (s : State) : (execHdrfin s).Gives fun t => t.cfg = s.cfg := by
  have hfinalized := asked_fecFinalize s
  have hlength : Asked s (lengthRead s) := hfinalized.withWires _
  have hgeometry : Asked s (geometryRead s) := hlength.withWires _
  have hpassed : Asked s (setOk true (geometryRead s)) := hgeometry.withWires _
  rw [execHdrfin_eq, Res.gives_next]
  split_ifs
  · exact (failed_cfg _ _).trans hfinalized.cfg_eq
  · exact (failed_cfg _ _).trans hlength.cfg_eq
  · exact (failed_cfg _ _).trans hgeometry.cfg_eq
  · exact (accepted_cfg _).trans hpassed.cfg_eq

theorem execHdrbit_cfg (s : State) : (execHdrbit s).Gives fun t => t.cfg = s.cfg := by
  rw [execHdrbit_eq]
  split
  · exact execHdrfin_cfg (bitPushed s)
  · exact Res.gives_next.2 rfl

/-- HEADER is the only mode from which a bit can begin a block. -/
theorem execPutbit_kept (s : State) : (execPutbit s).Gives (Kept s) := by
  have hdescr : (execDescr s).Gives (Kept s) := Res.gives_next.2 (.of_unseen rfl)
  refine hdescr.andThen_kept fun t => ?_
  cases hmode : t.state with
  | idle => exact Res.gives_next.2 (.of_unseen rfl)
  | header => exact fun u hu => ⟨execHdrbit_cfg t u hu, fun h => absurd hmode h⟩
  | data => exact execDatabit_kept t

theorem runBits_kept (vs : List Scalar) (s : State) : (runBits vs s).Gives (Kept s) := by
  induction vs generalizing s with
  | nil => exact Res.gives_next.2 (.of_unseen rfl)
  | cons v vs ih =>
    have hraw : Kept s (withRawBit v s) := .of_unseen rfl
    exact (hraw.before (execPutbit_kept _)).andThen_kept ih

theorem execDemod_kept (s : State) : (execDemod s).Gives (Kept s) := by
  have hdemapped : Kept s (demapped s) := .of_unseen rfl
  rw [execDemod_eq, putSymbol_eq_runBits]
  exact (hdemapped.before (runBits_kept _ _)).andThen_kept fun t => Res.gives_next.2 (.of_unseen rfl)

theorem execSclk_kept (s : State) : (execSclk s).Gives (Kept s) := by
  have hcleared : Kept s { s with clk := 0 } := .of_unseen rfl
  unfold execSclk
  split
  · exact hcleared.before (execDemod_kept _)
  · exact Res.gives_next.2 (.of_unseen rfl)

/-! ### What a sample keeps (40_sample_filter.md R120, R125) -/

/-- From `s` to `t` the configuration is constant, and so are the geometry and the timestamp of a block in progress. -/
structure BlockKept (s t : State) : Prop where
  cfg : t.cfg = s.cfg
  block : s.state = .data → t.nbrow = s.nbrow ∧ t.nbbyte = s.nbbyte ∧ t.tstamp = s.tstamp

theorem Kept.blockKept {s t : State} (h : Kept s t) : BlockKept s t :=
  ⟨h.cfg, fun hdata => (h.block (by rw [hdata]; nofun)).2⟩

theorem execSync_cfg (s : State) : (execSync s).Gives fun t => t.cfg = s.cfg := by
  obtain ⟨w, -, -, hrun⟩ := execSync_eq_fitted s
  rw [hrun]
  split
  · exact Res.gives_next.2 rfl
  · exact Res.gives_next.2 rfl

/-- Sync acquisition runs in IDLE only, where no block is in progress. -/
theorem execSync_blockKept {s : State} (hidle : s.state = .idle) : (execSync s).Gives (BlockKept s) :=
  fun t ht => ⟨execSync_cfg s t ht, fun hdata => nomatch hidle.symm.trans hdata⟩

theorem execFdisp_blockKept (s : State) : (execFdisp s).Gives (BlockKept s) := by
  by_cases hidle : s.state = .idle
  · rw [execFdisp_of_idle hidle]
    exact execSync_blockKept hidle
  · rw [execFdisp_of_locked hidle]
    exact fun t ht => (execSclk_kept s t ht).blockKept

theorem execStep_blockKept (s : State) : (execStep s).Gives (BlockKept s) := by
  intro t ht
  obtain ⟨u, hu, rfl | ⟨-, hfdisp⟩⟩ := execStep_next_cases ht
  · rw [hu]
    exact ⟨rfl, fun _ => ⟨rfl, rfl, rfl⟩⟩
  · have hkept := execFdisp_blockKept u t hfdisp
    rw [hu] at hkept
    exact ⟨hkept.cfg, hkept.block⟩

/-! ### The configuration under every instruction (70_reset_and_hazards.md R261) -/

theorem check_cfg (fails : Bool) (e : Event) (s : State) : (check fails e s).cfg = s.cfg := by
  rcases check_cases fails e s with ⟨-, heq⟩ | ⟨-, heq⟩
  · rw [heq, failed_cfg]
  · rw [heq]; rfl

/-- No instruction writes the configuration. Most have one next state, in which that shows at once. -/
theorem exec_cfg (i : Instr) (s : State) : Res.Gives (exec i s) fun t => t.cfg = s.cfg := by
  cases i with
  | mfilt =>
    intro t ht
    obtain ⟨-, rfl⟩ := execMfilt_eq_next.1 ht
    rfl
  | bstore => exact fun t ht => (execBstore_kept s t ht).cfg
  | databit => exact fun t ht => (execDatabit_kept s t ht).cfg
  | hdConf | hdShort | hdLong => exact Res.gives_next.2 (check_cfg _ _ s)
  | hdrfin => exact execHdrfin_cfg s
  | hdrbit => exact execHdrbit_cfg s
  | putbit => exact fun t ht => (execPutbit_kept s t ht).cfg
  | demod => exact fun t ht => (execDemod_kept s t ht).cfg
  | sclk => exact fun t ht => (execSclk_kept s t ht).cfg
  | sync => exact execSync_cfg s
  | fdisp => exact fun t ht => (execFdisp_blockKept s t ht).cfg
  | step => exact fun t ht => (execStep_blockKept s t ht).cfg
  | _ => exact Res.gives_next.2 rfl

/-! ### One step -/

/-- A step on a line that answers a next state only fixed the decoder's answer, or ran one instruction, with operands on the wires
before it and the wires cleared after it or not; of the hardware's lines but RESET the instruction is STEP or PUTBIT. -/
theorem step_next_cases {s t : State} {line : Stimulus} {rest : List Stimulus} (hq : s.inq = line :: rest)
    (hrun : step s = .next t) :
    t = { takeLine rest s with fecNext := t.fecNext } ∨
    ∃ (i : Instr) (u v : State), u = { takeLine rest s with wires := u.wires } ∧ exec i u = .next v ∧
      t = { v with wires := t.wires } ∧ (line.hardware → line ≠ .reset → i = .step ∨ i = .putbit) := by
  obtain ⟨hop, hbad, hsample, hreset, hputbit, hfec, -⟩ := stepRunsTheInstructionOfTheNextLine s rest
  match line with
  | .op w =>
    cases hdecode : decode w.bytes with
    | error e =>
      rw [hbad w e hq hdecode] at hrun
      cases hrun
    | ok decoded =>
      rw [hop w decoded.1 decoded.2 hq hdecode] at hrun
      exact .inr ⟨_, _, t, rfl, hrun, rfl, nofun⟩
  | .reset =>
    rw [hreset hq] at hrun
    obtain ⟨v, hexec, hclear⟩ := Res.andThen_eq_next.1 hrun
    obtain rfl := Host.Outcome.next.inj hclear
    exact .inr ⟨_, _, v, rfl, hexec, rfl, fun _ hreset => absurd rfl hreset⟩
  | .sample .nonFinite _ _ | .sample (.finite _) .nonFinite _ | .fec .nonFinite _ =>
    rw [step_of_reject hq rfl] at hrun
    cases hrun
  | .sample (.finite re) (.finite im) now =>
    rw [hsample re im now hq] at hrun
    obtain ⟨v, hexec, hclear⟩ := Res.andThen_eq_next.1 hrun
    obtain rfl := Host.Outcome.next.inj hclear
    exact .inr ⟨_, _, v, rfl, hexec, rfl, fun _ _ => .inl rfl⟩
  | .putbit sv =>
    rw [hputbit sv hq] at hrun
    obtain ⟨v, hexec, hclear⟩ := Res.andThen_eq_next.1 hrun
    obtain rfl := Host.Outcome.next.inj hclear
    exact .inr ⟨_, _, v, rfl, hexec, rfl, fun _ _ => .inr rfl⟩
  | .fec (.finite vp) bits =>
    rw [hfec vp bits hq] at hrun
    obtain rfl := Host.Outcome.next.inj hrun
    exact .inl rfl

/-- Settles O56: the one instruction of a step (`step_next_cases`) keeps the configuration (`exec_cfg`); STEP and PUTBIT keep a
block in progress (`execStep_blockKept`, `execPutbit_kept`). -/
theorem tablesAndGeometryAreImmutable : Obligations.TablesAndGeometryAreImmutable := by
  unfold Obligations.TablesAndGeometryAreImmutable
  intro s t hrun
  cases hq : s.inq with
  | nil =>
    rw [step_of_no_line hq] at hrun
    obtain rfl := Host.Outcome.next.inj hrun
    exact ⟨rfl, nofun⟩
  | cons line rest =>
    rcases step_next_cases hq hrun with hline | ⟨i, u, v, hu, hexec, ht, hinstr⟩
    · rw [hline]
      exact ⟨rfl, fun _ _ _ _ _ _ => ⟨rfl, rfl, rfl⟩⟩
    · have hcfg := exec_cfg i u v hexec
      rw [hu] at hcfg
      refine ⟨by rw [ht]; exact hcfg, fun line' rest' heq hhardware hreset hdata => ?_⟩
      obtain ⟨rfl, rfl⟩ := List.cons.inj heq
      have hkept : BlockKept u v := by
        rcases hinstr hhardware hreset with rfl | rfl
        · exact execStep_blockKept u v hexec
        · exact (execPutbit_kept u v hexec).blockKept
      rw [hu] at hkept
      rw [ht]
      exact hkept.block hdata

end Sys2Proof.Machine
end
